-- ==== Sys2Proof/Word.lean ====
section
/-! DEFINITION. The word types of FBTX: every memory access, bus transfer and coordinate is one
byte (spec/20_memory.md R54, R55); a frame on the bus is a byte with its `dc` level
(spec/30_encoding.md R74). All values are unsigned (spec/00_scope.md R8). -/

namespace Sys2Proof

/-- One byte: a framebuffer cell, a shadow cell, a command or data byte (R54, R55). -/
abbrev Byte := BitVec 8

/-- The host request code `OPREQ[1:0]` (spec/30_encoding.md R70). -/
abbrev OpReq := BitVec 2

/-- A bus frame `F` with `dc` in bit 8 and `b` in bits 7 to 0 (spec/30_encoding.md R74). -/
abbrev Frame := BitVec 9

end Sys2Proof
end

