-- ==== Sys2Proof/Config.lean ====
section
/-! DEFINITION. The configuration of FBTX (spec/00_scope.md R6), its named checks (R7), the
geometry's last page (spec/10_state.md R22), and the values the spec leaves OPEN or calls a draw,
as opaque constants no proof can look into. -/

namespace Sys2Proof

/-- `MODE`: the Frame Transmitter variant (spec/10_state.md R21). -/
inductive Mode where
  | tracked
  | full
deriving DecidableEq, Repr

/-- `GEOM`: the geometry tag (spec/10_state.md R22). The second tag is from general knowledge in
the spec itself (93_implementation_defined.md G2; notes/assumptions/21.md). -/
inductive Geometry where
  | g128x64
  | g128x32
deriving DecidableEq, Repr

/-- The three control lines, by role (spec/00_scope.md R10, spec/10_state.md R31). -/
inductive Line where
  | cs
  | dc
  | rst
deriving DecidableEq, Repr

/-- The parameters of spec/00_scope.md R6, and the OPEN parameters of the collaborators:
`FB_BASE` (spec/20_memory.md R53), `BIT_ORDER` and `SPI_MODE` (R54, 92_eei_decisions.md D19). -/
structure Config where
  w : Nat
  h : Nat
  np : Nat
  fbSize : Nat
  mode : Mode
  geom : Geometry
  clkdiv : Nat
  tSettle : Nat
  tRstHold : Nat
  opColumnaddr : Byte
  opPageaddr : Byte
  yieldPeriodB : Nat
  dcRestore : Bool
  lineCs : Nat
  lineDc : Nat
  lineRst : Nat
  fbBase : Nat
  bitOrder : Nat
  spiMode : Nat
deriving DecidableEq, Repr

/-- The named configuration checks of spec/00_scope.md R7. -/
inductive ConfigCheck where
  | chkWidth
  | chkPages
  | chkSize
  | chkGeomFull
  | chkHold
  | chkYield
  | chkLines
deriving DecidableEq, Repr

/-- `LASTPAGE(GEOM)` (spec/10_state.md R22). -/
def Geometry.lastPage : Geometry → Nat
  | .g128x64 => 7
  | .g128x32 => 3

/-- Whether one named check holds (spec/00_scope.md R7). -/
def Config.passes (cfg : Config) : ConfigCheck → Bool
  | .chkWidth => decide (1 ≤ cfg.w ∧ cfg.w ≤ 256)
  | .chkPages => decide (1 ≤ cfg.np ∧ cfg.np ≤ 256 ∧ cfg.h = 8 * cfg.np)
  | .chkSize => decide (cfg.fbSize = cfg.w * cfg.np)
  | .chkGeomFull => decide (cfg.mode = .full → cfg.geom.lastPage + 1 = cfg.np)
  | .chkHold => decide (10 ≤ cfg.tRstHold)
  | .chkYield =>
    decide (cfg.mode = .full → 1 ≤ cfg.yieldPeriodB ∧ cfg.yieldPeriodB ≤ cfg.fbSize)
  | .chkLines =>
    decide (cfg.lineCs ≠ cfg.lineDc ∧ cfg.lineCs ≠ cfg.lineRst ∧ cfg.lineDc ≠ cfg.lineRst)

/-- The checks in the order R7 lists them. -/
def ConfigCheck.all : List ConfigCheck :=
  [.chkWidth, .chkPages, .chkSize, .chkGeomFull, .chkHold, .chkYield, .chkLines]

/-- The first check a configuration fails, none for a well-formed one (spec/00_scope.md R7). -/
def Config.firstFailure (cfg : Config) : Option ConfigCheck :=
  ConfigCheck.all.find? fun k => !cfg.passes k

/-- A configuration is well formed if every check of R7 holds. -/
abbrev Config.WellFormed (cfg : Config) : Prop := cfg.firstFailure = none

/-- The platform identifier of a line: `LINE_CS`, `LINE_DC`, `LINE_RST` (spec/00_scope.md R6). -/
def Config.lineId (cfg : Config) : Line → Nat
  | .cs => cfg.lineCs
  | .dc => cfg.lineDc
  | .rst => cfg.lineRst

/-- Index of a framebuffer cell, `idx(p, c) = p*W + c` (spec/00_scope.md R11). -/
def Config.idx (cfg : Config) (p c : Nat) : Nat := p * cfg.w + c

/-- The cell that holds the pixel at display coordinates (`x`, `y`), `y` from the top: byte
`idx(y div 8, x)`; its bit is `y mod 8` (spec/00_scope.md R11). -/
def Config.pixelIndex (cfg : Config) (x y : Nat) : Nat := cfg.idx (y / 8) x

/-- The host address of framebuffer index `i` is `FB_BASE + i` (spec/20_memory.md R53). -/
def Config.hostAddress (cfg : Config) (i : Nat) : Nat := cfg.fbBase + i

/-- FREE VALUE. `CLKDIV` is OPEN (92_eei_decisions.md D4; notes/assumptions/5.md). -/
opaque Config.openClkdiv : Nat

/-- FREE VALUE. `FB_BASE` is OPEN (92_eei_decisions.md D27; notes/assumptions/5.md). -/
opaque Config.openFbBase : Nat

/-- FREE VALUE. `BIT_ORDER` is OPEN (92_eei_decisions.md D19; notes/assumptions/5.md). -/
opaque Config.openBitOrder : Nat

/-- FREE VALUE. `SPI_MODE` is OPEN (92_eei_decisions.md D19; notes/assumptions/5.md). -/
opaque Config.openSpiMode : Nat

/-- FREE VALUE. Byte `i` of the shadow buffer at block reset: "a draw: any bytes, fixed at
construction, unknown to claims" (spec/10_state.md R40; notes/assumptions/3.md). -/
opaque Config.shadowDraw : Nat → Byte

/-- FREE VALUE. Byte `i` of the framebuffer before the host writes it: "the host's business"
(spec/70_reset_and_hazards.md R182; notes/assumptions/4.md). -/
opaque Config.hostFrame : Nat → Byte

/-- The configuration of `State.reset`: the 128 by 64 display of spec/42_display_tracked.md R149 in
Mode A, every parameter that R6 gives a value at that value, the OPEN ones free.
DESIGN CHOICE (unsafe), notes/assumptions/2.md and 6.md: R6 leaves the rest to the construction. -/
def Config.standard : Config where
  w := 128
  h := 64
  np := 8
  fbSize := 1024
  mode := .tracked
  geom := .g128x64
  clkdiv := Config.openClkdiv
  tSettle := 1
  tRstHold := 10
  opColumnaddr := 0x21#8
  opPageaddr := 0x22#8
  yieldPeriodB := 128
  dcRestore := true
  lineCs := 0
  lineDc := 1
  lineRst := 2
  fbBase := Config.openFbBase
  bitOrder := Config.openBitOrder
  spiMode := Config.openSpiMode

end Sys2Proof
end

