-- ==== Sys2Proof/Syntax.lean ====
section
/-! DEFINITION. The syntax of FBTX: the rows of spec/opcode_table.json as one inductive
(spec/30_encoding.md R85), the trace events (spec/10_state.md R33), and the host program
statements (spec/30_encoding.md R83) with the host moves they stand for. -/

namespace Sys2Proof

/-- One constructor per row of spec/opcode_table.json: four host requests and four bus frames. -/
inductive Instr where
  /-- `CONNECT`, `OPREQ = 0b01` (spec/41_connect.md R120). -/
  | connect
  /-- `DISPLAY_TRACKED`, `OPREQ = 0b10` with `MODE = TRACKED` (spec/42_display_tracked.md R130). -/
  | displayTracked
  /-- `DISPLAY_FULL`, `OPREQ = 0b10` with `MODE = FULL` (spec/43_display_full.md R150). -/
  | displayFull
  /-- `RESERVED_OP`, `OPREQ = 0b11` (spec/30_encoding.md R70, R82). -/
  | reservedOp
  /-- `CMD_COLUMNADDR`, the first frame of a column-address-range sequence (R77). -/
  | cmdColumnaddr
  /-- `CMD_PAGEADDR`, the first frame of a page-address-range sequence (R78). -/
  | cmdPageaddr
  /-- `CMD_ARG`, a coordinate argument frame (R80). -/
  | cmdArg (a : Byte)
  /-- `DATA`, a data frame (R76). -/
  | data (d : Byte)
deriving DecidableEq, Repr

/-- The two row formats of the opcode table (R85). -/
inductive Format where
  | opreq2
  | bus9
deriving DecidableEq, Repr

/-- The two host operations (R70), as `Done` names them. -/
inductive HostOp where
  | connect
  | display
deriving DecidableEq, Repr

/-- A line level, 0 or 1 (spec/00_scope.md R10). -/
inductive Level where
  | low
  | high
deriving DecidableEq, Repr

/-- The events of the trace (spec/10_state.md R33). -/
inductive Event where
  | dir (l : Line)
  | lvl (l : Line) (v : Level)
  | begin
  | clkDiv (v : Nat)
  | xfer (b : Byte)
  | delay (t : Nat)
  | yield
  | done (op : HostOp)
deriving DecidableEq, Repr

/-- What can keep an operation from ever going on, each a hang and not a fault: a transfer that never
completes (spec/40_bus_primitives.md R101), a host that never resumes FBTX after a yield
(spec/60_exceptions.md R175), a delay that never ends (spec/70_reset_and_hazards.md R191). -/
inductive Hang where
  | transfer
  | yield
  | delay
deriving DecidableEq, Repr

/-- What the environment does next (spec/60_exceptions.md R175): the host's own actions, and the
ways it lets time pass for FBTX or keeps it from going on. The form is the model's: notes/assumptions/11.md. -/
inductive HostMove where
  /-- Present a code on the request port (R71). -/
  | present (code : OpReq)
  /-- Write byte `v` at framebuffer index `i` (R83). -/
  | fbw (i : Nat) (v : Byte)
  /-- Set the pixel at (`x`, `y`) to `v` (R83). -/
  | pix (x y : Nat) (v : Bool)
  /-- Read `RESULT` (spec/10_state.md R30). -/
  | readResult
  /-- Let FBTX take one step: the transfer completes, the delay ends, the yield returns. -/
  | resume
  /-- Wait until `BUSY = 0`, letting FBTX step (R83). -/
  | wait
  /-- Hold FBTX up for a while: a transfer, delay or yield that has not ended yet (R101, R104). -/
  | hold
  /-- Wait until `BUSY = 0` in an environment where one kind of wait of FBTX never ends (R101, R175):
  FBTX steps until it stands at such a wait, and from there on has no further step. -/
  | never (w : Hang)
deriving DecidableEq, Repr

/-- Whether a move is a request of the host (R71); the code 0b00 requests nothing (R70). -/
def HostMove.isRequest : HostMove → Bool
  | .present code => decide (code ≠ 0#2)
  | .fbw _ _ | .pix _ _ _ | .readResult | .resume | .wait | .hold | .never _ => false

/-- Whether a move lasts until `BUSY = 0` (R83). -/
@[simp] def HostMove.lasts : HostMove → Bool
  | .wait | .never _ => true
  | .present _ | .fbw _ _ | .pix _ _ _ | .readResult | .resume | .hold => false

/-- The statements of a host program (spec/30_encoding.md R83). -/
inductive HostStmt where
  | connect
  | display
  | fbw (i : Nat) (v : Byte)
  | pix (x y : Nat) (v : Bool)
deriving DecidableEq, Repr

/-- What a statement of a host program means in host moves: CONNECT and DISPLAY request and wait
until `BUSY = 0`; FBW and PIX are host actions with no code on the port (R83). -/
def HostStmt.moves : HostStmt → List HostMove
  | .connect => [.present 0b01#2, .wait]
  | .display => [.present 0b10#2, .wait]
  | .fbw i v => [.fbw i v]
  | .pix x y v => [.pix x y v]

/-- The moves of a whole host program, one statement after the other (R83). -/
def HostStmt.program (stmts : List HostStmt) : List HostMove := stmts.flatMap HostStmt.moves

/-- The textual form of a host statement (R83); numbers in decimal (spec/00_scope.md R8). -/
def HostStmt.text : HostStmt → String
  | .connect => "CONNECT"
  | .display => "DISPLAY"
  | .fbw i v => "FBW " ++ toString i ++ ", " ++ toString v.toNat
  | .pix x y v => "PIX " ++ toString x ++ ", " ++ toString y ++ ", " ++ (if v then "1" else "0")

/-- The textual name of a line in the trace syntax (R83). -/
def Line.text : Line → String
  | .cs => "CS"
  | .dc => "DC"
  | .rst => "RST"

/-- The textual form of an event (R83). -/
def Event.text : Event → String
  | .dir l => "Dir(" ++ l.text ++ ")"
  | .lvl l v => "Lvl(" ++ l.text ++ "," ++ (if v = .high then "1" else "0") ++ ")"
  | .begin => "Begin"
  | .clkDiv v => "ClkDiv(" ++ toString v ++ ")"
  | .xfer b => "Xfer(" ++ toString b.toNat ++ ")"
  | .delay t => "Delay(" ++ toString t ++ ")"
  | .yield => "Yield"
  | .done .connect => "Done(CONNECT)"
  | .done .display => "Done(DISPLAY)"

/-- The textual form of a frame of the controller stream: `CMD b` or `DAT b` (R83). -/
def Frame.text (f : Frame) : String :=
  (if f.getLsbD 8 then "DAT " else "CMD ") ++ toString (f.setWidth 8).toNat

/-- `SENDCMD b`, the five events of a command bracket (R84, spec/40_bus_primitives.md R102). -/
def Event.sendcmd (b : Byte) : List Event :=
  [.lvl .cs .high, .lvl .dc .low, .lvl .cs .low, .xfer b, .lvl .cs .high]

/-- `DOPEN`, the three events that open the data bracket (R84, R103). -/
def Event.dopen : List Event := [.lvl .cs .high, .lvl .dc .high, .lvl .cs .low]

/-- `DCLOSE`, the events that close the data bracket, by `DC_RESTORE` (R84, R103). -/
def Event.dclose (cfg : Config) : List Event :=
  .lvl .cs .high :: if cfg.dcRestore then [.lvl .dc .low] else []

/-- `SETWINDOW c0, c1, p0, p1`: six command brackets, column range first (R79, R84). -/
def Event.setwindow (cfg : Config) (c0 c1 p0 p1 : Byte) : List Event :=
  Event.sendcmd cfg.opColumnaddr ++ Event.sendcmd c0 ++ Event.sendcmd c1
    ++ (Event.sendcmd cfg.opPageaddr ++ Event.sendcmd p0 ++ Event.sendcmd p1)

/-- A transfer event. -/
def Event.isXfer : Event → Bool
  | .xfer _ => true
  | _ => false

/-- A line level event. -/
def Event.isLvl : Event → Bool
  | .lvl _ _ => true
  | _ => false

/-- A completion event. -/
def Event.isDone : Event → Bool
  | .done _ => true
  | _ => false

/-- A yield event. -/
def Event.isYield : Event → Bool
  | .yield => true
  | _ => false

end Sys2Proof
end

