-- ==== Sys2Proof/WellFormed.lean ====
section
/-! DEFINITION. Well-formedness under a configuration: which rows of the opcode table exist on
the FBTX that was built, and which host statements name cells it has. -/

namespace Sys2Proof

/-- The check an instruction can fail: a DISPLAY row of the mode this FBTX does not have
(spec/10_state.md R21, "no FBTX has both"; spec/30_encoding.md R85). -/
inductive InstrCheck where
  | chkTrackedRow
  | chkFullRow
deriving DecidableEq, Repr

/-- The check an instruction fails under a configuration, none for a well-formed one. The frame
rows admit every operand value (spec/30_encoding.md R76, R80). -/
def Instr.failure (cfg : Config) : Instr → Option InstrCheck
  | .connect => none
  | .displayTracked => if cfg.mode = .tracked then none else some .chkTrackedRow
  | .displayFull => if cfg.mode = .full then none else some .chkFullRow
  | .reservedOp => none
  | .cmdColumnaddr => none
  | .cmdPageaddr => none
  | .cmdArg _ => none
  | .data _ => none

/-- An instruction is well formed under a configuration if it fails no check. -/
abbrev Instr.WellFormed (cfg : Config) (i : Instr) : Prop := i.failure cfg = none

/-- A host statement names a cell of the framebuffer: `0 <= i < FB_SIZE` (spec/20_memory.md R51),
and a pixel of the display, `x < W` and `y < H` (spec/00_scope.md R11). -/
def HostStmt.wellFormed (cfg : Config) : HostStmt → Bool
  | .connect => true
  | .display => true
  | .fbw i _ => decide (i < cfg.fbSize)
  | .pix x y _ => decide (x < cfg.w ∧ y < cfg.h)

end Sys2Proof
end

