-- ==== Sys2Proof/Decode.lean ====
section
/-! DEFINITION. The decoder, total on every code and frame and rejecting by name, and after it the
encoder. Host rows: spec/30_encoding.md R70. Frame rows: R74 to R81; command frames are told apart
by position, so a frame is decoded with the position it stands in (R81, R85). -/

namespace Sys2Proof

/-- Why a word is no instruction. -/
inductive DecodeReject where
  /-- `OPREQ = 0b00` is no request (R70). -/
  | noRequest
  /-- A command byte in opcode position that is neither command of FBTX (R82 b). -/
  | otherCommand
  /-- A word with bits above its format's width. -/
  | tooWide
deriving DecidableEq, Repr

/-- Where a command frame stands in its sequence (R81). -/
inductive FramePos where
  | opcode
  | argument
deriving DecidableEq, Repr

/-- Decode a request code under a mode: the two DISPLAY rows share one code and are told apart by
`MODE` (R70, R85). -/
def decodeRequest (mode : Mode) (code : OpReq) : Except DecodeReject Instr :=
  match code.toNat with
  | 0 => .error .noRequest
  | 1 => .ok .connect
  | 2 => .ok (match mode with | .tracked => .displayTracked | .full => .displayFull)
  | _ => .ok .reservedOp

/-- The byte `b[7:0]` of a frame (R74). -/
def Frame.byte (f : Frame) : Byte := f.setWidth 8

/-- The `dc` bit of a frame (R74). -/
def Frame.isData (f : Frame) : Bool := f.getLsbD 8

/-- The frame `{dc, b}` (R74). -/
def Frame.of (isData : Bool) (b : Byte) : Frame := BitVec.ofBool isData ++ b

/-- Decode a frame at a position (R75 to R81). -/
def decodeFrame (cfg : Config) (pos : FramePos) (f : Frame) : Except DecodeReject Instr :=
  if f.isData then .ok (.data f.byte)
  else match pos with
    | .argument => .ok (.cmdArg f.byte)
    | .opcode =>
      if f.byte = cfg.opColumnaddr then .ok .cmdColumnaddr
      else if f.byte = cfg.opPageaddr then .ok .cmdPageaddr
      else .error .otherCommand

/-- A frame with no position given is read as a command where it is one and as an argument where
it is not: the reading the rows of the opcode table have on their own (notes/assumptions/19.md). -/
def decodeFrameAlone (cfg : Config) (f : Frame) : Instr :=
  match decodeFrame cfg .opcode f with
  | .ok i => i
  | .error _ => .cmdArg f.byte

/-- Decode a word of a format, under a configuration. -/
def decodeWord (cfg : Config) (fmt : Format) (w : Nat) : Except DecodeReject Instr :=
  match fmt with
  | .opreq2 => if w < 4 then decodeRequest cfg.mode (BitVec.ofNat 2 w) else .error .tooWide
  | .bus9 => if w < 512 then .ok (decodeFrameAlone cfg (BitVec.ofNat 9 w)) else .error .tooWide

/-- The format of a table word by its length in bits, in whole bytes: a request code takes one
byte, a frame two. -/
def formatOfBits (nbits : Nat) : Format := if nbits ≤ 8 then .opreq2 else .bus9

/-- The instruction the decoder reads from a word of the opcode table, on the FBTX of
`State.reset` (its `MODE` tells the two DISPLAY rows apart). -/
def decodeTableWord (nbits w : Nat) : Option Instr :=
  match decodeWord Config.standard (formatOfBits nbits) w with
  | .ok i => some i
  | .error _ => none

/-- The words of an instruction: a request code or a frame (R85). -/
inductive Encoded where
  | request (code : OpReq)
  | frame (pos : FramePos) (f : Frame)
deriving DecidableEq, Repr

/-- The encoder, from the rows of the opcode table (R70, R76 to R80, R85). A command frame comes
with the position it stands in (R81); a data frame is encoded at argument position, where any
position would do. -/
def encode (cfg : Config) : Instr → Encoded
  | .connect => .request 0b01#2
  | .displayTracked => .request 0b10#2
  | .displayFull => .request 0b10#2
  | .reservedOp => .request 0b11#2
  | .cmdColumnaddr => .frame .opcode (Frame.of false cfg.opColumnaddr)
  | .cmdPageaddr => .frame .opcode (Frame.of false cfg.opPageaddr)
  | .cmdArg a => .frame .argument (Frame.of false a)
  | .data d => .frame .argument (Frame.of true d)

/-- Decode what the encoder writes. -/
def decode (cfg : Config) : Encoded → Except DecodeReject Instr
  | .request code => decodeRequest cfg.mode code
  | .frame pos f => decodeFrame cfg pos f

end Sys2Proof
end

