-- ==== Sys2Proof/Machine/State.lean ====
section
/-! DEFINITION. The state of the machine: everything spec/10_state.md gives FBTX, the host's side
(request port, framebuffer, moves not yet made), the reference receiver of spec/20_memory.md R63,
and the state after block reset (spec/10_state.md R40). State is plain data. -/

namespace Sys2Proof.Machine

/-- The reasons of spec/60_exceptions.md R161. `raise Fault(reason)` is a NEXT state with the reason
in `FAULT`; a step of a machine that already stands in a fault answers `.fault reason`, since it
"takes no step" (R160, R167; notes/assumptions/10.md). -/
inductive Fault where
  /-- Code 1. A request while `BUSY = 1` (R162). Safe. -/
  | busy
  /-- Code 2. `OPREQ = 0b11` (R162). Safe. -/
  | reservedOp
  /-- Code 3. DISPLAY while `CONNECTED = 0` (R162). Safe. -/
  | notConnected
  /-- Code 4. CONNECT while `CONNECTED = 1` (R162). Safe. -/
  | reconnect
  /-- Code 5. A host framebuffer write while `BUSY = 1` (spec/20_memory.md R57). Safe. -/
  | fbWriteBusy
  /-- Code 6. A framebuffer index outside `0..FB_SIZE-1` (spec/20_memory.md R51), from either port of
  FBTX or from the host (notes/assumptions/17.md). Safe. -/
  | fbRange
  /-- Code 7. A line write while `DIR(L)` is not `OUT` (spec/40_bus_primitives.md R100). Safe. -/
  | lineNotOutput
  /-- Code 8. A transfer while `BUS_BEGUN = 0` (spec/40_bus_primitives.md R101). Safe. -/
  | busNotBegun
  /-- Code 9. A read of a register no rule has written: the spec's own fault, for the state "no value
  (unwritten)" of spec/10_state.md R40 (R161, R166, 92_eei_decisions.md D10,
  93_implementation_defined.md U4). Safe. -/
  | unwrittenReg
deriving DecidableEq, Repr

/-- Why the machine has no meaning for what it is asked to do. -/
inductive Refusal where
  /-- Raised by a refused arm of `exec` only: an instruction with no meaning yet. Safe. -/
  | notModelled (mnemonic : String)
  /-- Raised by `step` and by construction: the configuration fails a named check, so "the block is
  not built, no step exists" (spec/00_scope.md R7). Safe. -/
  | badConfig (check : ConfigCheck)
  /-- Raised by the frame rows outside their bracket: FBTX emits a frame only inside one
  (spec/30_encoding.md R75, R76; notes/assumptions/15.md). Safe. -/
  | frameOutsideBracket
  /-- Raised by a DISPLAY row of the mode this FBTX does not have (spec/10_state.md R21). Safe. -/
  | otherMode
deriving DecidableEq, Repr

/-- How a statement of the pseudocode can fail to complete. -/
inductive Stop where
  | raises (r : Fault)
  | refuses (q : Refusal)
deriving DecidableEq, Repr

/-- The result of running a statement of the pseudocode. -/
abbrev Res (α : Type) := Except Stop α

/-- A register of `n` bits that "holds no value from block reset until a rule writes it": the
spec's own state of a register (spec/10_state.md R23, R40; spec/60_exceptions.md R166). -/
inductive Reg (n : Nat) where
  | unwritten
  | holds (v : BitVec n)
deriving DecidableEq, Repr

/-- A value the spec writes `UNK` until it is first given (spec/10_state.md R31, R32). -/
inductive Unk (α : Type) where
  | unk
  | known (v : α)
deriving DecidableEq, Repr

/-- `DIR(L)`, `IN` or `OUT` (spec/10_state.md R31). -/
inductive Direction where
  | input
  | output
deriving DecidableEq, Repr

/-- The labels of CONNECT (spec/41_connect.md R121). -/
inductive ConnectStep where
  | k1 | k2 | k3 | k4 | k5 | k6 | k7 | k8 | k9 | k10 | k11
deriving DecidableEq, Repr

/-- The six command brackets of a window, in order (spec/30_encoding.md R79): A5 and A6 in Mode A, B1
and B2 in Mode B. -/
inductive CmdSlot where
  | colOp | colFirst | colLast | pageOp | pageFirst | pageLast
deriving DecidableEq, Repr

/-- The five statements of a command bracket (spec/40_bus_primitives.md R102). -/
inductive BracketStep where
  | deselect | command | select | transfer | release
deriving DecidableEq, Repr

/-- The three statements of `DOPEN` (spec/40_bus_primitives.md R103). -/
inductive OpenStep where
  | deselect | dataMode | select
deriving DecidableEq, Repr

/-- The statements of `DCLOSE` (spec/40_bus_primitives.md R103). -/
inductive CloseStep where
  | deselect | dcLow
deriving DecidableEq, Repr

/-- The sequencer position `seq` (spec/10_state.md R27): `IDLE` or the next event statement of the
operation in progress, with the mode of the DISPLAY it belongs to where both modes have it. -/
inductive Seq where
  /-- `IDLE`. -/
  | idle
  /-- K1 to K11. -/
  | connect (k : ConnectStep)
  /-- A1 with the scan and the yield of the first page row. -/
  | a1
  /-- A2 and A3: the scan and the yield of page row `P`. -/
  | scan
  /-- A4 on an empty frame: completion. -/
  | a4
  /-- A5, A6, B1, B2: a statement of a command bracket. -/
  | cmd (m : Mode) (slot : CmdSlot) (st : BracketStep)
  /-- A7, B3. -/
  | dopen (m : Mode) (st : OpenStep)
  /-- A8: the transfer of cell (`P`, `C`). -/
  | a8
  /-- A9: the yield of page row `P`. -/
  | a9
  /-- B4: the transfer of byte `I`. -/
  | b4
  /-- B4: the yield after byte `I`. -/
  | b4Yield
  /-- A10, B5. -/
  | dclose (m : Mode) (st : CloseStep)
  /-- A11, B6. -/
  | finish (m : Mode)
deriving DecidableEq, Repr

/-- `FAULT` with the seq label of the step that raised it (spec/60_exceptions.md R160); for a host move, the
label at which FBTX stands (DESIGN CHOICE, notes/assumptions/31.md). -/
structure FaultRecord where
  reason : Fault
  label : Seq
deriving DecidableEq, Repr

/-- A memory as address and byte pairs, addresses strictly rising; an address that is not listed
holds no value (notes/assumptions/27.md). -/
abbrev Memory := List Host.Cell

/-- The memory of `n` bytes whose byte `i` is `f i`. -/
def Memory.fill (n : Nat) (f : Nat → Byte) : Memory := (List.range' 0 n).map fun i => (i, f i)

/-- The parser state `ps` of the reference receiver (spec/20_memory.md R63). -/
inductive ParserState where
  | idle | col1 | col2 | page1 | page2
deriving DecidableEq, Repr

/-- The reference receiver (spec/20_memory.md R63). `RAM[p][c]` is at address `256*p + c`; a RAM cell
holds no known value until a data frame gives it one, "The reference receiver's RAM starts unknown"
(spec/95_test_vectors.md Part 3). -/
structure Receiver where
  ram : Memory
  ca0 : Byte
  ca1 : Byte
  pa0 : Byte
  pa1 : Byte
  cp : Byte
  pp : Byte
  ps : ParserState
deriving DecidableEq, Repr

/-- Why the reference receiver is outside its model (spec/20_memory.md R63, U23). -/
inductive RxOutside where
  /-- A command byte that is neither window command, in opcode position. -/
  | otherCommand
  /-- A window with first above last. -/
  | reversedWindow
deriving DecidableEq, Repr

/-- The receiver, or the reason it left its model. FBTX never reads it. -/
inductive Rx where
  | tracking (r : Receiver)
  | outside (why : RxOutside)
deriving DecidableEq, Repr

/-- The state. Each field names its rule in INVENTORY.md. -/
structure State where
  cfg : Config
  minP : Reg 8
  maxP : Reg 8
  minC : Reg 8
  maxC : Reg 8
  p : Reg 9
  c : Reg 9
  i : Reg 17
  seq : Seq
  busy : Bool
  connected : Bool
  result : Reg 1
  dirCs : Direction
  dirDc : Direction
  dirRst : Direction
  csN : Unk Level
  dc : Unk Level
  rstN : Unk Level
  busBegun : Bool
  busClkdiv : Unk Nat
  trace : List Event
  sh : Memory
  fault : Option FaultRecord
  opreq : OpReq
  fb : Memory
  host : List HostMove
  rx : Rx
deriving DecidableEq, Repr

/-- The receiver before the first frame: RAM unknown, the parser in `IDLE`. DESIGN CHOICE (unsafe),
notes/assumptions/16.md: R63 gives the windows and pointers no reset value, and they start at 0. -/
def Receiver.initial : Receiver where
  ram := []
  ca0 := 0#8
  ca1 := 0#8
  pa0 := 0#8
  pa1 := 0#8
  cp := 0#8
  pp := 0#8
  ps := .idle

/-- Block reset of FBTX with configuration `cfg`, beside a host framebuffer `frame`, with `draw` as
the shadow buffer's contents (spec/10_state.md R40, spec/70_reset_and_hazards.md R180). -/
def State.blockReset (cfg : Config) (frame draw : Nat → Byte) : State where
  cfg := cfg
  minP := .unwritten
  maxP := .unwritten
  minC := .unwritten
  maxC := .unwritten
  p := .unwritten
  c := .unwritten
  i := .unwritten
  seq := .idle
  busy := false
  connected := false
  result := .unwritten
  dirCs := .input
  dirDc := .input
  dirRst := .input
  csN := .unk
  dc := .unk
  rstN := .unk
  busBegun := false
  busClkdiv := .unk
  trace := []
  sh := match cfg.mode with
    | .tracked => Memory.fill cfg.fbSize draw
    | .full => []
  fault := none
  opreq := 0#2
  fb := Memory.fill cfg.fbSize frame
  host := []
  rx := .tracking Receiver.initial

/-- Construction: a configuration that fails a check of R7 is refused, "the block is not built"
(spec/00_scope.md R7). -/
def State.construct (cfg : Config) (frame draw : Nat → Byte) : Except Refusal State :=
  match cfg.firstFailure with
  | some check => .error (.badConfig check)
  | none => .ok (State.blockReset cfg frame draw)

/-- The machine right after block reset, with the standard configuration, the shadow draw and the
host's framebuffer free (notes/assumptions/2.md, 3.md, 4.md). -/
def State.reset : State := State.blockReset Config.standard Config.hostFrame Config.shadowDraw

end Sys2Proof.Machine
end

