-- ==== Sys2Proof/Machine/Receiver.lean ====
section
/-! DEFINITION. Memory cells, and the reference receiver of spec/20_memory.md R63: a decision of the
spec for end-to-end properties, which no step of FBTX reads. -/

namespace Sys2Proof.Machine

/-- The byte a memory holds at an address, none where the address is not listed. -/
def Memory.read : Memory → Nat → Option Byte
  | [], _ => none
  | (a, v) :: m, x => if x = a then some v else Memory.read m x

/-- Write one byte, keeping the addresses strictly rising. -/
def Memory.write : Memory → Nat → Byte → Memory
  | [], x, v => [(x, v)]
  | (a, w) :: m, x, v =>
    if x < a then (x, v) :: (a, w) :: m
    else if x = a then (x, v) :: m
    else (a, w) :: Memory.write m x v

/-- The addresses a memory lists. -/
def Memory.addresses (m : Memory) : List Nat := m.map Prod.fst

/-- Whether every address of a list is above `lo`, each above the one before it. -/
def risingAbove (lo : Nat) : List Nat → Bool
  | [] => true
  | a :: as => decide (lo < a) && risingAbove a as

/-- Whether a list of addresses is strictly rising. -/
def rising : List Nat → Bool
  | [] => true
  | a :: as => risingAbove a as

/-- The canonical form of a memory: addresses strictly rising. No listed cell equals what an
unlisted address reads as, since that is no value at all (notes/assumptions/27.md). -/
def Memory.wf (m : Memory) : Bool := rising m.addresses

/-- The RAM address of receiver cell `RAM[p][c]`. -/
def Receiver.cell (p c : Byte) : Nat := p.toNat * 256 + c.toNat

/-- What the receiver does on a command byte `(0, b)` (R63). A window with first above last leaves
the receiver's model (R63, 93_implementation_defined.md U23). -/
def Receiver.onCommand (cfg : Config) (r : Receiver) (b : Byte) : Rx :=
  match r.ps with
  | .idle =>
    if b = cfg.opColumnaddr then .tracking { r with ps := .col1 }
    else if b = cfg.opPageaddr then .tracking { r with ps := .page1 }
    else .outside .otherCommand
  | .col1 => .tracking { r with ca0 := b, ps := .col2 }
  | .col2 =>
    if r.ca0 ≤ b then .tracking { r with ca1 := b, cp := r.ca0, ps := .idle }
    else .outside .reversedWindow
  | .page1 => .tracking { r with pa0 := b, ps := .page2 }
  | .page2 =>
    if r.pa0 ≤ b then .tracking { r with pa1 := b, pp := r.pa0, ps := .idle }
    else .outside .reversedWindow

/-- What the receiver does on a data byte `(1, b)` (R63), whatever its parser state and before any
window too: it stores at `RAM[pp][cp]`, steps the column pointer, and at the window's last column
wraps it and steps the page pointer. -/
def Receiver.onData (r : Receiver) (b : Byte) : Receiver :=
  let stored := { r with ram := r.ram.write (Receiver.cell r.pp r.cp) b }
  if r.cp = r.ca1 then
    { stored with cp := r.ca0, pp := if r.pp = r.pa1 then r.pa0 else r.pp + 1#8 }
  else { stored with cp := r.cp + 1#8 }

/-- One frame of the controller stream at the receiver (R63). -/
def Rx.receive (cfg : Config) (rx : Rx) (f : Frame) : Rx :=
  match rx with
  | .outside why => .outside why
  | .tracking r => if f.isData then .tracking (r.onData f.byte) else r.onCommand cfg f.byte

/-- The `dc` bit of a level: data mode is `DC` high (spec/00_scope.md R10). -/
def Level.isHigh : Level → Bool
  | .low => false
  | .high => true

/-- The frame a transfer of `b` carries at given levels of `CS_N` and `DC`: one only while `CS_N = 0`
and `DC` is driven (spec/30_encoding.md R74, spec/40_bus_primitives.md R106). -/
def frameOnLines (csN dc : Unk Level) (b : Byte) : Option Frame :=
  match csN, dc with
  | .known .low, .known v => some (Frame.of (Level.isHigh v) b)
  | _, _ => none

/-- What the receiver makes of one transfer: a transfer that carries no frame is not heard
(93_implementation_defined.md G4; notes/assumptions/16.md). -/
def Rx.hear (cfg : Config) (rx : Rx) (csN dc : Unk Level) (b : Byte) : Rx :=
  match frameOnLines csN dc b with
  | some f => rx.receive cfg f
  | none => rx

/-- The byte the receiver's RAM holds for cell (`p`, `c`), none where it is unknown. -/
def Rx.ramByte (rx : Rx) (p c : Byte) : Option Byte :=
  match rx with
  | .tracking r => r.ram.read (Receiver.cell p c)
  | .outside _ => none

end Sys2Proof.Machine
end

