-- ==== Sys2Proof/Machine/Ops.lean ====
section
/-! DEFINITION. The shared operations: registers (spec/10_state.md R23), the framebuffer and shadow
ports (spec/20_memory.md R51, R52), raising a fault (spec/60_exceptions.md R160), the bus and line
primitives (spec/40_bus_primitives.md R100 to R105), and accepting and completing a request
(spec/30_encoding.md R71, R72; spec/60_exceptions.md R162, R164). -/

namespace Sys2Proof.Machine

/-- The code of a fault reason (spec/60_exceptions.md R161). -/
def Fault.code : Fault → Nat
  | .busy => 1
  | .reservedOp => 2
  | .notConnected => 3
  | .reconnect => 4
  | .fbWriteBusy => 5
  | .fbRange => 6
  | .lineNotOutput => 7
  | .busNotBegun => 8
  | .unwrittenReg => 9

/-- `raise Fault(reason)`: `FAULT` takes the reason and the seq label; "Nothing else changes"
(spec/60_exceptions.md R160). For a host move that raises, see notes/assumptions/31.md. -/
def State.raise (s : State) (r : Fault) : State := { s with fault := some ⟨r, s.seq⟩ }

/-- Run a body at a state: no step in a standing fault (R160, R167); a body that raises changes
nothing but `FAULT` (R165); a body that has no meaning is refused by name. -/
def settle (s : State) (body : Res State) : Host.Outcome State Fault Refusal :=
  match s.fault with
  | some f => .fault f.reason
  | none =>
    match body with
    | .ok t => .next t
    | .error (.raises r) => .next (s.raise r)
    | .error (.refuses q) => .refused q

/-- Read a register. R166: "A datapath register of 10_state.md rule R23 holds no value from block reset
until a rule writes it. A read of such a register raises `Fault(UNWRITTEN_REG)`" (spec/60_exceptions.md;
code 9 of R161). For `RESULT`, 93_implementation_defined.md U4. -/
def Reg.get {n : Nat} : Reg n → Res (BitVec n)
  | .unwritten => .error (.raises .unwrittenReg)
  | .holds v => .ok v

/-- `MemRead(FB, i, 1)` (spec/20_memory.md R51). -/
def fbRead (s : State) (i : Nat) : Res Byte :=
  if i < s.cfg.fbSize then
    match s.fb.read i with
    | some v => .ok v
    | none => .error (.raises .fbRange)
  else .error (.raises .fbRange)

/-- `MemRead(SH, i, 1)` (spec/20_memory.md R52): SH has the framebuffer's shape, so an index it does
not hold is the same reason (notes/assumptions/17.md). -/
def shRead (s : State) (i : Nat) : Res Byte :=
  match s.sh.read i with
  | some v => .ok v
  | none => .error (.raises .fbRange)

/-- `MemWrite(SH, i, 1, v)` (spec/20_memory.md R52). -/
def shWrite (s : State) (i : Nat) (v : Byte) : State := { s with sh := s.sh.write i v }

/-- The host's write of one framebuffer byte (spec/20_memory.md R57, spec/30_encoding.md R83). -/
def fbWrite (s : State) (i : Nat) (v : Byte) : Res State :=
  if s.busy then .error (.raises .fbWriteBusy)
  else if i < s.cfg.fbSize then .ok { s with fb := s.fb.write i v }
  else .error (.raises .fbRange)

/-- `emit E` (spec/10_state.md R33). -/
def State.emit (s : State) (e : Event) : State := { s with trace := s.trace ++ [e] }

/-- `DIR(L)` (spec/10_state.md R31). -/
def State.dir (s : State) : Line → Direction
  | .cs => s.dirCs
  | .dc => s.dirDc
  | .rst => s.dirRst

/-- `LVL(L)` (spec/10_state.md R31). -/
def State.lvl (s : State) : Line → Unk Level
  | .cs => s.csN
  | .dc => s.dc
  | .rst => s.rstN

/-- `DIR(L) <- OUT`. -/
def State.setOutput (s : State) : Line → State
  | .cs => { s with dirCs := .output }
  | .dc => { s with dirDc := .output }
  | .rst => { s with dirRst := .output }

/-- `LVL(L) <- v`. -/
def State.setLvl (s : State) (l : Line) (v : Level) : State :=
  match l with
  | .cs => { s with csN := .known v }
  | .dc => { s with dc := .known v }
  | .rst => { s with rstN := .known v }

/-- `DIR(L) <- OUT; emit Dir(L)` (spec/41_connect.md R121). -/
def configureLine (l : Line) (s : State) : Res State := .ok ((s.setOutput l).emit (.dir l))

/-- `line(L) <- v` (spec/40_bus_primitives.md R100). -/
def line (l : Line) (v : Level) (s : State) : Res State :=
  if s.dir l = .output then .ok ((s.setLvl l v).emit (.lvl l v))
  else .error (.raises .lineNotOutput)

/-- `emit Xfer(b)`; the frame the transfer carries reaches the reference receiver
(spec/20_memory.md R63). -/
def State.sent (s : State) (b : Byte) : State :=
  { s with trace := s.trace ++ [.xfer b], rx := s.rx.hear s.cfg s.csN s.dc b }

/-- `xfer(b)` (spec/40_bus_primitives.md R101); the returned byte is discarded. -/
def xfer (b : Byte) (s : State) : Res State :=
  if s.busBegun then .ok (s.sent b) else .error (.raises .busNotBegun)

/-- `yield` (spec/40_bus_primitives.md R104). -/
def yieldPoint (s : State) : Res State := .ok (s.emit .yield)

/-- `wait_ms(t)` (spec/40_bus_primitives.md R105). -/
def waitMs (t : Nat) (s : State) : Res State := .ok (s.emit (.delay t))

/-- Move the sequencer (spec/10_state.md R27). -/
def State.goto (s : State) (q : Seq) : State := { s with seq := q }

/-- What a request asks for, as the acceptance checks see it. -/
inductive Request where
  | op (o : HostOp)
  | reserved
deriving DecidableEq, Repr

/-- The fault of an acceptance step, the first in the order `BUSY`, `RESERVED_OP`, then `RECONNECT`
or `NOT_CONNECTED` (spec/60_exceptions.md R162, R164). -/
def acceptFault (s : State) (q : Request) : Option Fault :=
  if s.busy then some .busy
  else match q with
    | .reserved => some .reservedOp
    | .op .connect => if s.connected then some .reconnect else none
    | .op .display => if s.connected then none else some .notConnected

/-- Acceptance: the checks, then `BUSY <- 1` and `seq <-` the first label; the request is consumed and
no event is emitted (spec/30_encoding.md R71). -/
def accept (q : Request) (first : Seq) (s : State) : Res State :=
  match acceptFault s q with
  | some r => .error (.raises r)
  | none => .ok { s with busy := true, seq := first, opreq := 0#2 }

/-- Completion: `emit Done(op); BUSY <- 0; seq <- IDLE` (spec/30_encoding.md R72). -/
def complete (o : HostOp) (s : State) : State :=
  { s with trace := s.trace ++ [.done o], busy := false, seq := .idle }

/-- The next bracket of a window (spec/30_encoding.md R79), none after the last. -/
def CmdSlot.next : CmdSlot → Option CmdSlot
  | .colOp => some .colFirst
  | .colFirst => some .colLast
  | .colLast => some .pageOp
  | .pageOp => some .pageFirst
  | .pageFirst => some .pageLast
  | .pageLast => none

/-- Where the sequencer stands after the bracket of a slot: the next bracket, or `DOPEN`. -/
def Seq.afterBracket (m : Mode) (slot : CmdSlot) : Seq :=
  match slot.next with
  | some n => .cmd m n .deselect
  | none => .dopen m .deselect

/-- The row of the opcode table a sequencer position belongs to, none at `IDLE` (R27). -/
def Seq.owner : Seq → Option Instr
  | .idle => none
  | .connect _ => some .connect
  | .a1 | .scan | .a4 | .a8 | .a9 => some .displayTracked
  | .b4 | .b4Yield => some .displayFull
  | .cmd .tracked _ _ | .dopen .tracked _ | .dclose .tracked _ | .finish .tracked => some .displayTracked
  | .cmd .full _ _ | .dopen .full _ | .dclose .full _ | .finish .full => some .displayFull

/-- Whether instruction `i` is the operation in progress and no request is presented: then a step of
`i` is its next statement; otherwise it is a request for `i` (notes/assumptions/14.md). -/
def inProgress (i : Instr) (s : State) : Bool := decide (s.opreq = 0#2 ∧ s.seq.owner = some i)

end Sys2Proof.Machine
end

