-- ==== Sys2Proof/Machine/Operands.lean ====
section
/-! DEFINITION. The operands: the six bytes of a window in each mode (spec/30_encoding.md R80,
spec/42_display_tracked.md R134, spec/43_display_full.md R151), the data byte of each data run (R137,
R153), and the loop counters that select them (spec/10_state.md R26). -/

namespace Sys2Proof.Machine

/-- The position of a bracket in its command sequence (spec/30_encoding.md R81). -/
def CmdSlot.pos : CmdSlot → FramePos
  | .colOp | .pageOp => .opcode
  | .colFirst | .colLast | .pageFirst | .pageLast => .argument

/-- The byte a bracket of the window sends. Mode A: the opcodes and `MINC`, `MAXC`, `MINP`, `MAXP`
(R134). Mode B: the opcodes and `0`, `W - 1`, `0`, `LASTPAGE(GEOM)` (R151). -/
def slotByte (m : Mode) (slot : CmdSlot) (s : State) : Res Byte :=
  match slot, m with
  | .colOp, _ => .ok s.cfg.opColumnaddr
  | .pageOp, _ => .ok s.cfg.opPageaddr
  | .colFirst, .tracked => s.minC.get
  | .colLast, .tracked => s.maxC.get
  | .pageFirst, .tracked => s.minP.get
  | .pageLast, .tracked => s.maxP.get
  | .colFirst, .full => .ok 0#8
  | .colLast, .full => .ok (BitVec.ofNat 8 (s.cfg.w - 1))
  | .pageFirst, .full => .ok 0#8
  | .pageLast, .full => .ok (BitVec.ofNat 8 s.cfg.geom.lastPage)

/-- The byte of the Mode A data run: `MemRead(FB, idx(P, C), 1)` (spec/42_display_tracked.md R137). -/
def windowByte (s : State) : Res Byte := do
  let p ← s.p.get
  let c ← s.c.get
  fbRead s (s.cfg.idx p.toNat c.toNat)

/-- The byte of the Mode B data run: `MemRead(FB, I, 1)` (spec/43_display_full.md R153). -/
def frameByte (s : State) : Res Byte := do
  let i ← s.i.get
  fbRead s i.toNat

/-- The frame the statement at `seq` sends, with its position, none where it sends none. -/
def frameInProgress (s : State) : Res (Option (FramePos × Frame)) :=
  match s.seq with
  | .cmd m slot _ => do
    let b ← slotByte m slot s
    .ok (some (slot.pos, Frame.of false b))
  | .a8 => do
    let b ← windowByte s
    .ok (some (.argument, Frame.of true b))
  | .b4 => do
    let b ← frameByte s
    .ok (some (.argument, Frame.of true b))
  | _ => .ok none

/-- The column test of the Mode A data run: stay in the row while `C <= MAXC` (R137). -/
def columnTest (s : State) : Res State := do
  let c ← s.c.get
  let maxC ← s.maxC.get
  .ok (s.goto (if c.toNat ≤ maxC.toNat then .a8 else .a9))

/-- The page test of the Mode A data run: enter row `P` at column `MINC` while `P <= MAXP`, else close
the data bracket (R137, R138). -/
def pageTest (s : State) : Res State := do
  let p ← s.p.get
  let maxP ← s.maxP.get
  if p.toNat ≤ maxP.toNat then do
    let minC ← s.minC.get
    columnTest { s with c := .holds (minC.setWidth 9) }
  else .ok (s.goto (.dclose .tracked .deselect))

/-- Entry of the Mode A data run: `P` takes `MINP` (R137). -/
def enterTrackedRun (s : State) : Res State := do
  let minP ← s.minP.get
  pageTest { s with p := .holds (minP.setWidth 9) }

/-- After a transfer of the Mode A data run: the next column. -/
def nextColumn (s : State) : Res State := do
  let c ← s.c.get
  columnTest { s with c := .holds (c + 1#9) }

/-- After the yield of a row of the Mode A data run: the next page. -/
def nextPage (s : State) : Res State := do
  let p ← s.p.get
  pageTest { s with p := .holds (p + 1#9) }

/-- The byte test of the Mode B data run: transfer byte `I` while `I < FB_SIZE`, else close the data
bracket (spec/43_display_full.md R153, R154). -/
def byteTest (s : State) : Res State := do
  let i ← s.i.get
  .ok (s.goto (if i.toNat < s.cfg.fbSize then .b4 else .dclose .full .deselect))

/-- Entry of the Mode B data run: `I` takes 0. -/
def enterFullRun (s : State) : Res State := byteTest { s with i := .holds 0#17 }

/-- The next byte of the Mode B data run. -/
def nextByte (s : State) : Res State := do
  let i ← s.i.get
  byteTest { s with i := .holds (i + 1#17) }

/-- After a transfer of the Mode B data run: a yield when `(I + 1) mod YIELD_PERIOD_B = 0`, else the
next byte (R153). -/
def afterByte (s : State) : Res State := do
  let i ← s.i.get
  if (i.toNat + 1) % s.cfg.yieldPeriodB = 0 then .ok (s.goto .b4Yield) else nextByte s

end Sys2Proof.Machine
end

