-- ==== Sys2Proof/Machine/Connect.lean ====
section
/-! DEFINITION. CONNECT and the reserved request (spec/41_connect.md R120 to R125, spec/30_encoding.md
R82). A step of CONNECT is its acceptance or its next labelled line. -/

namespace Sys2Proof.Machine

/-- One labelled line of CONNECT, then `seq` at the next one (R121). -/
def connectStep (k : ConnectStep) (s : State) : Res State :=
  match k with
  | .k1 => do .ok ((← configureLine .dc s).goto (.connect .k2))
  | .k2 => do .ok ((← configureLine .cs s).goto (.connect .k3))
  | .k3 => do .ok ((← configureLine .rst s).goto (.connect .k4))
  | .k4 => .ok (({ s with busBegun := true }.emit .begin).goto (.connect .k5))
  | .k5 =>
    .ok (({ s with busClkdiv := .known s.cfg.clkdiv }.emit (.clkDiv s.cfg.clkdiv)).goto (.connect .k6))
  | .k6 => do .ok ((← line .rst .high s).goto (.connect .k7))
  | .k7 => do .ok ((← waitMs s.cfg.tSettle s).goto (.connect .k8))
  | .k8 => do .ok ((← line .rst .low s).goto (.connect .k9))
  | .k9 => do .ok ((← waitMs s.cfg.tRstHold s).goto (.connect .k10))
  | .k10 => do .ok ((← line .rst .high s).goto (.connect .k11))
  | .k11 => .ok (complete .connect { s with result := .holds 1#1, connected := true })

/-- The next statement of CONNECT; away from its labels it is a request for CONNECT. -/
def connectBody (s : State) : Res State :=
  match inProgress .connect s, s.seq with
  | true, .connect k => connectStep k s
  | _, _ => accept (.op .connect) (.connect .k1) s

/-- `CONNECT` (R121). -/
def execConnect (s : State) : Host.Outcome State Fault Refusal := settle s (connectBody s)

/-- `RESERVED_OP`: an acceptance step that always ends in a fault, `BUSY` before `RESERVED_OP`
(spec/60_exceptions.md R161, R162, R164). -/
def execReservedOp (s : State) : Host.Outcome State Fault Refusal :=
  settle s (accept .reserved .idle s)

end Sys2Proof.Machine
end

