-- ==== Sys2Proof/Machine/Flags.lean ====
section
/-! DEFINITION. FBTX has no flags register; its conditions are computed where they are tested: the
mismatch of two bytes and the growth of the dirty rectangle (spec/42_display_tracked.md R131, R132),
and `EMPTY` (spec/10_state.md R25). -/

namespace Sys2Proof.Machine

/-- The sentinel bounds of A1: `MINP = MINC = 0xFF`, `MAXP = MAXC = 0x00` (R131). -/
def initBounds (s : State) : State :=
  { s with
    minP := .holds 0xFF#8
    maxP := .holds 0x00#8
    minC := .holds 0xFF#8
    maxC := .holds 0x00#8 }

/-- A mismatch is a difference in any bit: the comparison is of whole bytes (R132). -/
def mismatch (f sh : Byte) : Bool := decide (f ≠ sh)

/-- Unsigned minimum (spec/00_scope.md R8). -/
def minByte (a b : Byte) : Byte := if a ≤ b then a else b

/-- Unsigned maximum (spec/00_scope.md R8). -/
def maxByte (a b : Byte) : Byte := if a ≤ b then b else a

/-- Expand the dirty rectangle to include cell (`p`, `c`) (R132). -/
def expandBounds (p c : Byte) (s : State) : Res State := do
  let minP ← s.minP.get
  let maxP ← s.maxP.get
  let minC ← s.minC.get
  let maxC ← s.maxC.get
  .ok { s with
    minP := .holds (minByte minP p)
    maxP := .holds (maxByte maxP p)
    minC := .holds (minByte minC c)
    maxC := .holds (maxByte maxC c) }

/-- The comparison of one cell and its consequence: "On any mismatch, expand the running dirty rectangle to
include that (page, column) coordinate" (R132). -/
def noteCell (f sh p c : Byte) (s : State) : Res State :=
  if mismatch f sh then expandBounds p c s else .ok s

/-- `EMPTY = (MINP > MAXP)` (spec/10_state.md R25). -/
def emptyFrame (s : State) : Res Bool := do
  let minP ← s.minP.get
  let maxP ← s.maxP.get
  .ok (decide (maxP < minP))

end Sys2Proof.Machine
end

