-- ==== Sys2Proof/Machine/Frames.lean ====
section
/-! DEFINITION. The four bus frames (spec/30_encoding.md R75 to R80). A step of a command frame is the
next statement of its command bracket (spec/40_bus_primitives.md R102); a step of a data frame is its
transfer inside the data bracket (R103), with the loop control that follows it. -/

namespace Sys2Proof.Machine

/-- One statement of the command bracket that sends `b` (spec/40_bus_primitives.md R102). -/
def bracketStatement (st : BracketStep) (b : Byte) (s : State) : Res State :=
  match st with
  | .deselect => line .cs .high s
  | .command => line .dc .low s
  | .select => line .cs .low s
  | .transfer => xfer b s
  | .release => line .cs .high s

/-- Where the sequencer stands after a statement of a bracket. -/
def Seq.afterStatement (m : Mode) (slot : CmdSlot) : BracketStep → Seq
  | .deselect => .cmd m slot .command
  | .command => .cmd m slot .select
  | .select => .cmd m slot .transfer
  | .transfer => .cmd m slot .release
  | .release => Seq.afterBracket m slot

/-- `SENDCMD(b)`, the next statement of the bracket in progress. Outside a command bracket FBTX emits
no command frame (spec/30_encoding.md R75), so there is nothing to run. -/
def sendCommand (b : Byte) (s : State) : Res State :=
  match s.seq with
  | .cmd m slot st => do .ok ((← bracketStatement st b s).goto (Seq.afterStatement m slot st))
  | _ => .error (.refuses .frameOutsideBracket)

/-- `xfer(d)` in the data run in progress, then the loop control of that run. Outside a data bracket
FBTX emits no data frame (spec/30_encoding.md R76). -/
def sendData (d : Byte) (s : State) : Res State :=
  match s.seq with
  | .a8 => do nextColumn (← xfer d s)
  | .b4 => do afterByte (← xfer d s)
  | _ => .error (.refuses .frameOutsideBracket)

/-- `CMD_COLUMNADDR`: the command frame `{0, OP_COLUMNADDR}` (R77). -/
def execCmdColumnaddr (s : State) : Host.Outcome State Fault Refusal :=
  settle s (sendCommand s.cfg.opColumnaddr s)

/-- `CMD_PAGEADDR`: the command frame `{0, OP_PAGEADDR}` (R78). -/
def execCmdPageaddr (s : State) : Host.Outcome State Fault Refusal :=
  settle s (sendCommand s.cfg.opPageaddr s)

/-- `CMD_ARG`: the command frame `{0, a}` (R80). -/
def execCmdArg (a : Byte) (s : State) : Host.Outcome State Fault Refusal :=
  settle s (sendCommand a s)

/-- `DATA`: the data frame `{1, d}` (R76). -/
def execData (d : Byte) (s : State) : Host.Outcome State Fault Refusal := settle s (sendData d s)

end Sys2Proof.Machine
end

