-- ==== Sys2Proof/Machine/Display.lean ====
section
/-! DEFINITION. The two DISPLAY rows (spec/42_display_tracked.md R130 to R139, spec/43_display_full.md
R150 to R155). A step of DISPLAY is its acceptance or its next event statement, with the data
assignments before that statement and the loop control after it (notes/assumptions/8.md). -/

namespace Sys2Proof.Machine

/-- A statement of `DOPEN` (spec/40_bus_primitives.md R103), then the data run. -/
def dopenStep (m : Mode) (st : OpenStep) (s : State) : Res State :=
  match st with
  | .deselect => do .ok ((← line .cs .high s).goto (.dopen m .dataMode))
  | .dataMode => do .ok ((← line .dc .high s).goto (.dopen m .select))
  | .select => do
    let t ← line .cs .low s
    match m with
    | .tracked => enterTrackedRun t
    | .full => enterFullRun t

/-- A statement of `DCLOSE` (spec/40_bus_primitives.md R103): `DC` goes low only with `DC_RESTORE = 1`. -/
def dcloseStep (m : Mode) (st : CloseStep) (s : State) : Res State :=
  match st with
  | .deselect => do
    .ok ((← line .cs .high s).goto (if s.cfg.dcRestore then .dclose m .dcLow else .finish m))
  | .dcLow => do .ok ((← line .dc .low s).goto (.finish m))

/-- The scan of cell (`P`, `C`): compare, expand the rectangle on a mismatch, copy into the shadow
buffer, next column (R132). -/
def scanCell (s : State) : Res State := do
  let p ← s.p.get
  let c ← s.c.get
  let i := s.cfg.idx p.toNat c.toNat
  let f ← fbRead s i
  let sh ← shRead s i
  let t ← noteCell f sh (p.setWidth 8) (c.setWidth 8) s
  .ok { shWrite t i f with c := .holds (c + 1#9) }

/-- The scan of `n` cells of a row. -/
def scanCells : Nat → State → Res State
  | 0, s => .ok s
  | n + 1, s => do scanCells n (← scanCell s)

/-- A2 and A3 for page row `P`: the scan of its `W` cells and the yield; then the next page row, or,
after the last one, A4 or A5 by `EMPTY` (R132, R133). -/
def scanRow (s : State) : Res State := do
  let t ← scanCells s.cfg.w { s with c := .holds 0#9 }
  let u ← yieldPoint t
  let p ← u.p.get
  let v := { u with p := .holds (p + 1#9) }
  if (p + 1#9).toNat < v.cfg.np then .ok (v.goto .scan)
  else do
    let empty ← emptyFrame v
    .ok (v.goto (if empty then .a4 else .cmd .tracked .colOp .deselect))

/-- The next statement of the DISPLAY in progress, by the label at `seq` (R130, R150). -/
def displayStep (s : State) : Res State :=
  match s.seq with
  | .a1 => scanRow { initBounds s with p := .holds 0#9 }
  | .scan => scanRow s
  | .a4 => .ok (complete .display s)
  | .cmd m slot _ => do sendCommand (← slotByte m slot s) s
  | .dopen m st => dopenStep m st s
  | .a8 => do sendData (← windowByte s) s
  | .a9 => do nextPage (← yieldPoint s)
  | .b4 => do sendData (← frameByte s) s
  | .b4Yield => do nextByte (← yieldPoint s)
  | .dclose m st => dcloseStep m st s
  | .finish _ => .ok (complete .display s)
  | .idle | .connect _ => .error (.refuses .otherMode)

/-- A step of the DISPLAY row `i` of mode `m`: the other mode's row does not exist on this FBTX
(spec/10_state.md R21); in progress it is the next statement; otherwise it is a request. -/
def displayBody (m : Mode) (i : Instr) (first : Seq) (s : State) : Res State :=
  if s.cfg.mode = m then
    if inProgress i s then displayStep s else accept (.op .display) first s
  else .error (.refuses .otherMode)

/-- `DISPLAY_TRACKED`: the first label is A1 (R130). -/
def execDisplayTracked (s : State) : Host.Outcome State Fault Refusal :=
  settle s (displayBody .tracked .displayTracked .a1 s)

/-- `DISPLAY_FULL`: the first label is B1 (R150). -/
def execDisplayFull (s : State) : Host.Outcome State Fault Refusal :=
  settle s (displayBody .full .displayFull (.cmd .full .colOp .deselect) s)

end Sys2Proof.Machine
end

