-- ==== Sys2Proof/Machine/Dispatch.lean ====
section
/-! DEFINITION. The dispatch: one arm per constructor of Instr. -/

namespace Sys2Proof.Machine

def exec (i : Instr) (s : State) : Host.Outcome State Fault Refusal :=
  match i with
  -- host requests, format OPREQ2
  | .connect => Sys2Proof.Machine.execConnect s
  | .displayTracked => Sys2Proof.Machine.execDisplayTracked s
  | .displayFull => Sys2Proof.Machine.execDisplayFull s
  | .reservedOp => Sys2Proof.Machine.execReservedOp s
  -- bus frames, format BUS9
  | .cmdColumnaddr => Sys2Proof.Machine.execCmdColumnaddr s
  | .cmdPageaddr => Sys2Proof.Machine.execCmdPageaddr s
  | .cmdArg a => Sys2Proof.Machine.execCmdArg a s
  | .data d => Sys2Proof.Machine.execData d s

end Sys2Proof.Machine
end

