-- ==== Sys2Proof/Machine/Fetch.lean ====
section
/-! DEFINITION. Which instruction the next FBTX step runs, and the host's moves. FBTX fetches no
instructions from memory (spec/20_memory.md R60): its next instruction is the request on the port, the
frame the sequencer is sending, or the operation in progress. -/

namespace Sys2Proof.Machine

/-- The instruction of the next FBTX step: the request presented (R71, which comes before anything
else: notes/assumptions/12.md), the frame being sent, or the operation in progress; none at `IDLE`
with no request. -/
def fetch (s : State) : Res (Option Instr) :=
  if s.opreq = 0#2 then do
    match ← frameInProgress s with
    | some (pos, f) =>
      match decodeFrame s.cfg pos f with
      | .ok i => .ok (some i)
      | .error _ => .error (.refuses .frameOutsideBracket)
    | none => .ok s.seq.owner
  else
    match decodeRequest s.cfg.mode s.opreq with
    | .ok i => .ok (some i)
    | .error _ => .ok none

/-- The new pixel byte of `PIX`: bit `y mod 8` set to `v` (spec/30_encoding.md R83). -/
def setPixel (u : Byte) (bit : Nat) (v : Bool) : Byte :=
  if v then u ||| (1#8 <<< bit) else u &&& ~~~(1#8 <<< bit)

/-- Whether FBTX stands at a wait of a given kind: its next statement is a transfer or a delay, or its
last one was a yield (spec/40_bus_primitives.md R101, R104, R105). -/
def State.waitsAt (s : State) (w : Hang) : Bool :=
  match w with
  | .transfer => match s.seq with
    | .cmd _ _ .transfer | .a8 | .b4 => true
    | _ => false
  | .delay => decide (s.seq = .connect .k7 ∨ s.seq = .connect .k9)
  | .yield => decide (s.trace.getLast? = some .yield)

/-- What a host move comes to: the host's own action, or leave for FBTX to take a step. -/
inductive MoveEffect where
  | hostActs (body : Res State)
  | fbtxRuns

/-- One host move. `s` is the state with the move already taken off the list, `kept` the state with the
move still on it, for one that lasts (R83; notes/assumptions/11.md). -/
def hostMove (m : HostMove) (s : State) : MoveEffect :=
  match m with
  | .present code => .hostActs (.ok { s with opreq := code })
  | .fbw i v => .hostActs (fbWrite s i v)
  | .pix x y v => .hostActs (do
      if s.busy then .error (.raises .fbWriteBusy)
      else do
        let u ← fbRead s (s.cfg.pixelIndex x y)
        fbWrite s (s.cfg.pixelIndex x y) (setPixel u (y % 8) v))
  | .readResult => .hostActs (do
      let _ ← s.result.get
      .ok s)
  | .hold => .hostActs (.ok s)
  | .resume => .fbtxRuns
  | .wait => if s.busy then .fbtxRuns else .hostActs (.ok s)
  | .never w => if s.busy && !s.waitsAt w then .fbtxRuns else .hostActs (.ok s)

/-- The moves left once the head of the list is made: one that lasts stays while `BUSY = 1` (R83). -/
def movesAfter (s : State) (m : HostMove) (rest : List HostMove) : List HostMove :=
  if m.lasts = true ∧ s.busy = true then m :: rest else rest

/-- A state whose next FBTX step sends frame `f`, for the host's questions about single words: the
sequencer at the transfer of the bracket that carries it, the lines as that bracket leaves them, the
bus begun, the registers of a window written as the scan before it has written them (a window of one
cell), and the byte in the register or cell it comes from (notes/assumptions/20.md). -/
def State.atFrame (s : State) (f : Frame) : State :=
  let ready := { s with
    opreq := 0#2
    host := []
    busy := true
    connected := true
    dirCs := .output
    dirDc := .output
    dirRst := .output
    csN := .known .low
    busBegun := true
    minP := .holds 0#8
    maxP := .holds 0#8
    minC := .holds 0#8
    maxC := .holds 0#8
    p := .holds 0#9
    c := .holds 0#9 }
  if f.isData then
    { ready with
      dc := .known .high
      fb := s.fb.write 0 f.byte
      seq := .a8 }
  else
    let command := { ready with dc := .known .low }
    if f.byte = s.cfg.opColumnaddr then { command with seq := .cmd .tracked .colOp .transfer }
    else if f.byte = s.cfg.opPageaddr then { command with seq := .cmd .tracked .pageOp .transfer }
    else { command with
      minC := .holds f.byte
      maxC := .holds f.byte
      seq := .cmd .tracked .colFirst .transfer }

end Sys2Proof.Machine
end

