-- ==== Sys2Proof/Machine/Step.lean ====
section
/-! DEFINITION. One step of the machine, and the placing of one word where the next step finds it. -/

namespace Sys2Proof.Machine

/-- One step of FBTX: the instruction fetched is run; at `IDLE` with no request FBTX waits and all its
state survives (spec/60_exceptions.md R174; notes/assumptions/13.md). -/
def fbtxStep (s : State) : Host.Outcome State Fault Refusal :=
  match fetch s with
  | .error stop => settle s (.error stop)
  | .ok none => settle s (.ok s)
  | .ok (some i) => exec i s

/-- One step: a bad configuration has no step (spec/00_scope.md R7), nor has a standing fault (R160); a
presented request comes first (R71); then the host's next move; then FBTX. DESIGN CHOICE (unsafe),
notes/assumptions/30.md: R160 stops FBTX alone, and the model stops the host's moves with it. DESIGN CHOICE
(unsafe), notes/assumptions/31.md: a host move that raises has no seq label of its own (R27), and `FAULT`
records the one at which FBTX stands. -/
def step (s : State) : Host.Outcome State Fault Refusal :=
  match s.cfg.firstFailure with
  | some check => .refused (.badConfig check)
  | none =>
    match s.fault with
    | some f => .fault f.reason
    | none =>
      if s.opreq = 0#2 then
        match s.host with
        | [] => fbtxStep s
        | m :: rest =>
          match hostMove m { s with host := movesAfter s m rest } with
          | .hostActs body => settle { s with host := movesAfter s m rest } body
          | .fbtxRuns => fbtxStep { s with host := movesAfter s m rest }
      else fbtxStep s

/-- The state whose next step runs the opcode table's word `w`: a request code on the port, or the
frame at its transfer (notes/assumptions/20.md). -/
def State.withFetchWord (s : State) (nbits w : Nat) : State :=
  match formatOfBits nbits with
  | .opreq2 => { s with opreq := BitVec.ofNat 2 w }
  | .bus9 => s.atFrame (BitVec.ofNat 9 w)

end Sys2Proof.Machine
end

