-- ==== Sys2Proof/Safety.lean ====
section
/-! DEFINITION. What claims speak of: the bus as the trace shows it (spec/40_bus_primitives.md R106),
the controller stream, the line discipline (R107, spec/70_reset_and_hazards.md R184, R186), the end of
a run (R192), the dirty rectangle (spec/42_display_tracked.md R141), the traces the operations are
said to emit, and the invariant of the machine. -/

namespace Sys2Proof

/-- The DISPLAY row of a mode (spec/10_state.md R21). -/
def Instr.displayOf : Mode → Instr
  | .tracked => .displayTracked
  | .full => .displayFull

/-- The byte each command frame row carries (spec/30_encoding.md R77, R78, R80). -/
def Instr.commandByte (cfg : Config) : Instr → Option Byte
  | .cmdColumnaddr => some cfg.opColumnaddr
  | .cmdPageaddr => some cfg.opPageaddr
  | .cmdArg a => some a
  | .connect | .displayTracked | .displayFull | .reservedOp | .data _ => none

end Sys2Proof

namespace Sys2Proof.Machine

/-- The lines and the bus as FBTX leaves them (spec/10_state.md R31, R32). -/
structure BusView where
  dirCs : Direction
  dirDc : Direction
  dirRst : Direction
  csN : Unk Level
  dc : Unk Level
  rstN : Unk Level
  begun : Bool
  clkdiv : Unk Nat
deriving DecidableEq, Repr

/-- The event of a statement of the command bracket of `b` (spec/40_bus_primitives.md R102). -/
def BracketStep.event (b : Byte) : BracketStep → Event
  | .deselect => .lvl .cs .high
  | .command => .lvl .dc .low
  | .select => .lvl .cs .low
  | .transfer => .xfer b
  | .release => .lvl .cs .high

/-- The first label of a request's operation (spec/30_encoding.md R71; spec/41_connect.md R121,
spec/42_display_tracked.md R130, spec/43_display_full.md R150). -/
def firstLabel (mode : Mode) (code : OpReq) : Seq :=
  if code = 0b01#2 then .connect .k1
  else match mode with
    | .tracked => .a1
    | .full => .cmd .full .colOp .deselect

/-- Before any event (spec/10_state.md R40). -/
def BusView.initial : BusView := ⟨.input, .input, .input, .unk, .unk, .unk, false, .unk⟩

/-- What one event does to the lines and the bus (spec/10_state.md R33). -/
def BusView.after (v : BusView) : Event → BusView
  | .dir .cs => { v with dirCs := .output }
  | .dir .dc => { v with dirDc := .output }
  | .dir .rst => { v with dirRst := .output }
  | .lvl .cs l => { v with csN := .known l }
  | .lvl .dc l => { v with dc := .known l }
  | .lvl .rst l => { v with rstN := .known l }
  | .begin => { v with begun := true }
  | .clkDiv n => { v with clkdiv := .known n }
  | .xfer _ => v
  | .delay _ => v
  | .yield => v
  | .done _ => v

/-- The bus after a trace. -/
def busAfter (trace : List Event) : BusView := trace.foldl BusView.after .initial

/-- The bus as the state holds it. -/
def State.bus (s : State) : BusView :=
  ⟨s.dirCs, s.dirDc, s.dirRst, s.csN, s.dc, s.rstN, s.busBegun, s.busClkdiv⟩

/-- The frames of a trace that starts at a view of the bus (R106). -/
def streamFrom (v : BusView) : List Event → List Frame
  | [] => []
  | .xfer b :: es => (frameOnLines v.csN v.dc b).toList ++ streamFrom v es
  | e :: es => streamFrom (v.after e) es

/-- The controller stream of a trace: one frame for each transfer, in order (R106). -/
def controllerStream (trace : List Event) : List Frame := streamFrom .initial trace

/-- Whether an event may stand at a view of the bus: a transfer only with the device selected, `DC`
driven, the reset released and the bus begun (R106, R184); a level only on an output (R100); a change
of `DC` only while `CS_N = 1` (R186). -/
def eventAllowed (v : BusView) : Event → Bool
  | .xfer _ =>
    decide (v.csN = .known .low ∧ v.dc ≠ .unk ∧ v.rstN = .known .high ∧ v.begun = true ∧ v.clkdiv ≠ .unk)
  | .lvl .dc _ => decide (v.dirDc = .output ∧ v.csN = .known .high)
  | .lvl .cs _ => decide (v.dirCs = .output)
  | .lvl .rst _ => decide (v.dirRst = .output)
  | _ => true

/-- Whether every event of a trace is allowed where it stands. -/
def disciplinedFrom (v : BusView) : List Event → Bool
  | [] => true
  | e :: es => eventAllowed v e && disciplinedFrom (v.after e) es

/-- The line discipline of a whole trace. -/
def disciplined (trace : List Event) : Bool := disciplinedFrom .initial trace

/-- The reference receiver after a stream of frames (spec/20_memory.md R63). -/
def receiverAfter (cfg : Config) (frames : List Frame) : Rx :=
  frames.foldl (Rx.receive cfg) (.tracking Receiver.initial)

/-- A run is over: `BUSY = 0`, no fault, no host request pending, on the port or among the host's moves
to come, and the last event is the `Done` of the last request (spec/70_reset_and_hazards.md R192). -/
def State.runOver (s : State) : Bool :=
  decide (s.busy = false ∧ s.fault = none ∧ s.opreq = 0#2)
    && s.host.all (fun m => !m.isRequest) && s.trace.getLast?.any Event.isDone

/-- What the host observes (spec/10_state.md R38): `BUSY`, `RESULT`, the lines and the trace. -/
def State.observed (s : State) : Bool × Reg 1 × BusView × List Event :=
  (s.busy, s.result, s.bus, s.trace)

/-- Some number of steps leads from `s` to `t`. -/
def Reaches (s t : State) : Prop := ∃ n, Host.Core.run Sys2Proof.core n s = .next t

/-- At rest, connected, with DISPLAY on the request port and no host move pending. -/
def State.displayRequested (s : State) : Prop :=
  s.fault = none ∧ s.seq = .idle ∧ s.connected = true ∧ s.opreq = 0b10#2 ∧ s.host = []

/-- At rest after an operation: nothing in progress, nothing requested, no fault. -/
def State.atRest (s : State) : Prop :=
  s.fault = none ∧ s.seq = .idle ∧ s.busy = false ∧ s.opreq = 0#2

/-- Cell (`p`, `c`) is changed: its framebuffer byte differs from its shadow byte (`D` of
spec/42_display_tracked.md section 2). -/
def State.changed (s : State) (p c : Nat) : Prop :=
  s.fb.read (s.cfg.idx p c) ≠ s.sh.read (s.cfg.idx p c)

/-- The bounding box of the changed cells (spec/42_display_tracked.md R141): every changed cell lies in
it, and each of its four sides touches one. -/
def State.dirtyRect (s : State) (c0 c1 p0 p1 : Nat) : Prop :=
  (∀ p c, p < s.cfg.np → c < s.cfg.w → s.changed p c → p0 ≤ p ∧ p ≤ p1 ∧ c0 ≤ c ∧ c ≤ c1)
    ∧ (∃ c, c < s.cfg.w ∧ s.changed p0 c) ∧ (∃ c, c < s.cfg.w ∧ s.changed p1 c)
    ∧ (∃ p, p < s.cfg.np ∧ s.changed p c0) ∧ (∃ p, p < s.cfg.np ∧ s.changed p c1)
    ∧ p0 < s.cfg.np ∧ p1 < s.cfg.np ∧ c0 < s.cfg.w ∧ c1 < s.cfg.w

/-- The changed cells are exactly those a predicate picks (`D` of spec/42_display_tracked.md section 2). -/
def State.changedExactly (s : State) (d : Nat → Nat → Prop) : Prop :=
  ∀ p c, p < s.cfg.np → c < s.cfg.w → (s.changed p c ↔ d p c)

/-- The transfer event of framebuffer index `i`. -/
def xferOf (fb : Memory) (i : Nat) : Event := .xfer ((fb.read i).getD 0#8)

/-- The numbers `a, ..., b`, none when `a > b` (spec/00_scope.md R9). -/
def fromTo (a b : Nat) : List Nat := List.range' a (b + 1 - a)

/-- The data run of a Mode A window: its rows, a yield after each (spec/42_display_tracked.md R137). -/
def windowRun (cfg : Config) (fb : Memory) (c0 c1 p0 p1 : Nat) : List Event :=
  (fromTo p0 p1).flatMap fun p => (fromTo c0 c1).map (fun c => xferOf fb (cfg.idx p c)) ++ [.yield]

/-- The trace of a Mode A DISPLAY that sends a window (spec/42_display_tracked.md R130). -/
def trackedTrace (cfg : Config) (fb : Memory) (c0 c1 p0 p1 : Nat) : List Event :=
  List.replicate cfg.np .yield
    ++ Event.setwindow cfg (BitVec.ofNat 8 c0) (BitVec.ofNat 8 c1) (BitVec.ofNat 8 p0) (BitVec.ofNat 8 p1)
    ++ Event.dopen ++ windowRun cfg fb c0 c1 p0 p1 ++ Event.dclose cfg ++ [.done .display]

/-- The trace of a Mode A DISPLAY of an unchanged frame (spec/42_display_tracked.md R133). -/
def idleTrace (cfg : Config) : List Event := List.replicate cfg.np .yield ++ [.done .display]

/-- The Mode B data run: every byte in index order, a yield after every `YIELD_PERIOD_B` bytes
(spec/43_display_full.md R153). -/
def frameRun (cfg : Config) (fb : Memory) : List Event :=
  (List.range cfg.fbSize).flatMap fun i =>
    xferOf fb i :: if (i + 1) % cfg.yieldPeriodB = 0 then [.yield] else []

/-- The trace of a Mode B DISPLAY (spec/43_display_full.md R150). -/
def fullTrace (cfg : Config) (fb : Memory) : List Event :=
  Event.setwindow cfg 0#8 (BitVec.ofNat 8 (cfg.w - 1)) 0#8 (BitVec.ofNat 8 cfg.geom.lastPage)
    ++ Event.dopen ++ frameRun cfg fb ++ Event.dclose cfg ++ [.done .display]

/-- The six command frames of a window (spec/30_encoding.md R79). -/
def windowFrames (cfg : Config) (c0 c1 p0 p1 : Byte) : List Frame :=
  [cfg.opColumnaddr, c0, c1, cfg.opPageaddr, p0, p1].map (Frame.of false)

/-- How many events of a trace are transfers, levels, yields (spec/42_display_tracked.md R145). -/
def eventCounts (es : List Event) : Nat × Nat × Nat :=
  (es.countP Event.isXfer, es.countP Event.isLvl, es.countP Event.isYield)

/-- The trace of CONNECT (spec/41_connect.md R121, R126). -/
def connectTrace (cfg : Config) : List Event :=
  [.dir .dc, .dir .cs, .dir .rst, .begin, .clkDiv cfg.clkdiv, .lvl .rst .high, .delay cfg.tSettle,
   .lvl .rst .low, .delay cfg.tRstHold, .lvl .rst .high, .done .connect]

/-- The place of a label in CONNECT. -/
def ConnectStep.number : ConnectStep → Nat
  | .k1 => 1 | .k2 => 2 | .k3 => 3 | .k4 => 4 | .k5 => 5 | .k6 => 6 | .k7 => 7 | .k8 => 8
  | .k9 => 9 | .k10 => 10 | .k11 => 11

/-- What CONNECT has done when it stands at a label (spec/41_connect.md R121, R125). -/
def State.connectDone (s : State) (n : Nat) : Prop :=
  (1 < n → s.dirDc = .output) ∧ (2 < n → s.dirCs = .output) ∧ (3 < n → s.dirRst = .output)
    ∧ (4 < n → s.busBegun = true) ∧ (5 < n → s.busClkdiv = .known s.cfg.clkdiv)
    ∧ (n = 7 ∨ n = 8 → s.rstN = .known .high) ∧ (n = 9 ∨ n = 10 → s.rstN = .known .low)
    ∧ (n = 11 → s.rstN = .known .high)

/-- What holds once CONNECT has completed (spec/41_connect.md R122, R125). -/
def State.busReady (s : State) : Prop :=
  s.connectDone 11 ∧ s.result = .holds 1#1

/-- The mode a position of `seq` belongs to, any for `IDLE` and CONNECT. -/
def Seq.inMode (q : Seq) (m : Mode) : Prop :=
  match q.owner with
  | some .displayTracked => m = .tracked
  | some .displayFull => m = .full
  | _ => True

/-- The levels of `CS_N` and `DC` at each position of a DISPLAY (spec/40_bus_primitives.md R102, R103). -/
def State.linesAtSeq (s : State) : Prop :=
  match s.seq with
  | .cmd _ _ .command => s.csN = .known .high
  | .cmd _ _ .select => s.csN = .known .high ∧ s.dc = .known .low
  | .cmd _ _ .transfer => s.csN = .known .low ∧ s.dc = .known .low
  | .cmd _ _ .release => s.csN = .known .low ∧ s.dc = .known .low
  | .dopen _ .dataMode => s.csN = .known .high
  | .dopen _ .select => s.csN = .known .high ∧ s.dc = .known .high
  | .a8 => s.csN = .known .low ∧ s.dc = .known .high
  | .a9 => s.csN = .known .low ∧ s.dc = .known .high
  | .b4 => s.csN = .known .low ∧ s.dc = .known .high
  | .b4Yield => s.csN = .known .low ∧ s.dc = .known .high
  | .dclose _ .deselect => s.csN = .known .low ∧ s.dc = .known .high
  | .dclose _ .dcLow => s.csN = .known .high
  | .finish _ => s.csN = .known .high
  | _ => True

/-- The bounds hold a window of the display: `MINC <= MAXC <= W - 1` and `MINP <= MAXP <= NP - 1`
(spec/42_display_tracked.md R134). -/
def State.windowHeld (s : State) (c0 c1 p0 p1 : Byte) : Prop :=
  s.minC = .holds c0 ∧ s.maxC = .holds c1 ∧ s.minP = .holds p0 ∧ s.maxP = .holds p1
    ∧ c0 ≤ c1 ∧ c1.toNat < s.cfg.w ∧ p0 ≤ p1 ∧ p1.toNat < s.cfg.np

/-- The bounds hold the sentinel (spec/42_display_tracked.md R131). -/
def State.sentinelHeld (s : State) : Prop :=
  s.minC = .holds 0xFF#8 ∧ s.maxC = .holds 0x00#8 ∧ s.minP = .holds 0xFF#8 ∧ s.maxP = .holds 0x00#8

/-- What the datapath registers hold at each position of a DISPLAY (spec/10_state.md R23 to R26). -/
def State.registersAtSeq (s : State) : Prop :=
  match s.seq with
  | .scan => (∃ p : BitVec 9, s.p = .holds p ∧ p.toNat < s.cfg.np)
      ∧ (s.sentinelHeld ∨ ∃ c0 c1 p0 p1, s.windowHeld c0 c1 p0 p1)
  | .cmd .tracked _ _ => ∃ c0 c1 p0 p1, s.windowHeld c0 c1 p0 p1
  | .dopen .tracked _ => ∃ c0 c1 p0 p1, s.windowHeld c0 c1 p0 p1
  | .a8 => ∃ c0 c1 p0 p1, s.windowHeld c0 c1 p0 p1 ∧ ∃ p c : BitVec 9, s.p = .holds p ∧ s.c = .holds c
      ∧ p0.toNat ≤ p.toNat ∧ p.toNat ≤ p1.toNat ∧ c0.toNat ≤ c.toNat ∧ c.toNat ≤ c1.toNat
  | .a9 => ∃ c0 c1 p0 p1, s.windowHeld c0 c1 p0 p1 ∧ ∃ p : BitVec 9, s.p = .holds p
      ∧ p0.toNat ≤ p.toNat ∧ p.toNat ≤ p1.toNat
  | .b4 => ∃ i : BitVec 17, s.i = .holds i ∧ i.toNat < s.cfg.fbSize
  | .b4Yield => ∃ i : BitVec 17, s.i = .holds i ∧ i.toNat < s.cfg.fbSize
  | _ => True

/-- The invariant of the machine. -/
structure State.Inv (s : State) : Prop where
  /-- The configuration passes the checks of spec/00_scope.md R7. -/
  configOk : s.cfg.WellFormed
  /-- The framebuffer holds exactly the bytes `0..FB_SIZE-1` (spec/20_memory.md R50). -/
  fbShape : s.fb.addresses = List.range s.cfg.fbSize
  /-- So does the shadow buffer, in Mode A only (spec/10_state.md R35). -/
  shShape : s.sh.addresses = if s.cfg.mode = .tracked then List.range s.cfg.fbSize else []
  /-- "`seq` is `IDLE` exactly when `BUSY = 0`" (spec/10_state.md R27). -/
  busyIff : s.busy = true ↔ s.seq ≠ .idle
  /-- `seq` stands at a label of the mode that was built (spec/10_state.md R21). -/
  modeOk : s.seq.inMode s.cfg.mode
  /-- CONNECT runs only while `CONNECTED = 0`, DISPLAY only while it is 1 (R162). -/
  ownerOk : ∀ i, s.seq.owner = some i → (i = .connect ↔ s.connected = false)
  /-- What CONNECT has done so far. -/
  connectOk : ∀ k, s.seq = .connect k → s.connectDone k.number
  /-- What CONNECT has done once completed. -/
  readyOk : s.connected = true → s.busReady
  /-- The lines stand as the bracket in progress leaves them. -/
  linesOk : s.linesAtSeq
  /-- The datapath registers hold what the operation in progress reads. -/
  registersOk : s.registersAtSeq
  /-- The lines and the bus are what the trace shows (spec/10_state.md R31, R32). -/
  busTraced : busAfter s.trace = s.bus
  /-- The trace keeps the line discipline. -/
  traceOk : disciplined s.trace = true
  /-- The receiver is what the controller stream makes of it (spec/20_memory.md R63). -/
  receiverOk : s.rx = receiverAfter s.cfg (controllerStream s.trace)

end Sys2Proof.Machine
end

