-- ==== Sys2Proof/Certificates/Slice0/Obligations.lean ====
section
/-! DEFINITION. The statements for the provers. Each docstring says which rule of spec/ it formalises; what
rests on a choice of the model names its row of notes/assumptions/. -/

section
open Sys2Proof Sys2Proof.Machine

/-! Construction, reset and the step around an instruction. -/

/-- spec/00_scope.md R7: the named checks, and that a configuration failing one builds no FBTX and has
no step. -/
def Obligations.BadConfigurationHasNoStep : Prop :=
  (∀ cfg : Config, cfg.WellFormed ↔
    (1 ≤ cfg.w ∧ cfg.w ≤ 256)
      ∧ (1 ≤ cfg.np ∧ cfg.np ≤ 256 ∧ cfg.h = 8 * cfg.np)
      ∧ cfg.fbSize = cfg.w * cfg.np
      ∧ (cfg.mode = .full → cfg.geom.lastPage + 1 = cfg.np)
      ∧ 10 ≤ cfg.tRstHold
      ∧ (cfg.mode = .full → 1 ≤ cfg.yieldPeriodB ∧ cfg.yieldPeriodB ≤ cfg.fbSize)
      ∧ (cfg.lineCs ≠ cfg.lineDc ∧ cfg.lineCs ≠ cfg.lineRst ∧ cfg.lineDc ≠ cfg.lineRst))
  ∧ (∀ (cfg : Config) (frame draw : Nat → Byte), ¬ cfg.WellFormed →
      ∃ check, cfg.passes check = false ∧ State.construct cfg frame draw = .error (.badConfig check))
  ∧ (∀ s : State, ¬ s.cfg.WellFormed →
      ∃ check, s.cfg.passes check = false ∧ step s = .refused (.badConfig check))

/-- spec/10_state.md R40: every element after block reset, for every configuration, every shadow draw and
every host framebuffer; no step leaves that state while nothing is requested; and `State.reset` is such a
block reset. -/
def Obligations.BlockResetValues : Prop :=
  (∀ (cfg : Config) (frame draw : Nat → Byte) (s : State), s = State.blockReset cfg frame draw →
    s.cfg = cfg
      ∧ (s.minP = .unwritten ∧ s.maxP = .unwritten ∧ s.minC = .unwritten ∧ s.maxC = .unwritten)
      ∧ (s.p = .unwritten ∧ s.c = .unwritten ∧ s.i = .unwritten)
      ∧ (s.seq = .idle ∧ s.busy = false ∧ s.connected = false ∧ s.result = .unwritten)
      ∧ (s.dirCs = .input ∧ s.dirDc = .input ∧ s.dirRst = .input)
      ∧ (s.csN = .unk ∧ s.dc = .unk ∧ s.rstN = .unk)
      ∧ (s.busBegun = false ∧ s.busClkdiv = .unk)
      ∧ (cfg.mode = .tracked → ∀ x, s.sh.read x = if x < cfg.fbSize then some (draw x) else none)
      ∧ (cfg.mode = .full → s.sh = [])
      ∧ s.trace = [] ∧ s.fault = none
      ∧ (∀ t, step s = .next t → t = s))
  ∧ ∃ (cfg : Config) (frame draw : Nat → Byte), cfg.WellFormed ∧ State.construct cfg frame draw = .ok State.reset

/-- The step runs the decoded instruction: the request presented, the frame in progress, or the operation
in progress; what the step adds around `exec` is only the host move it takes off the list first, or leaves there
while `BUSY = 1` if it lasts until `BUSY = 0`;
with none of the three, FBTX waits and all its state survives (spec/20_memory.md R60, spec/30_encoding.md R71,
R81, spec/60_exceptions.md R174; notes/assumptions/11.md, 12.md, 13.md). -/
def Obligations.StepRunsTheFetchedInstruction : Prop :=
  ∀ (s : State) (i : Instr), s.cfg.WellFormed → s.fault = none →
    (decodeRequest s.cfg.mode s.opreq = .ok i → step s = exec i s)
    ∧ (s.opreq = 0#2 →
        ((∃ pos f, frameInProgress s = .ok (some (pos, f)) ∧ decodeFrame s.cfg pos f = .ok i)
          ∨ (frameInProgress s = .ok none ∧ s.seq.owner = some i)) →
        (s.host = [] → step s = exec i s)
          ∧ (∀ rest, s.host = .resume :: rest → step s = exec i { s with host := rest })
          ∧ (∀ rest, s.host = .wait :: rest → s.busy = true → step s = exec i s)
          ∧ (∀ w rest, s.host = .never w :: rest → s.busy = true → s.waitsAt w = false → step s = exec i s))
    ∧ (s.opreq = 0#2 → s.host = [] → s.seq = .idle → step s = .next s)

/-! Encodings. -/

/-- Words written out from the encodings of spec/opcode_table.json decode to the rows they stand for
(spec/30_encoding.md R70, R76 to R80, R85). The model's choices, not the spec's: a frame given to
`decodeTableWord` has no position, by which alone R81 tells an argument, and is read as a window command where
its byte is one (notes/assumptions/19.md); `decodeTableWord` reads 0b10 as DISPLAY_TRACKED since
`Config.standard` is built in Mode A (notes/assumptions/2.md, 19.md); the bytes 0x21 and 0x22 are general
knowledge (notes/assumptions/21.md, PRESUMED). -/
def Obligations.WrittenWordsDecode : Prop :=
  decodeTableWord 8 0b01 = some .connect
  ∧ decodeTableWord 8 0b10 = some .displayTracked
  ∧ decodeTableWord 8 0b11 = some .reservedOp
  ∧ decodeTableWord 8 0b00 = none
  ∧ decodeTableWord 16 0b000100001 = some .cmdColumnaddr
  ∧ decodeTableWord 16 0b000100010 = some .cmdPageaddr
  ∧ decodeTableWord 16 0b000000111 = some (.cmdArg 0x07#8)
  ∧ decodeTableWord 16 0b110101011 = some (.data 0xAB#8)
  ∧ decodeWord { Config.standard with mode := .full } .opreq2 0b10 = .ok .displayFull
  ∧ decodeFrame Config.standard .argument 0b000100001#9 = .ok (.cmdArg 0x21#8)

/-- Decoding what the encoder writes gives the instruction back, for every well-formed instruction, every
operand value and every configuration that keeps the two command bytes apart; and a code or frame that
decodes is the one the encoder writes (spec/30_encoding.md R70, R74 to R81). -/
def Obligations.DecodeEncodeAgree : Prop :=
  (∀ (cfg : Config) (i : Instr), cfg.opColumnaddr ≠ cfg.opPageaddr → i.WellFormed cfg →
    decode cfg (encode cfg i) = .ok i)
  ∧ (∀ (cfg : Config) (code : OpReq) (i : Instr), decodeRequest cfg.mode code = .ok i →
      encode cfg i = .request code ∧ i.WellFormed cfg)
  ∧ (∀ (cfg : Config) (pos : FramePos) (f : Frame) (i : Instr), decodeFrame cfg pos f = .ok i →
      ∃ pos', encode cfg i = .frame pos' f ∧ (f.isData = false → pos' = pos))

/-! Acceptance. -/

/-- spec/60_exceptions.md R162 and spec/30_encoding.md R71: the acceptance step, its checks in their order,
and what it does when none of them raises. -/
def Obligations.AcceptanceStep : Prop :=
  ∀ s : State, s.cfg.WellFormed → s.fault = none → s.opreq ≠ 0#2 →
    step s = .next (
      if s.busy = true then s.raise .busy
      else if s.opreq = 0b11#2 then s.raise .reservedOp
      else if s.opreq = 0b01#2 ∧ s.connected = true then s.raise .reconnect
      else if s.opreq = 0b10#2 ∧ s.connected = false then s.raise .notConnected
      else { s with busy := true, seq := firstLabel s.cfg.mode s.opreq, opreq := 0#2 })

/-- CONNECT and the two DISPLAY rows complete as acceptances: with the request presented, `BUSY = 0` and
the `CONNECTED` each needs (spec/30_encoding.md R71, spec/60_exceptions.md R162). -/
def Obligations.OperationsAreAccepted : Prop :=
  (∀ s : State, s.fault = none → s.opreq = 0b01#2 → s.busy = false → s.connected = false →
    exec .connect s = .next { s with busy := true, seq := .connect .k1, opreq := 0#2 })
  ∧ (∀ s : State, s.fault = none → s.opreq = 0b10#2 → s.busy = false → s.connected = true →
      s.cfg.mode = .tracked →
      exec .displayTracked s = .next { s with busy := true, seq := .a1, opreq := 0#2 })
  ∧ (∀ s : State, s.fault = none → s.opreq = 0b10#2 → s.busy = false → s.connected = true →
      s.cfg.mode = .full →
      exec .displayFull s = .next { s with busy := true, seq := .cmd .full .colOp .deselect, opreq := 0#2 })

/-- RESERVED_OP raises its fault on every acceptance step, `BUSY` before `RESERVED_OP`; raising IS its
effect (spec/30_encoding.md R82, spec/60_exceptions.md R161, R164). -/
def Obligations.ReservedOpRaises : Prop :=
  ∀ s : State, s.fault = none →
    (s.busy = false → exec .reservedOp s = .next { s with fault := some ⟨.reservedOp, s.seq⟩ })
    ∧ (s.busy = true → exec .reservedOp s = .next { s with fault := some ⟨.busy, s.seq⟩ })

/-! Faults. -/

/-- spec/60_exceptions.md R160 and R165: a step that raises changes nothing but `FAULT`, which takes the
reason and the `seq` label; a faulted machine takes no step and its state ends no run. The host's move list
is not FBTX's: the move just made is off it. Where a host move raises, the label recorded is the model's choice:
notes/assumptions/31.md. -/
def Obligations.RaisingChangesOnlyFault : Prop :=
  (∀ (s t : State) (f : FaultRecord), step s = .next t → t.fault = some f →
    s.fault = none ∧ f.label = s.seq ∧ t = { s with fault := some f, host := t.host })
  ∧ (∀ (s t : State) (i : Instr) (f : FaultRecord), exec i s = .next t → t.fault = some f →
      s.fault = none ∧ f.label = s.seq ∧ t = { s with fault := some f })
  ∧ (∀ (s : State) (f : FaultRecord), s.fault = some f → s.runOver = false)

/-- spec/60_exceptions.md R167: a faulted FBTX takes no step, so no second fault can occur. That the
host's moves still on the list stop with it is the model's choice: notes/assumptions/30.md. -/
def Obligations.FaultedTakesNoStep : Prop :=
  ∀ (s : State) (f : FaultRecord), s.fault = some f →
    (s.cfg.WellFormed → step s = .fault f.reason) ∧ (∀ i, exec i s = .fault f.reason)

/-- Each read of a datapath register that no rule has written raises `UNWRITTEN_REG` (spec/60_exceptions.md
R166): the four bounds in their brackets, `P` and `C` in the Mode A data run, `I` in that of Mode B. -/
def Obligations.UnwrittenRegisterFaults : Prop :=
  ∀ s : State, s.cfg.WellFormed → s.fault = none → s.opreq = 0#2 → s.host = [] →
    (∀ st, s.seq = .cmd .tracked .colFirst st → s.minC = .unwritten → step s = .next (s.raise .unwrittenReg))
    ∧ (∀ st, s.seq = .cmd .tracked .colLast st → s.maxC = .unwritten → step s = .next (s.raise .unwrittenReg))
    ∧ (∀ st, s.seq = .cmd .tracked .pageFirst st → s.minP = .unwritten → step s = .next (s.raise .unwrittenReg))
    ∧ (∀ st, s.seq = .cmd .tracked .pageLast st → s.maxP = .unwritten → step s = .next (s.raise .unwrittenReg))
    ∧ (s.seq = .a8 → s.p = .unwritten → step s = .next (s.raise .unwrittenReg))
    ∧ (∀ p, s.seq = .a8 → s.p = .holds p → s.c = .unwritten → step s = .next (s.raise .unwrittenReg))
    ∧ (s.seq = .b4 → s.i = .unwritten → step s = .next (s.raise .unwrittenReg))

/-- spec/40_bus_primitives.md R100: `line(L) <- v` on an output drives that line only and appends its event;
on a line that is no output it raises `LINE_NOT_OUTPUT`. -/
def Obligations.LineWrite : Prop :=
  ∀ (l : Line) (v : Level) (s : State),
    (s.dir l = .output → ∃ t, line l v s = .ok t ∧ t.lvl l = .known v ∧ (∀ l', l' ≠ l → t.lvl l' = s.lvl l')
      ∧ t.trace = s.trace ++ [.lvl l v]
      ∧ t = { s with csN := t.csN, dc := t.dc, rstN := t.rstN, trace := t.trace })
    ∧ (s.dir l ≠ .output → line l v s = .error (.raises .lineNotOutput))

/-- The guards of the bus primitives as the frame rows meet them: a level write of a bracket on a line that
is no output raises `LINE_NOT_OUTPUT`, a transfer before `Begin` raises `BUS_NOT_BEGUN`
(spec/40_bus_primitives.md R100, R101). -/
def Obligations.GuardsOfTheBus : Prop :=
  ∀ (s : State) (i : Instr) (b d : Byte) (m : Mode) (slot : CmdSlot), s.fault = none →
    (i.commandByte s.cfg = some b →
      (s.dirCs = .input → (s.seq = .cmd m slot .deselect ∨ s.seq = .cmd m slot .select
          ∨ s.seq = .cmd m slot .release) → exec i s = .next (s.raise .lineNotOutput))
        ∧ (s.dirDc = .input → s.seq = .cmd m slot .command → exec i s = .next (s.raise .lineNotOutput))
        ∧ (s.busBegun = false → s.seq = .cmd m slot .transfer → exec i s = .next (s.raise .busNotBegun)))
    ∧ (s.busBegun = false → (s.seq = .a8 ∨ s.seq = .b4) → exec (.data d) s = .next (s.raise .busNotBegun))

/-- Where the rows stop: a frame row outside its bracket (spec/30_encoding.md R75, R76; notes/assumptions/15.md)
and the DISPLAY row of the mode this FBTX does not have (spec/10_state.md R21; notes/assumptions/23.md). -/
def Obligations.RowsWithNoMeaningHere : Prop :=
  (∀ (s : State) (i : Instr) (b : Byte), s.fault = none → i.commandByte s.cfg = some b →
    (∀ m slot st, s.seq ≠ .cmd m slot st) → exec i s = .refused .frameOutsideBracket)
  ∧ (∀ (s : State) (d : Byte), s.fault = none → s.seq ≠ .a8 → s.seq ≠ .b4 →
      exec (.data d) s = .refused .frameOutsideBracket)
  ∧ (∀ (s : State) (m : Mode), s.fault = none → s.cfg.mode ≠ m →
      exec (Instr.displayOf m) s = .refused .otherMode)

/-! CONNECT. -/

/-- spec/41_connect.md R121: one step for each labelled line of CONNECT, and all it does. -/
def Obligations.ConnectLabels : Prop :=
  ∀ s : State, s.fault = none → s.opreq = 0#2 →
    (s.seq = .connect .k1 → exec .connect s
      = .next { s with dirDc := .output, trace := s.trace ++ [.dir .dc], seq := .connect .k2 })
    ∧ (s.seq = .connect .k2 → exec .connect s
      = .next { s with dirCs := .output, trace := s.trace ++ [.dir .cs], seq := .connect .k3 })
    ∧ (s.seq = .connect .k3 → exec .connect s
      = .next { s with dirRst := .output, trace := s.trace ++ [.dir .rst], seq := .connect .k4 })
    ∧ (s.seq = .connect .k4 → exec .connect s
      = .next { s with busBegun := true, trace := s.trace ++ [.begin], seq := .connect .k5 })
    ∧ (s.seq = .connect .k5 → exec .connect s
      = .next { s with
          busClkdiv := .known s.cfg.clkdiv, trace := s.trace ++ [.clkDiv s.cfg.clkdiv], seq := .connect .k6 })
    ∧ (s.seq = .connect .k6 → s.dirRst = .output → exec .connect s
      = .next { s with rstN := .known .high, trace := s.trace ++ [.lvl .rst .high], seq := .connect .k7 })
    ∧ (s.seq = .connect .k7 → exec .connect s
      = .next { s with trace := s.trace ++ [.delay s.cfg.tSettle], seq := .connect .k8 })
    ∧ (s.seq = .connect .k8 → s.dirRst = .output → exec .connect s
      = .next { s with rstN := .known .low, trace := s.trace ++ [.lvl .rst .low], seq := .connect .k9 })
    ∧ (s.seq = .connect .k9 → exec .connect s
      = .next { s with trace := s.trace ++ [.delay s.cfg.tRstHold], seq := .connect .k10 })
    ∧ (s.seq = .connect .k10 → s.dirRst = .output → exec .connect s
      = .next { s with rstN := .known .high, trace := s.trace ++ [.lvl .rst .high], seq := .connect .k11 })
    ∧ (s.seq = .connect .k11 → exec .connect s
      = .next { s with
          result := .holds 1#1, connected := true, trace := s.trace ++ [.done .connect], busy := false,
          seq := .idle })

/-- spec/41_connect.md R122: CONNECT always completes with `RESULT = 1`; here from every state at rest where
it has not completed before, with its trace, its end state and everything it leaves alone. -/
def Obligations.ConnectCompletes : Prop :=
  ∀ s : State, s.cfg.WellFormed → s.fault = none → s.busy = false → s.connected = false → s.opreq = 0b01#2 →
    s.host = [] →
    Host.Core.run Sys2Proof.core 12 s = .next { s with
      dirCs := .output, dirDc := .output, dirRst := .output, busBegun := true,
      busClkdiv := .known s.cfg.clkdiv, rstN := .known .high, result := .holds 1#1, connected := true,
      busy := false, seq := .idle, opreq := 0#2, trace := s.trace ++ connectTrace s.cfg }

/-- spec/41_connect.md R126: CONNECT from block reset with `T_SETTLE = 1` and `T_RST_HOLD = 10`. -/
def Obligations.ConnectFromBlockReset : Prop :=
  ∀ (cfg : Config) (frame draw : Nat → Byte), cfg.WellFormed → cfg.tSettle = 1 → cfg.tRstHold = 10 →
    ∃ t, Host.Core.run Sys2Proof.core 12 { State.blockReset cfg frame draw with opreq := 0b01#2 } = .next t
      ∧ t.trace = [.dir .dc, .dir .cs, .dir .rst, .begin, .clkDiv cfg.clkdiv, .lvl .rst .high, .delay 1,
          .lvl .rst .low, .delay 10, .lvl .rst .high, .done .connect]
      ∧ t.result = .holds 1#1 ∧ t.connected = true ∧ t.busy = false ∧ t.busBegun = true
      ∧ t.busClkdiv = .known cfg.clkdiv ∧ t.rstN = .known .high ∧ t.csN = .unk ∧ t.dc = .unk
      ∧ t.dirCs = .output ∧ t.dirDc = .output ∧ t.dirRst = .output
      ∧ controllerStream t.trace = []

/-- spec/10_state.md R29: `CONNECTED` is set at the last step of CONNECT and nothing clears it; the same step
is the only one that writes `RESULT`, as 1 (R30). -/
def Obligations.ConnectedOnlyByConnect : Prop :=
  ∀ s t : State, step s = .next t →
    (t.connected ≠ s.connected → s.seq = .connect .k11 ∧ t.connected = true)
    ∧ (t.result ≠ s.result → s.seq = .connect .k11 ∧ t.result = .holds 1#1)

/-- spec/10_state.md R32: only CONNECT writes `BUS_BEGUN` and `BUS_CLKDIV`, and only it sets directions and
drives `RST` (spec/41_connect.md R121, R125). -/
def Obligations.BusSetUpOnlyByConnect : Prop :=
  ∀ s t : State, step s = .next t →
    (t.busBegun ≠ s.busBegun → s.seq = .connect .k4 ∧ t.busBegun = true)
    ∧ (t.busClkdiv ≠ s.busClkdiv → s.seq = .connect .k5 ∧ t.busClkdiv = .known s.cfg.clkdiv)
    ∧ (t.dirDc ≠ s.dirDc → s.seq = .connect .k1 ∧ t.dirDc = .output)
    ∧ (t.dirCs ≠ s.dirCs → s.seq = .connect .k2 ∧ t.dirCs = .output)
    ∧ (t.dirRst ≠ s.dirRst → s.seq = .connect .k3 ∧ t.dirRst = .output)
    ∧ (t.rstN ≠ s.rstN → (s.seq = .connect .k6 ∨ s.seq = .connect .k10) ∧ t.rstN = .known .high
        ∨ s.seq = .connect .k8 ∧ t.rstN = .known .low)

/-! Bus frames. -/

/-- spec/40_bus_primitives.md R102: the three command frame rows. Each step is one statement of the command
bracket, appends its event, and changes only the level it drives, the trace, `seq` and, at the transfer, what
the receiver has heard. -/
def Obligations.CommandBracketStatements : Prop :=
  ∀ (s : State) (i : Instr) (b : Byte) (m : Mode) (slot : CmdSlot) (st : BracketStep), s.fault = none →
    i.commandByte s.cfg = some b → s.seq = .cmd m slot st → s.dirCs = .output → s.dirDc = .output →
    s.busBegun = true →
    exec i s = .next { s with
      csN := (match st with
        | .deselect | .release => .known .high
        | .select => .known .low
        | .command | .transfer => s.csN)
      dc := (match st with
        | .command => .known .low
        | .deselect | .select | .transfer | .release => s.dc)
      rx := (match st with
        | .transfer => s.rx.hear s.cfg s.csN s.dc b
        | .deselect | .command | .select | .release => s.rx)
      trace := s.trace ++ [st.event b]
      seq := Seq.afterStatement m slot st }

/-- spec/30_encoding.md R75: a command bracket of a DISPLAY, run to its end, sends exactly one command frame,
with the five events of `SENDCMD`, and leaves `CS_N = 1` and `DC = 0`. -/
def Obligations.CommandBracketSendsOneFrame : Prop :=
  ∀ (s : State) (m : Mode) (slot : CmdSlot) (b : Byte), s.Inv → s.fault = none → s.opreq = 0#2 → s.host = [] →
    s.seq = .cmd m slot .deselect → slotByte m slot s = .ok b →
    ∃ t, Host.Core.run Sys2Proof.core 5 s = .next t
      ∧ t.trace = s.trace ++ Event.sendcmd b
      ∧ controllerStream t.trace = controllerStream s.trace ++ [Frame.of false b]
      ∧ t.csN = .known .high ∧ t.dc = .known .low ∧ t.seq = Seq.afterBracket m slot

/-- The data frame row in the Mode A run: one transfer of `d`, then the next column or the end of the row
(spec/40_bus_primitives.md R101, spec/42_display_tracked.md R137; notes/assumptions/8.md, 9.md). -/
def Obligations.DataFrameInTrackedRun : Prop :=
  ∀ (s : State) (d : Byte) (c : BitVec 9) (maxC : Byte), s.fault = none → s.seq = .a8 → s.busBegun = true →
    s.c = .holds c → s.maxC = .holds maxC →
    exec (.data d) s = .next { s with
      trace := s.trace ++ [.xfer d], rx := s.rx.hear s.cfg s.csN s.dc d, c := .holds (c + 1#9),
      seq := if (c + 1#9).toNat ≤ maxC.toNat then .a8 else .a9 }

/-- The data frame row in the Mode B run: one transfer of `d`, then the yield when `(I + 1) mod YIELD_PERIOD_B`
is 0, else the next byte or the end of the run (spec/40_bus_primitives.md R101, spec/43_display_full.md R153;
notes/assumptions/8.md, 9.md). -/
def Obligations.DataFrameInFullRun : Prop :=
  ∀ (s : State) (d : Byte) (i : BitVec 17), s.fault = none → s.seq = .b4 → s.busBegun = true →
    s.i = .holds i →
    exec (.data d) s = .next (
      let sent : State := { s with trace := s.trace ++ [.xfer d], rx := s.rx.hear s.cfg s.csN s.dc d }
      if (i.toNat + 1) % s.cfg.yieldPeriodB = 0 then { sent with seq := .b4Yield }
      else { sent with
        i := .holds (i + 1#17)
        seq := if (i + 1#17).toNat < s.cfg.fbSize then .b4 else .dclose .full .deselect })

/-- spec/20_memory.md R65: the data phase sends framebuffer bytes, never shadow bytes: the data row a step
runs carries the byte the framebuffer holds at cell (`P`, `C`), and in Mode B at index `I`. -/
def Obligations.DataRunSendsFramebufferBytes : Prop :=
  ∀ s : State, s.Inv → s.fault = none → s.opreq = 0#2 → s.host = [] →
    (s.seq = .a8 → ∃ p c d, s.p = .holds p ∧ s.c = .holds c
      ∧ s.fb.read (s.cfg.idx p.toNat c.toNat) = some d ∧ step s = exec (.data d) s)
    ∧ (s.seq = .b4 → ∃ i d, s.i = .holds i ∧ s.fb.read i.toNat = some d ∧ step s = exec (.data d) s)

/-! DISPLAY, statement by statement. -/

/-- spec/40_bus_primitives.md R103: the statements of `DOPEN` and `DCLOSE` in both modes, with the entry of
the data run (spec/42_display_tracked.md R137, spec/43_display_full.md R153). That the last statement of `DOPEN`
also enters the run (`P`, `C` or `I`, and `seq` at A8 or B4), and that the branch on `DC_RESTORE` is taken in the
step of the statement before it, is the model's step granularity: notes/assumptions/8.md. -/
def Obligations.DataBracketStatements : Prop :=
  ∀ (s : State) (m : Mode), s.fault = none → s.opreq = 0#2 → s.cfg.mode = m → s.dirCs = .output →
    s.dirDc = .output →
    (s.seq = .dopen m .deselect → exec (Instr.displayOf m) s
      = .next { s with csN := .known .high, trace := s.trace ++ [.lvl .cs .high], seq := .dopen m .dataMode })
    ∧ (s.seq = .dopen m .dataMode → exec (Instr.displayOf m) s
      = .next { s with dc := .known .high, trace := s.trace ++ [.lvl .dc .high], seq := .dopen m .select })
    ∧ (∀ c0 c1 p0 p1, s.seq = .dopen m .select → m = .tracked → s.windowHeld c0 c1 p0 p1 →
      exec (Instr.displayOf m) s = .next { s with
        csN := .known .low, trace := s.trace ++ [.lvl .cs .low], p := .holds (p0.setWidth 9),
        c := .holds (c0.setWidth 9), seq := .a8 })
    ∧ (s.seq = .dopen m .select → m = .full → 0 < s.cfg.fbSize → exec (Instr.displayOf m) s
      = .next { s with
          csN := .known .low, trace := s.trace ++ [.lvl .cs .low], i := .holds 0#17, seq := .b4 })
    ∧ (s.seq = .dclose m .deselect → exec (Instr.displayOf m) s
      = .next { s with
          csN := .known .high, trace := s.trace ++ [.lvl .cs .high],
          seq := if s.cfg.dcRestore = true then .dclose m .dcLow else .finish m })
    ∧ (s.seq = .dclose m .dcLow → exec (Instr.displayOf m) s
      = .next { s with dc := .known .low, trace := s.trace ++ [.lvl .dc .low], seq := .finish m })

/-- spec/42_display_tracked.md R131: A1 sets the four bounds to the sentinel, afresh at the start of every
Mode A DISPLAY: the step at A1 is the scan step of page row 0 from those bounds. -/
def Obligations.BoundsStartAtTheSentinel : Prop :=
  ∀ s : State, s.Inv → s.fault = none → s.opreq = 0#2 → s.seq = .a1 →
    ∃ t, exec .displayTracked s = .next t
      ∧ exec .displayTracked { s with
          minP := .holds 0xFF#8, maxP := .holds 0x00#8, minC := .holds 0xFF#8, maxC := .holds 0x00#8,
          p := .holds 0#9, seq := .scan } = .next t

/-- A step of the scan (spec/42_display_tracked.md R132; spec/10_state.md R25; notes/assumptions/8.md, 9.md): page row
`p` is copied into the shadow buffer and nothing else is written there; the bounds take in exactly the changed
cells of the row; one yield; then the next row, or the empty check after the last one. -/
def Obligations.ScanOfOnePageRow : Prop :=
  ∀ (s : State) (p : BitVec 9) (minP maxP minC maxC : Byte), s.Inv → s.fault = none → s.opreq = 0#2 →
    s.seq = .scan → s.p = .holds p → s.minP = .holds minP → s.maxP = .holds maxP → s.minC = .holds minC →
    s.maxC = .holds maxC →
    ∃ t, exec .displayTracked s = .next t
      ∧ (∀ c, c < s.cfg.w → t.sh.read (s.cfg.idx p.toNat c) = s.fb.read (s.cfg.idx p.toNat c))
      ∧ (∀ a, (∀ c, c < s.cfg.w → a ≠ s.cfg.idx p.toNat c) → t.sh.read a = s.sh.read a)
      ∧ (∀ a, t.fb.read a = s.fb.read a)
      ∧ t.trace = s.trace ++ [.yield] ∧ t.p = .holds (p + 1#9) ∧ t.csN = s.csN ∧ t.dc = s.dc
      ∧ ((∀ c, c < s.cfg.w → ¬ s.changed p.toNat c) →
          t.minP = .holds minP ∧ t.maxP = .holds maxP ∧ t.minC = .holds minC ∧ t.maxC = .holds maxC)
      ∧ (∀ a b, a < s.cfg.w → b < s.cfg.w → s.changed p.toNat a → s.changed p.toNat b →
          (∀ c, c < s.cfg.w → s.changed p.toNat c → a ≤ c ∧ c ≤ b) →
          t.minP = .holds (BitVec.ofNat 8 (min minP.toNat p.toNat))
            ∧ t.maxP = .holds (BitVec.ofNat 8 (max maxP.toNat p.toNat))
            ∧ t.minC = .holds (BitVec.ofNat 8 (min minC.toNat a))
            ∧ t.maxC = .holds (BitVec.ofNat 8 (max maxC.toNat b)))
      ∧ (p.toNat + 1 < s.cfg.np → t.seq = .scan)
      ∧ (p.toNat + 1 = s.cfg.np → ∀ low high, t.minP = .holds low → t.maxP = .holds high →
          t.seq = if high < low then .a4 else .cmd .tracked .colOp .deselect)

/-- The yields of the data runs (spec/40_bus_primitives.md R104, spec/42_display_tracked.md R137,
spec/43_display_full.md R153; notes/assumptions/8.md, 9.md): A9, then the next row of the window or its end; the yield
of B4, then the next byte or the end of the frame. -/
def Obligations.YieldsOfTheDataRuns : Prop :=
  (∀ (s : State) (p : BitVec 9) (c0 c1 p0 p1 : Byte), s.fault = none → s.opreq = 0#2 →
    s.cfg.mode = .tracked → s.seq = .a9 → s.windowHeld c0 c1 p0 p1 → s.p = .holds p →
    exec .displayTracked s = .next (
      if (p + 1#9).toNat ≤ p1.toNat then { s with
        trace := s.trace ++ [.yield], p := .holds (p + 1#9), c := .holds (c0.setWidth 9), seq := .a8 }
      else { s with trace := s.trace ++ [.yield], p := .holds (p + 1#9), seq := .dclose .tracked .deselect }))
  ∧ (∀ (s : State) (i : BitVec 17), s.fault = none → s.opreq = 0#2 → s.cfg.mode = .full → s.seq = .b4Yield →
    s.i = .holds i →
    exec .displayFull s = .next { s with
      trace := s.trace ++ [.yield], i := .holds (i + 1#17),
      seq := if (i + 1#17).toNat < s.cfg.fbSize then .b4 else .dclose .full .deselect })

/-- spec/30_encoding.md R72, spec/42_display_tracked.md R139, spec/43_display_full.md R155: the last step of every
operation emits `Done(op)`, sets `BUSY` to 0 and `seq` to `IDLE`; that of DISPLAY changes nothing else. -/
def Obligations.CompletionStep : Prop :=
  (∀ (s : State) (m : Mode), s.fault = none → s.opreq = 0#2 → s.cfg.mode = m →
    (s.seq = .finish m ∨ (m = .tracked ∧ s.seq = .a4)) →
    exec (Instr.displayOf m) s
      = .next { s with trace := s.trace ++ [.done .display], busy := false, seq := .idle })
  ∧ (∀ s : State, s.fault = none → s.opreq = 0#2 → s.seq = .connect .k11 →
    ∃ t, exec .connect s = .next t ∧ t.trace = s.trace ++ [.done .connect] ∧ t.busy = false ∧ t.seq = .idle)

/-! Frames: what a row leaves alone, in every state. -/

/-- The frame of CONNECT: no datapath register, no memory, neither `CS_N` nor `DC` (spec/41_connect.md R121,
R124). -/
def Obligations.FrameOfConnect : Prop :=
  ∀ s t : State, exec .connect s = .next t →
    (∀ a, t.fb.read a = s.fb.read a) ∧ (∀ a, t.sh.read a = s.sh.read a)
    ∧ t.csN = s.csN ∧ t.dc = s.dc
    ∧ t = { s with
        seq := t.seq, busy := t.busy, connected := t.connected, result := t.result, dirCs := t.dirCs,
        dirDc := t.dirDc, dirRst := t.dirRst, rstN := t.rstN, busBegun := t.busBegun, busClkdiv := t.busClkdiv,
        trace := t.trace, opreq := t.opreq, fault := t.fault }

/-- spec/42_display_tracked.md R130, "State written": Mode A's DISPLAY writes the bounds, `P`, `C`, the shadow
buffer, `CS_N`, `DC`, `BUSY`, `seq` and the trace, and nothing else of FBTX but `FAULT`; it takes the request off
the port and the receiver hears its transfers. It stores to the shadow buffer only in the scan, and there only to
the cells of the page row it scans. -/
def Obligations.FrameOfDisplayTracked : Prop :=
  ∀ s t : State, exec .displayTracked s = .next t →
    (∀ a, t.fb.read a = s.fb.read a)
    ∧ (s.seq ≠ .a1 → s.seq ≠ .scan → ∀ a, t.sh.read a = s.sh.read a)
    ∧ (s.seq = .a1 → ∀ a, (∀ c, c < s.cfg.w → a ≠ s.cfg.idx 0 c) → t.sh.read a = s.sh.read a)
    ∧ (∀ p, s.seq = .scan → s.p = .holds p →
        ∀ a, (∀ c, c < s.cfg.w → a ≠ s.cfg.idx p.toNat c) → t.sh.read a = s.sh.read a)
    ∧ t = { s with
        minP := t.minP, maxP := t.maxP, minC := t.minC, maxC := t.maxC, p := t.p, c := t.c, sh := t.sh,
        csN := t.csN, dc := t.dc, busy := t.busy, seq := t.seq, trace := t.trace, opreq := t.opreq, rx := t.rx,
        fault := t.fault }

/-- spec/43_display_full.md R150, "State written": Mode B's DISPLAY writes `I`, `CS_N`, `DC`, `BUSY`, `seq` and the
trace, and nothing else of FBTX but `FAULT`; it takes the request off the port and the receiver hears its
transfers. It stores to no memory. -/
def Obligations.FrameOfDisplayFull : Prop :=
  ∀ s t : State, exec .displayFull s = .next t →
    (∀ a, t.fb.read a = s.fb.read a) ∧ (∀ a, t.sh.read a = s.sh.read a)
    ∧ t = { s with
        i := t.i, csN := t.csN, dc := t.dc, busy := t.busy, seq := t.seq, trace := t.trace, opreq := t.opreq,
        rx := t.rx, fault := t.fault }

/-- The frame of the frame rows and of RESERVED_OP: a command frame changes only the two levels of its bracket,
the trace and `seq`; a data frame only the loop counter of its run (`C` in Mode A, `I` in Mode B), the trace and
`seq`; RESERVED_OP only `FAULT`. The receiver hears the transfers. None stores to memory
(spec/40_bus_primitives.md R101, R102, spec/42_display_tracked.md R137, spec/43_display_full.md R153). -/
def Obligations.FrameOfTheOtherRows : Prop :=
  (∀ (s t : State) (i : Instr) (b : Byte), i.commandByte s.cfg = some b → exec i s = .next t →
    (∀ a, t.fb.read a = s.fb.read a) ∧ (∀ a, t.sh.read a = s.sh.read a)
    ∧ t = { s with
        csN := t.csN, dc := t.dc, trace := t.trace, seq := t.seq, rx := t.rx, fault := t.fault })
  ∧ (∀ (s t : State) (d : Byte), exec (.data d) s = .next t →
    (∀ a, t.fb.read a = s.fb.read a) ∧ (∀ a, t.sh.read a = s.sh.read a)
    ∧ (s.seq ≠ .a8 → t.c = s.c) ∧ (s.seq ≠ .b4 → t.i = s.i)
    ∧ t = { s with
        c := t.c, i := t.i, trace := t.trace, seq := t.seq, rx := t.rx, fault := t.fault })
  ∧ (∀ s t : State, exec .reservedOp s = .next t → t = { s with fault := t.fault })

/-! Whole-machine rules. -/

/-- spec/10_state.md R20: the configuration never changes. -/
def Obligations.ConfigurationNeverChanges : Prop :=
  ∀ s t : State, step s = .next t → t.cfg = s.cfg

/-- Ownership (spec/20_memory.md R51, R52, R62, spec/10_state.md R35, R38): FBTX cannot write the framebuffer; the host
can neither write the shadow buffer nor read it, so that with another shadow buffer it observes the same, makes the
same moves, and each comes to the same but for that buffer. A step that changes a framebuffer byte is a host move with
`BUSY = 0`, and FBTX's half of the state is untouched. -/
def Obligations.MemoryOwnership : Prop :=
  (∀ (s t : State) (i : Instr), exec i s = .next t → ∀ a, t.fb.read a = s.fb.read a)
  ∧ (∀ (s t : State) (m : HostMove) (body : Res State), hostMove m s = .hostActs body → body = .ok t →
      ∀ a, t.sh.read a = s.sh.read a)
  ∧ (∀ (s : State) (m : HostMove) (rest : List HostMove) (x : Memory),
      ({ s with sh := x } : State).observed = s.observed
      ∧ movesAfter { s with sh := x } m rest = movesAfter s m rest
      ∧ (hostMove m s = .fbtxRuns → hostMove m { s with sh := x } = .fbtxRuns)
      ∧ (∀ body, hostMove m s = .hostActs body →
          hostMove m { s with sh := x } = .hostActs (body.map fun t => { t with sh := x })))
  ∧ (∀ (s t : State) (a : Nat), step s = .next t → t.fb.read a ≠ s.fb.read a →
      s.busy = false ∧ a < s.cfg.fbSize ∧ t = { s with fb := t.fb, host := t.host })

/-- `seq` is `IDLE` exactly when `BUSY = 0`: kept by every step, and true at block reset (spec/10_state.md R27,
R28, R40). -/
def Obligations.BusyWhileAnOperationRuns : Prop :=
  (∀ s t : State, (s.busy = true ↔ s.seq ≠ .idle) → step s = .next t → (t.busy = true ↔ t.seq ≠ .idle))
  ∧ (∀ (cfg : Config) (frame draw : Nat → Byte),
      (State.blockReset cfg frame draw).busy = true ↔ (State.blockReset cfg frame draw).seq ≠ .idle)

/-- The trace only grows, by at most one event a step, and a host move adds none (spec/10_state.md R33, R34;
spec/60_exceptions.md R160). -/
def Obligations.TraceGrowsByOneEvent : Prop :=
  (∀ s t : State, step s = .next t → ∃ es : List Event, t.trace = s.trace ++ es ∧ es.length ≤ 1)
  ∧ (∀ (s t : State) (m : HostMove) (body : Res State), hostMove m s = .hostActs body → body = .ok t →
      t.trace = s.trace)

/-- spec/20_memory.md R63: "Claims about the trace do not depend on it": no step of the machine reads the
reference receiver. Two states that differ only in it answer alike, and still differ only in it. -/
def Obligations.ReceiverIsNeverRead : Prop :=
  ∀ (s : State) (r : Rx),
    (∀ t, step s = .next t → ∃ r', step { s with rx := r } = .next { t with rx := r' })
    ∧ (∀ f, step s = .fault f → step { s with rx := r } = .fault f)
    ∧ (∀ q, step s = .refused q → step { s with rx := r } = .refused q)

/-- Every memory of the state keeps its canonical form (notes/assumptions/27.md): the framebuffer, the shadow
buffer, and the receiver's RAM while the receiver is in its model. -/
def Obligations.MemoriesStayCanonical : Prop :=
  ∀ s t : State, step s = .next t → s.fb.wf = true → s.sh.wf = true →
    (∀ r, s.rx = .tracking r → r.ram.wf = true) →
    t.fb.wf = true ∧ t.sh.wf = true ∧ (∀ r, t.rx = .tracking r → r.ram.wf = true)

/-- The invariant of the machine holds at block reset of every well-formed configuration, whatever the shadow draw
and the host's framebuffer, and so at `State.reset` (spec/10_state.md R40). -/
def Obligations.InvariantAtBlockReset : Prop :=
  (∀ (cfg : Config) (frame draw : Nat → Byte), cfg.WellFormed → (State.blockReset cfg frame draw).Inv)
  ∧ State.reset.Inv

/-- Every step from a state that meets the invariant leads to one that does: full buffers, `seq` and `BUSY`, the
mode, what CONNECT has done, the lines of each bracket, the registers of each loop, and the trace with its line
discipline and its receiver (spec/10_state.md R21, R23 to R35, spec/40_bus_primitives.md R102 to R107,
spec/70_reset_and_hazards.md R184, R186). -/
def Obligations.InvariantKeptByEveryStep : Prop :=
  ∀ s t : State, s.Inv → step s = .next t → t.Inv

/-- Under the invariant the operation in progress raises nothing and always has its next step: the guards 6 to 9
of spec/60_exceptions.md R161 are out of its reach (spec/41_connect.md R123, spec/42_display_tracked.md R136,
spec/43_display_full.md R156). -/
def Obligations.OperationsRaiseNothing : Prop :=
  ∀ s : State, s.Inv → s.fault = none → s.opreq = 0#2 → s.host = [] →
    ∃ t, step s = .next t ∧ t.fault = none ∧ t.opreq = 0#2 ∧ t.host = []

/-- Under the invariant every fault of a step comes from the environment: a request that breaks a check of R162, or
a host move (spec/60_exceptions.md R161; for a host index out of range and an unwritten `RESULT`,
notes/assumptions/17.md, 18.md). -/
def Obligations.FaultsComeFromTheHost : Prop :=
  ∀ (s t : State) (f : FaultRecord), s.Inv → s.fault = none → step s = .next t → t.fault = some f →
    (s.opreq ≠ 0#2 ∧ (f.reason = .busy ∨ f.reason = .reservedOp ∨ f.reason = .notConnected
        ∨ f.reason = .reconnect))
    ∨ (s.opreq = 0#2 ∧ ∃ m rest, s.host = m :: rest
        ∧ ((f.reason = .fbWriteBusy ∧ s.busy = true ∧ ((∃ i v, m = .fbw i v) ∨ ∃ x y v, m = .pix x y v))
          ∨ (f.reason = .fbRange ∧ s.busy = false
              ∧ ((∃ i v, m = .fbw i v ∧ s.cfg.fbSize ≤ i)
                ∨ ∃ x y v, m = .pix x y v ∧ s.cfg.fbSize ≤ s.cfg.pixelIndex x y))
          ∨ (f.reason = .unwrittenReg ∧ m = .readResult ∧ s.result = .unwritten)))

/-- An operation in progress, left to run, completes: from every state that meets the invariant, wherever it
stands, the machine comes to rest (spec/70_reset_and_hazards.md R191: the environment cooperates;
notes/assumptions/11.md). -/
def Obligations.OperationsTerminate : Prop :=
  ∀ s : State, s.Inv → s.fault = none → s.opreq = 0#2 → s.host = [] →
    ∃ t, Reaches s t ∧ t.atRest ∧ t.host = [] ∧ (s.busy = true → t.connected = true)

/-- spec/40_bus_primitives.md R106: in every trace FBTX produces, every transfer has `CS_N = 0` and `DC` driven, with
`RST` high and the bus begun; the controller stream has one frame for each transfer, in order, with its byte and the
level of `DC`, and none for any other event. And `DC` is driven only while `CS_N = 1`
(spec/70_reset_and_hazards.md R186). The premise is the invariant, which holds at block reset and is kept by every
step. -/
def Obligations.TransfersOnlyWhileSelected : Prop :=
  ∀ (s : State) (before after : List Event), s.Inv →
    (∀ b, s.trace = before ++ Event.xfer b :: after →
      (busAfter before).csN = .known .low ∧ ((busAfter before).dc = .known .low ∨ (busAfter before).dc = .known .high)
        ∧ (busAfter before).rstN = .known .high ∧ (busAfter before).begun = true
        ∧ controllerStream (before ++ [Event.xfer b])
            = controllerStream before ++ [Frame.of (decide ((busAfter before).dc = .known .high)) b])
    ∧ (∀ e, s.trace = before ++ e :: after → e.isXfer = false →
        controllerStream (before ++ [e]) = controllerStream before)
    ∧ (∀ v, s.trace = before ++ Event.lvl .dc v :: after → (busAfter before).csN = .known .high)

/-- FBTX never sends a reversed window or a coordinate outside the buffer (spec/30_encoding.md R77, R78, R82,
spec/42_display_tracked.md R134, spec/43_display_full.md R151): what its brackets send in either mode. -/
def Obligations.WindowBytesInRange : Prop :=
  ∀ (s : State) (m : Mode) (slot : CmdSlot) (st : BracketStep), s.Inv → s.seq = .cmd m slot st →
    ∃ c0 c1 p0 p1, slotByte m .colFirst s = .ok c0 ∧ slotByte m .colLast s = .ok c1
      ∧ slotByte m .pageFirst s = .ok p0 ∧ slotByte m .pageLast s = .ok p1
      ∧ slotByte m .colOp s = .ok s.cfg.opColumnaddr ∧ slotByte m .pageOp s = .ok s.cfg.opPageaddr
      ∧ c0.toNat ≤ c1.toNat ∧ c1.toNat ≤ s.cfg.w - 1 ∧ p0.toNat ≤ p1.toNat ∧ p1.toNat ≤ s.cfg.np - 1
      ∧ (m = .full → c0 = 0#8 ∧ c1.toNat = s.cfg.w - 1 ∧ p0 = 0#8 ∧ p1.toNat = s.cfg.geom.lastPage)

/-! The host. -/

/-- The host's framebuffer write (spec/20_memory.md R51, R57, spec/30_encoding.md R83): while `BUSY = 1` it raises
`FB_WRITE_BUSY`; else, at an index of the framebuffer, it stores its byte there and nowhere else. The label that fault
records is the model's choice: notes/assumptions/31.md. -/
def Obligations.HostWritesOneByte : Prop :=
  ∀ (s : State) (x : Nat) (v : Byte) (rest : List HostMove), s.cfg.WellFormed → s.fault = none →
    s.opreq = 0#2 → s.host = .fbw x v :: rest →
    (s.busy = true → step s = .next { s with fault := some ⟨.fbWriteBusy, s.seq⟩, host := rest })
    ∧ (s.busy = false → x < s.cfg.fbSize → ∃ t, step s = .next t ∧ t.fb.read x = some v
        ∧ (∀ y, y ≠ x → t.fb.read y = s.fb.read y) ∧ t = { s with fb := t.fb, host := rest })

/-- The pixel write of spec/30_encoding.md R83 with the packing of spec/00_scope.md R11 and spec/20_memory.md R54: it
sets bit `y mod 8` of the byte at `idx(y div 8, x)`, and no other bit of any byte. -/
def Obligations.PixelWriteSetsOneBit : Prop :=
  ∀ (s : State) (x y : Nat) (v : Bool) (u : Byte) (rest : List HostMove), s.cfg.WellFormed →
    s.fault = none → s.opreq = 0#2 → s.busy = false → s.host = .pix x y v :: rest → x < s.cfg.w →
    y < s.cfg.h → s.fb.read (y / 8 * s.cfg.w + x) = some u →
    ∃ t u', step s = .next t ∧ t.fb.read (y / 8 * s.cfg.w + x) = some u'
      ∧ (∀ k, k < 8 → u'.getLsbD k = if k = y % 8 then v else u.getLsbD k)
      ∧ (∀ a, a ≠ y / 8 * s.cfg.w + x → t.fb.read a = s.fb.read a)
      ∧ t = { s with fb := t.fb, host := rest }

/-! Runs of DISPLAY. The premise `State.Inv` holds at block reset and is kept by every step; a state with a request
presented and `BUSY = 0` is one the host can always make (spec/30_encoding.md R71). -/

/-- spec/42_display_tracked.md R133: a Mode A DISPLAY of an unchanged frame emits `NP` yields and `Done(DISPLAY)`, no
level and no transfer, and `CS_N` and `DC` keep what they held. -/
def Obligations.UnchangedFrameSendsNothing : Prop :=
  ∀ s : State, s.Inv → s.displayRequested → s.cfg.mode = .tracked → s.changedExactly (fun _ _ => False) →
    ∃ t, Reaches s t ∧ t.atRest ∧ t.trace = s.trace ++ idleTrace s.cfg ∧ t.csN = s.csN ∧ t.dc = s.dc
      ∧ controllerStream t.trace = controllerStream s.trace

/-- spec/42_display_tracked.md R130: a Mode A DISPLAY of a changed frame. Its whole trace: `NP` yields, the six command
brackets of the window, one data bracket with the window's framebuffer bytes and a yield after each row, `Done`. -/
def Obligations.TrackedDisplayTrace : Prop :=
  ∀ (s : State) (c0 c1 p0 p1 : Nat), s.Inv → s.displayRequested → s.cfg.mode = .tracked →
    s.dirtyRect c0 c1 p0 p1 →
    ∃ t, Reaches s t ∧ t.atRest ∧ t.trace = s.trace ++ trackedTrace s.cfg s.fb c0 c1 p0 p1
      ∧ t.csN = .known .high ∧ t.dc = (if s.cfg.dcRestore = true then .known .low else .known .high)
      ∧ t.minC = .holds (BitVec.ofNat 8 c0) ∧ t.maxC = .holds (BitVec.ofNat 8 c1)
      ∧ t.minP = .holds (BitVec.ofNat 8 p0) ∧ t.maxP = .holds (BitVec.ofNat 8 p1)
      ∧ t.connected = true ∧ t.result = s.result ∧ t.cfg = s.cfg ∧ ∀ a, t.fb.read a = s.fb.read a

/-- spec/42_display_tracked.md R141: the bounds after a Mode A DISPLAY are the least box around the changed cells, and
the sentinel with `MINP > MAXP` when there is none. -/
def Obligations.BoundsAreTheLeastBox : Prop :=
  ∀ s : State, s.Inv → s.displayRequested → s.cfg.mode = .tracked →
    ∃ t, Reaches s t ∧ t.atRest
      ∧ (s.changedExactly (fun _ _ => False) →
          t.minP = .holds 0xFF#8 ∧ t.maxP = .holds 0x00#8 ∧ t.minC = .holds 0xFF#8 ∧ t.maxC = .holds 0x00#8)
      ∧ (¬ s.changedExactly (fun _ _ => False) →
          ∃ c0 c1 p0 p1 : Byte, t.minC = .holds c0 ∧ t.maxC = .holds c1 ∧ t.minP = .holds p0 ∧ t.maxP = .holds p1
            ∧ s.dirtyRect c0.toNat c1.toNat p0.toNat p1.toNat)

/-- spec/42_display_tracked.md R140: after any Mode A DISPLAY the shadow buffer equals the framebuffer at every index,
whether or not anything had changed. -/
def Obligations.ShadowConverges : Prop :=
  ∀ s : State, s.Inv → s.displayRequested → s.cfg.mode = .tracked →
    ∃ t, Reaches s t ∧ t.atRest
      ∧ ∀ x, x < s.cfg.fbSize → t.sh.read x = s.fb.read x ∧ t.fb.read x = s.fb.read x

/-- spec/42_display_tracked.md R142: one changed cell gives that cell's window and one data byte. -/
def Obligations.OneCellWindow : Prop :=
  ∀ (s : State) (p c : Nat), s.Inv → s.displayRequested → s.cfg.mode = .tracked → p < s.cfg.np →
    c < s.cfg.w → s.changedExactly (fun p' c' => p' = p ∧ c' = c) →
    ∃ t d, Reaches s t ∧ t.atRest ∧ s.fb.read (s.cfg.idx p c) = some d
      ∧ controllerStream t.trace = controllerStream s.trace
          ++ windowFrames s.cfg (BitVec.ofNat 8 c) (BitVec.ofNat 8 c) (BitVec.ofNat 8 p) (BitVec.ofNat 8 p)
          ++ [Frame.of true d]
      ∧ t.minP = .holds (BitVec.ofNat 8 p) ∧ t.maxP = .holds (BitVec.ofNat 8 p)
      ∧ t.minC = .holds (BitVec.ofNat 8 c) ∧ t.maxC = .holds (BitVec.ofNat 8 c)

/-- spec/42_display_tracked.md R143: two changed cells give the coordinate-wise least and greatest, and every byte of
that box, changed or not. -/
def Obligations.TwoCellsWindow : Prop :=
  ∀ (s : State) (p1 c1 p2 c2 : Nat), s.Inv → s.displayRequested → s.cfg.mode = .tracked →
    p1 < s.cfg.np → c1 < s.cfg.w → p2 < s.cfg.np → c2 < s.cfg.w →
    s.changedExactly (fun p c => (p = p1 ∧ c = c1) ∨ (p = p2 ∧ c = c2)) →
    ∃ t, Reaches s t ∧ t.atRest
      ∧ t.trace = s.trace ++ trackedTrace s.cfg s.fb (min c1 c2) (max c1 c2) (min p1 p2) (max p1 p2)
      ∧ t.minC = .holds (BitVec.ofNat 8 (min c1 c2)) ∧ t.maxC = .holds (BitVec.ofNat 8 (max c1 c2))
      ∧ t.minP = .holds (BitVec.ofNat 8 (min p1 p2)) ∧ t.maxP = .holds (BitVec.ofNat 8 (max p1 p2))

/-- spec/42_display_tracked.md R144: a second Mode A DISPLAY with no framebuffer write between emits no command and no
data byte: `NP` yields and `Done(DISPLAY)`. -/
def Obligations.SecondDisplaySendsNothing : Prop :=
  ∀ s : State, s.Inv → s.displayRequested → s.cfg.mode = .tracked →
    ∃ t u, Reaches s t ∧ t.atRest ∧ Reaches { t with opreq := 0b10#2 } u ∧ u.atRest
      ∧ u.trace = t.trace ++ idleTrace s.cfg

/-- spec/43_display_full.md R150: the whole trace of a Mode B DISPLAY, whatever the framebuffer holds and whatever was
sent before. -/
def Obligations.FullDisplayTrace : Prop :=
  ∀ s : State, s.Inv → s.displayRequested → s.cfg.mode = .full →
    ∃ t, Reaches s t ∧ t.atRest ∧ t.trace = s.trace ++ fullTrace s.cfg s.fb
      ∧ t.csN = .known .high ∧ t.dc = (if s.cfg.dcRestore = true then .known .low else .known .high)
      ∧ t.connected = true ∧ t.result = s.result ∧ t.cfg = s.cfg ∧ ∀ a, t.fb.read a = s.fb.read a

/-- spec/42_display_tracked.md R145 and spec/43_display_full.md R157: the transfers, levels and yields of a DISPLAY
in each mode. -/
def Obligations.DisplayCost : Prop :=
  (∀ (s : State) (c0 c1 p0 p1 : Nat), s.Inv → s.displayRequested → s.cfg.mode = .tracked →
    s.dirtyRect c0 c1 p0 p1 →
    ∃ t es, Reaches s t ∧ t.atRest ∧ t.trace = s.trace ++ es
      ∧ eventCounts es = (6 + (c1 - c0 + 1) * (p1 - p0 + 1), 6 * 4 + 3 + 1 + s.cfg.dcRestore.toNat,
          s.cfg.np + (p1 - p0 + 1)))
  ∧ (∀ s : State, s.Inv → s.displayRequested → s.cfg.mode = .tracked → s.changedExactly (fun _ _ => False) →
    ∃ t es, Reaches s t ∧ t.atRest ∧ t.trace = s.trace ++ es ∧ eventCounts es = (0, 0, s.cfg.np))
  ∧ (∀ s : State, s.Inv → s.displayRequested → s.cfg.mode = .full →
    ∃ t es, Reaches s t ∧ t.atRest ∧ t.trace = s.trace ++ es
      ∧ eventCounts es = (6 + s.cfg.fbSize, 6 * 4 + 3 + 1 + s.cfg.dcRestore.toNat,
          s.cfg.fbSize / s.cfg.yieldPeriodB))

/-- spec/20_memory.md R64: after a DISPLAY the reference receiver's RAM holds the framebuffer's bytes in the window that
was sent, and outside it what it held before; in Mode B the window is the whole frame. The two command bytes differ and
the receiver starts between sequences (notes/assumptions/16.md). -/
def Obligations.ReceiverShowsTheWindow : Prop :=
  ∀ (s : State) (r : Receiver), s.Inv → s.displayRequested → s.cfg.opColumnaddr ≠ s.cfg.opPageaddr →
    s.rx = .tracking r → r.ps = .idle →
    (s.cfg.mode = .tracked → ∀ c0 c1 p0 p1 : Byte, s.dirtyRect c0.toNat c1.toNat p0.toNat p1.toNat →
      ∃ t, Reaches s t ∧ t.atRest ∧ ∀ p c : Byte,
        (p0 ≤ p ∧ p ≤ p1 ∧ c0 ≤ c ∧ c ≤ c1 →
          t.rx.ramByte p c = s.fb.read (s.cfg.idx p.toNat c.toNat) ∧ (t.rx.ramByte p c).isSome = true)
        ∧ (¬ (p0 ≤ p ∧ p ≤ p1 ∧ c0 ≤ c ∧ c ≤ c1) → t.rx.ramByte p c = s.rx.ramByte p c))
    ∧ (s.cfg.mode = .full →
      ∃ t, Reaches s t ∧ t.atRest ∧ ∀ p c : Byte,
        (p.toNat < s.cfg.np ∧ c.toNat < s.cfg.w →
          t.rx.ramByte p c = s.fb.read (s.cfg.idx p.toNat c.toNat) ∧ (t.rx.ramByte p c).isSome = true)
        ∧ (¬ (p.toNat < s.cfg.np ∧ c.toNat < s.cfg.w) → t.rx.ramByte p c = s.rx.ramByte p c))

/-- A host program that connects and displays (spec/30_encoding.md R83, spec/70_reset_and_hazards.md R182, R192), placed
in the field `host` as its list of moves (notes/assumptions/20.md), in an environment that lets each operation run to
its end (notes/assumptions/11.md): from
block reset of any well-formed configuration, whatever the draws, `CONNECT` then `DISPLAY` come to the end of a run with
`RESULT = 1` and no fault; a `DISPLAY` before any `CONNECT` ends in `NOT_CONNECTED`, with no event, and no end of a run. -/
def Obligations.HostProgramsRun : Prop :=
  ∀ (cfg : Config) (frame draw : Nat → Byte), cfg.WellFormed →
    (∃ t es, Reaches { State.blockReset cfg frame draw with host := HostStmt.program [.connect, .display] } t
      ∧ t.runOver = true ∧ t.result = .holds 1#1
      ∧ t.trace = connectTrace cfg ++ es ++ [.done .display])
    ∧ (∃ t, Reaches { State.blockReset cfg frame draw with host := HostStmt.program [.display, .connect] } t
      ∧ t.fault = some ⟨.notConnected, .idle⟩ ∧ t.trace = [] ∧ t.busy = false ∧ t.connected = false
      ∧ t.runOver = false ∧ step t = .fault .notConnected)

/-! Environments in which a wait never ends. -/

/-- spec/40_bus_primitives.md R101: "A stalled or disconnected bus is not a fault": the step of the transfer does not
complete, FBTX has no further step, and the operation never finishes; so too for a host that never resumes FBTX after
a yield and a delay that never ends (spec/60_exceptions.md R175, spec/70_reset_and_hazards.md R191). At such a wait the
machine stays as it is for ever. With a bus that completes no transfer no frame is ever sent and nothing is raised,
and from any command bracket not yet past its transfer the operation is never over. The form of such an environment is
the model's: notes/assumptions/11.md. -/
def Obligations.StalledWaitsNeverEnd : Prop :=
  (∀ (s : State) (w : Hang) (rest : List HostMove) (n : Nat), s.cfg.WellFormed → s.fault = none → s.opreq = 0#2 →
    s.busy = true → s.host = .never w :: rest → s.waitsAt w = true →
    Host.Core.run Sys2Proof.core n s = .next s)
  ∧ (∀ (s : State) (n : Nat), s.Inv → s.fault = none → s.opreq = 0#2 → s.host = [.never .transfer] →
    ∃ t, Host.Core.run Sys2Proof.core n s = .next t ∧ t.fault = none
      ∧ controllerStream t.trace = controllerStream s.trace
      ∧ (∀ m slot st, s.seq = .cmd m slot st → st ≠ .release → t.busy = true))

end
end

