-- ==== Sys2Proof/Laws/Encoding.lean ====
section
/-! SUPPORT. The parts of a frame, and the checks a well-formed configuration passes. -/

namespace Sys2Proof.Machine

theorem frame_byte (d : Bool) (b : Byte) : Frame.byte (Frame.of d b) = b := by
  unfold Frame.byte Frame.of
  apply BitVec.eq_of_getLsbD_eq
  intro i hi
  simp only [BitVec.getLsbD_setWidth, BitVec.getLsbD_append, hi, decide_true, Bool.true_and, if_true]
theorem frame_isData (d : Bool) (b : Byte) : Frame.isData (Frame.of d b) = d := by
  unfold Frame.isData Frame.of
  rw [BitVec.getLsbD_append]
  simp


theorem wf_facts {cfg : Config} (h : cfg.WellFormed) : 1 ≤ cfg.w ∧ cfg.w ≤ 256 ∧ 1 ≤ cfg.np ∧ cfg.np ≤ 256 ∧
    cfg.h = 8 * cfg.np ∧ cfg.fbSize = cfg.w * cfg.np
   ∧ (cfg.mode = .full → cfg.geom.lastPage + 1 = cfg.np) ∧ 10 ≤ cfg.tRstHold ∧
       (cfg.mode = .full → 1 ≤ cfg.yieldPeriodB ∧ cfg.yieldPeriodB ≤ cfg.fbSize) := by
  have h' : ∀ k ∈ ConfigCheck.all, cfg.passes k = true := by
    intro k hk
    have := List.find?_eq_none.1 h k hk
    simpa using this
  have a := h' .chkWidth (by decide)
  have b := h' .chkPages (by decide)
  have c := h' .chkSize (by decide)
  have d := h' .chkGeomFull (by decide)
  have e := h' .chkHold (by decide)
  have f := h' .chkYield (by decide)
  simp only [Config.passes, decide_eq_true_eq] at a b c d e f
  exact ⟨a.1, a.2, b.1, b.2.1, b.2.2, c, d, e, f⟩

end Sys2Proof.Machine
end

