-- ==== Sys2Proof/Laws/Memory.lean ====
section
/-! SUPPORT. The laws of memory: read after write, the canonical form every operation keeps, the
addresses a memory lists, and that equal reads make equal memories. -/

namespace Sys2Proof.Machine

theorem Memory.read_write_same (m : Memory) (x : Nat) (v : Byte) : (m.write x v).read x = some v := by
  induction m with
  | nil => simp [Memory.write, Memory.read]
  | cons cell m ih =>
    obtain ⟨a, w⟩ := cell
    simp only [Memory.write]
    split
    · simp [Memory.read]
    · split
      · simp [Memory.read]
      · next hne => simp [Memory.read, hne, ih]

theorem Memory.read_write_other (m : Memory) {x y : Nat} (h : y ≠ x) (v : Byte) :
    (m.write x v).read y = m.read y := by
  induction m with
  | nil => simp [Memory.write, Memory.read, h]
  | cons cell m ih =>
    obtain ⟨a, w⟩ := cell
    simp only [Memory.write]
    split
    · simp [Memory.read, h]
    · split
      · next hx => subst hx; simp [Memory.read, h]
      · simp [Memory.read, ih]

theorem risingAbove_mono {lo lo' : Nat} (h : lo' ≤ lo) :
    ∀ {as : List Nat}, risingAbove lo as = true → risingAbove lo' as = true
  | [], _ => rfl
  | a :: as, hr => by
    simp only [risingAbove, Bool.and_eq_true, decide_eq_true_eq] at hr ⊢
    exact ⟨by omega, hr.2⟩

theorem rising_of_risingAbove {lo : Nat} : ∀ {as : List Nat}, risingAbove lo as = true → rising as = true
  | [], _ => rfl
  | a :: as, hr => by
    simp only [risingAbove, Bool.and_eq_true] at hr
    exact hr.2

theorem lt_of_mem_risingAbove {lo x : Nat} :
    ∀ {as : List Nat}, risingAbove lo as = true → x ∈ as → lo < x
  | [], _, hx => by simp at hx
  | a :: as, hr, hx => by
    simp only [risingAbove, Bool.and_eq_true, decide_eq_true_eq] at hr
    rcases List.mem_cons.1 hx with rfl | hx
    · exact hr.1
    · exact Nat.lt_trans hr.1 (lt_of_mem_risingAbove hr.2 hx)

theorem Memory.risingAbove_write {lo x : Nat} (m : Memory) (v : Byte) (hx : lo < x)
    (h : risingAbove lo m.addresses = true) : risingAbove lo (m.write x v).addresses = true := by
  induction m generalizing lo with
  | nil => simpa [Memory.write, Memory.addresses, risingAbove] using hx
  | cons cell m ih =>
    obtain ⟨a, w⟩ := cell
    simp only [Memory.addresses, List.map_cons, risingAbove, Bool.and_eq_true, decide_eq_true_eq] at h
    simp only [Memory.write]
    split
    · next hxa => simp [Memory.addresses, risingAbove, hx, hxa, h.2]
    · split
      · next hxa => subst hxa; simpa [Memory.addresses, risingAbove, hx] using h.2
      · next h1 h2 =>
        simpa [Memory.addresses, risingAbove, h.1] using ih (by omega) h.2

/-- A write keeps the canonical form. -/
theorem Memory.wf_write (m : Memory) (x : Nat) (v : Byte) (h : m.wf = true) : (m.write x v).wf = true := by
  cases m with
  | nil => rfl
  | cons cell m =>
    obtain ⟨a, w⟩ := cell
    simp only [Memory.wf, Memory.addresses, List.map_cons, rising] at h
    simp only [Memory.write]
    split
    · next hxa => simp [Memory.wf, Memory.addresses, rising, risingAbove, hxa, h]
    · split
      · next hxa => subst hxa; simpa [Memory.wf, Memory.addresses, rising] using h
      · next h1 h2 =>
        simpa [Memory.wf, Memory.addresses, rising] using Memory.risingAbove_write m v (by omega) h

/-- A write to a listed address of a canonical memory lists no new address. -/
theorem Memory.addresses_write_listed (m : Memory) (x : Nat) (v : Byte) (hwf : m.wf = true)
    (hx : x ∈ m.addresses) : (m.write x v).addresses = m.addresses := by
  induction m with
  | nil => simp [Memory.addresses] at hx
  | cons cell m ih =>
    obtain ⟨a, w⟩ := cell
    simp only [Memory.wf, Memory.addresses, List.map_cons, rising] at hwf
    have hmem : x = a ∨ x ∈ Memory.addresses m := by simpa [Memory.addresses] using hx
    simp only [Memory.write]
    rcases hmem with rfl | hmem
    · simp [Memory.addresses]
    · have hlt : a < x := lt_of_mem_risingAbove hwf hmem
      rw [if_neg (by omega), if_neg (by omega)]
      have := ih (rising_of_risingAbove hwf) hmem
      simp only [Memory.addresses, List.map_cons] at this ⊢
      rw [this]

theorem Memory.read_isSome_iff (m : Memory) (x : Nat) : (m.read x).isSome = true ↔ x ∈ m.addresses := by
  induction m with
  | nil => simp [Memory.read, Memory.addresses]
  | cons cell m ih =>
    obtain ⟨a, w⟩ := cell
    simp only [Memory.read, Memory.addresses, List.map_cons, List.mem_cons]
    split
    · next h => simp [h]
    · next h => simpa [h, Memory.addresses] using ih

/-- A listed address reads as some byte. -/
theorem Memory.read_of_mem {m : Memory} {x : Nat} (h : x ∈ m.addresses) : ∃ v, m.read x = some v :=
  Option.isSome_iff_exists.1 ((m.read_isSome_iff x).2 h)

theorem risingAbove_range' (lo n : Nat) : ∀ start, lo < start → risingAbove lo (List.range' start n) = true := by
  induction n generalizing lo with
  | zero => intro start _; rfl
  | succ n ih =>
    intro start h
    simp only [List.range'_succ, risingAbove, h, decide_true, Bool.true_and]
    exact ih start (start + 1) (by omega)

theorem rising_range (n : Nat) : rising (List.range n) = true := by
  rw [List.range_eq_range']
  cases n with
  | zero => rfl
  | succ n => exact risingAbove_range' 0 n 1 (by omega)

@[simp] theorem Memory.addresses_fill (n : Nat) (f : Nat → Byte) :
    (Memory.fill n f).addresses = List.range n := by
  simp [Memory.fill, Memory.addresses, List.range_eq_range', Function.comp_def]

/-- A memory that lists `0..n-1` is canonical. -/
theorem Memory.wf_of_addresses {m : Memory} {n : Nat} (h : m.addresses = List.range n) : m.wf = true := by
  simp [Memory.wf, h, rising_range]

/-- A write inside a full memory keeps it full. -/
theorem Memory.addresses_write_range {m : Memory} {n x : Nat} (h : m.addresses = List.range n) (hx : x < n)
    (v : Byte) : (m.write x v).addresses = List.range n := by
  rw [Memory.addresses_write_listed m x v (Memory.wf_of_addresses h) (by simpa [h] using hx), h]

/-- Two canonical memories with the same addresses and the same bytes are equal. -/
theorem Memory.ext_of_read {m m' : Memory} (hwf : m.wf = true) (ha : m.addresses = m'.addresses)
    (hr : ∀ x ∈ m.addresses, m.read x = m'.read x) : m = m' := by
  induction m generalizing m' with
  | nil =>
    cases m' with
    | nil => rfl
    | cons cell m' => simp [Memory.addresses] at ha
  | cons cell m ih =>
    obtain ⟨a, w⟩ := cell
    cases m' with
    | nil => simp [Memory.addresses] at ha
    | cons cell' m' =>
      obtain ⟨a', w'⟩ := cell'
      simp only [Memory.addresses, List.map_cons, List.cons.injEq] at ha
      obtain ⟨rfl, ha⟩ := ha
      have hw : w = w' := by
        have := hr a (by simp [Memory.addresses])
        simpa [Memory.read] using this
      subst hw
      simp only [Memory.wf, Memory.addresses, List.map_cons, rising] at hwf
      have hrest : m = m' := by
        refine ih (rising_of_risingAbove hwf) ha fun x hx => ?_
        have hlt : a < x := lt_of_mem_risingAbove hwf hx
        have hne : x ≠ a := by omega
        have := hr x (by simp only [Memory.addresses, List.map_cons, List.mem_cons]; exact .inr hx)
        simpa [Memory.read, hne] using this
      rw [hrest]

end Sys2Proof.Machine
end

