-- ==== Sys2Proof/Laws/State.lean ====
section
/-! SUPPORT. What each named update of the state leaves in each field: one lemma per field per update,
true by rfl, so that no later proof unfolds a record update. -/

namespace Sys2Proof.Machine

variable (s : State)

@[simp] theorem State.raise_cfg (r : Fault) : (s.raise r).cfg = s.cfg := rfl
@[simp] theorem State.raise_minP (r : Fault) : (s.raise r).minP = s.minP := rfl
@[simp] theorem State.raise_maxP (r : Fault) : (s.raise r).maxP = s.maxP := rfl
@[simp] theorem State.raise_minC (r : Fault) : (s.raise r).minC = s.minC := rfl
@[simp] theorem State.raise_maxC (r : Fault) : (s.raise r).maxC = s.maxC := rfl
@[simp] theorem State.raise_p (r : Fault) : (s.raise r).p = s.p := rfl
@[simp] theorem State.raise_c (r : Fault) : (s.raise r).c = s.c := rfl
@[simp] theorem State.raise_i (r : Fault) : (s.raise r).i = s.i := rfl
@[simp] theorem State.raise_seq (r : Fault) : (s.raise r).seq = s.seq := rfl
@[simp] theorem State.raise_busy (r : Fault) : (s.raise r).busy = s.busy := rfl
@[simp] theorem State.raise_connected (r : Fault) : (s.raise r).connected = s.connected := rfl
@[simp] theorem State.raise_result (r : Fault) : (s.raise r).result = s.result := rfl
@[simp] theorem State.raise_dirCs (r : Fault) : (s.raise r).dirCs = s.dirCs := rfl
@[simp] theorem State.raise_dirDc (r : Fault) : (s.raise r).dirDc = s.dirDc := rfl
@[simp] theorem State.raise_dirRst (r : Fault) : (s.raise r).dirRst = s.dirRst := rfl
@[simp] theorem State.raise_csN (r : Fault) : (s.raise r).csN = s.csN := rfl
@[simp] theorem State.raise_dc (r : Fault) : (s.raise r).dc = s.dc := rfl
@[simp] theorem State.raise_rstN (r : Fault) : (s.raise r).rstN = s.rstN := rfl
@[simp] theorem State.raise_busBegun (r : Fault) : (s.raise r).busBegun = s.busBegun := rfl
@[simp] theorem State.raise_busClkdiv (r : Fault) : (s.raise r).busClkdiv = s.busClkdiv := rfl
@[simp] theorem State.raise_trace (r : Fault) : (s.raise r).trace = s.trace := rfl
@[simp] theorem State.raise_sh (r : Fault) : (s.raise r).sh = s.sh := rfl
@[simp] theorem State.raise_fault (r : Fault) : (s.raise r).fault = some ⟨r, s.seq⟩ := rfl
@[simp] theorem State.raise_opreq (r : Fault) : (s.raise r).opreq = s.opreq := rfl
@[simp] theorem State.raise_fb (r : Fault) : (s.raise r).fb = s.fb := rfl
@[simp] theorem State.raise_host (r : Fault) : (s.raise r).host = s.host := rfl
@[simp] theorem State.raise_rx (r : Fault) : (s.raise r).rx = s.rx := rfl

@[simp] theorem State.emit_cfg (e : Event) : (s.emit e).cfg = s.cfg := rfl
@[simp] theorem State.emit_minP (e : Event) : (s.emit e).minP = s.minP := rfl
@[simp] theorem State.emit_maxP (e : Event) : (s.emit e).maxP = s.maxP := rfl
@[simp] theorem State.emit_minC (e : Event) : (s.emit e).minC = s.minC := rfl
@[simp] theorem State.emit_maxC (e : Event) : (s.emit e).maxC = s.maxC := rfl
@[simp] theorem State.emit_p (e : Event) : (s.emit e).p = s.p := rfl
@[simp] theorem State.emit_c (e : Event) : (s.emit e).c = s.c := rfl
@[simp] theorem State.emit_i (e : Event) : (s.emit e).i = s.i := rfl
@[simp] theorem State.emit_seq (e : Event) : (s.emit e).seq = s.seq := rfl
@[simp] theorem State.emit_busy (e : Event) : (s.emit e).busy = s.busy := rfl
@[simp] theorem State.emit_connected (e : Event) : (s.emit e).connected = s.connected := rfl
@[simp] theorem State.emit_result (e : Event) : (s.emit e).result = s.result := rfl
@[simp] theorem State.emit_dirCs (e : Event) : (s.emit e).dirCs = s.dirCs := rfl
@[simp] theorem State.emit_dirDc (e : Event) : (s.emit e).dirDc = s.dirDc := rfl
@[simp] theorem State.emit_dirRst (e : Event) : (s.emit e).dirRst = s.dirRst := rfl
@[simp] theorem State.emit_csN (e : Event) : (s.emit e).csN = s.csN := rfl
@[simp] theorem State.emit_dc (e : Event) : (s.emit e).dc = s.dc := rfl
@[simp] theorem State.emit_rstN (e : Event) : (s.emit e).rstN = s.rstN := rfl
@[simp] theorem State.emit_busBegun (e : Event) : (s.emit e).busBegun = s.busBegun := rfl
@[simp] theorem State.emit_busClkdiv (e : Event) : (s.emit e).busClkdiv = s.busClkdiv := rfl
@[simp] theorem State.emit_trace (e : Event) : (s.emit e).trace = s.trace ++ [e] := rfl
@[simp] theorem State.emit_sh (e : Event) : (s.emit e).sh = s.sh := rfl
@[simp] theorem State.emit_fault (e : Event) : (s.emit e).fault = s.fault := rfl
@[simp] theorem State.emit_opreq (e : Event) : (s.emit e).opreq = s.opreq := rfl
@[simp] theorem State.emit_fb (e : Event) : (s.emit e).fb = s.fb := rfl
@[simp] theorem State.emit_host (e : Event) : (s.emit e).host = s.host := rfl
@[simp] theorem State.emit_rx (e : Event) : (s.emit e).rx = s.rx := rfl

@[simp] theorem State.goto_cfg (q : Seq) : (s.goto q).cfg = s.cfg := rfl
@[simp] theorem State.goto_minP (q : Seq) : (s.goto q).minP = s.minP := rfl
@[simp] theorem State.goto_maxP (q : Seq) : (s.goto q).maxP = s.maxP := rfl
@[simp] theorem State.goto_minC (q : Seq) : (s.goto q).minC = s.minC := rfl
@[simp] theorem State.goto_maxC (q : Seq) : (s.goto q).maxC = s.maxC := rfl
@[simp] theorem State.goto_p (q : Seq) : (s.goto q).p = s.p := rfl
@[simp] theorem State.goto_c (q : Seq) : (s.goto q).c = s.c := rfl
@[simp] theorem State.goto_i (q : Seq) : (s.goto q).i = s.i := rfl
@[simp] theorem State.goto_seq (q : Seq) : (s.goto q).seq = q := rfl
@[simp] theorem State.goto_busy (q : Seq) : (s.goto q).busy = s.busy := rfl
@[simp] theorem State.goto_connected (q : Seq) : (s.goto q).connected = s.connected := rfl
@[simp] theorem State.goto_result (q : Seq) : (s.goto q).result = s.result := rfl
@[simp] theorem State.goto_dirCs (q : Seq) : (s.goto q).dirCs = s.dirCs := rfl
@[simp] theorem State.goto_dirDc (q : Seq) : (s.goto q).dirDc = s.dirDc := rfl
@[simp] theorem State.goto_dirRst (q : Seq) : (s.goto q).dirRst = s.dirRst := rfl
@[simp] theorem State.goto_csN (q : Seq) : (s.goto q).csN = s.csN := rfl
@[simp] theorem State.goto_dc (q : Seq) : (s.goto q).dc = s.dc := rfl
@[simp] theorem State.goto_rstN (q : Seq) : (s.goto q).rstN = s.rstN := rfl
@[simp] theorem State.goto_busBegun (q : Seq) : (s.goto q).busBegun = s.busBegun := rfl
@[simp] theorem State.goto_busClkdiv (q : Seq) : (s.goto q).busClkdiv = s.busClkdiv := rfl
@[simp] theorem State.goto_trace (q : Seq) : (s.goto q).trace = s.trace := rfl
@[simp] theorem State.goto_sh (q : Seq) : (s.goto q).sh = s.sh := rfl
@[simp] theorem State.goto_fault (q : Seq) : (s.goto q).fault = s.fault := rfl
@[simp] theorem State.goto_opreq (q : Seq) : (s.goto q).opreq = s.opreq := rfl
@[simp] theorem State.goto_fb (q : Seq) : (s.goto q).fb = s.fb := rfl
@[simp] theorem State.goto_host (q : Seq) : (s.goto q).host = s.host := rfl
@[simp] theorem State.goto_rx (q : Seq) : (s.goto q).rx = s.rx := rfl

@[simp] theorem State.sent_cfg (b : Byte) : (s.sent b).cfg = s.cfg := rfl
@[simp] theorem State.sent_minP (b : Byte) : (s.sent b).minP = s.minP := rfl
@[simp] theorem State.sent_maxP (b : Byte) : (s.sent b).maxP = s.maxP := rfl
@[simp] theorem State.sent_minC (b : Byte) : (s.sent b).minC = s.minC := rfl
@[simp] theorem State.sent_maxC (b : Byte) : (s.sent b).maxC = s.maxC := rfl
@[simp] theorem State.sent_p (b : Byte) : (s.sent b).p = s.p := rfl
@[simp] theorem State.sent_c (b : Byte) : (s.sent b).c = s.c := rfl
@[simp] theorem State.sent_i (b : Byte) : (s.sent b).i = s.i := rfl
@[simp] theorem State.sent_seq (b : Byte) : (s.sent b).seq = s.seq := rfl
@[simp] theorem State.sent_busy (b : Byte) : (s.sent b).busy = s.busy := rfl
@[simp] theorem State.sent_connected (b : Byte) : (s.sent b).connected = s.connected := rfl
@[simp] theorem State.sent_result (b : Byte) : (s.sent b).result = s.result := rfl
@[simp] theorem State.sent_dirCs (b : Byte) : (s.sent b).dirCs = s.dirCs := rfl
@[simp] theorem State.sent_dirDc (b : Byte) : (s.sent b).dirDc = s.dirDc := rfl
@[simp] theorem State.sent_dirRst (b : Byte) : (s.sent b).dirRst = s.dirRst := rfl
@[simp] theorem State.sent_csN (b : Byte) : (s.sent b).csN = s.csN := rfl
@[simp] theorem State.sent_dc (b : Byte) : (s.sent b).dc = s.dc := rfl
@[simp] theorem State.sent_rstN (b : Byte) : (s.sent b).rstN = s.rstN := rfl
@[simp] theorem State.sent_busBegun (b : Byte) : (s.sent b).busBegun = s.busBegun := rfl
@[simp] theorem State.sent_busClkdiv (b : Byte) : (s.sent b).busClkdiv = s.busClkdiv := rfl
@[simp] theorem State.sent_trace (b : Byte) : (s.sent b).trace = s.trace ++ [.xfer b] := rfl
@[simp] theorem State.sent_sh (b : Byte) : (s.sent b).sh = s.sh := rfl
@[simp] theorem State.sent_fault (b : Byte) : (s.sent b).fault = s.fault := rfl
@[simp] theorem State.sent_opreq (b : Byte) : (s.sent b).opreq = s.opreq := rfl
@[simp] theorem State.sent_fb (b : Byte) : (s.sent b).fb = s.fb := rfl
@[simp] theorem State.sent_host (b : Byte) : (s.sent b).host = s.host := rfl
@[simp] theorem State.sent_rx (b : Byte) : (s.sent b).rx = s.rx.hear s.cfg s.csN s.dc b := rfl

@[simp] theorem shWrite_cfg (x : Nat) (v : Byte) : (shWrite s x v).cfg = s.cfg := rfl
@[simp] theorem shWrite_minP (x : Nat) (v : Byte) : (shWrite s x v).minP = s.minP := rfl
@[simp] theorem shWrite_maxP (x : Nat) (v : Byte) : (shWrite s x v).maxP = s.maxP := rfl
@[simp] theorem shWrite_minC (x : Nat) (v : Byte) : (shWrite s x v).minC = s.minC := rfl
@[simp] theorem shWrite_maxC (x : Nat) (v : Byte) : (shWrite s x v).maxC = s.maxC := rfl
@[simp] theorem shWrite_p (x : Nat) (v : Byte) : (shWrite s x v).p = s.p := rfl
@[simp] theorem shWrite_c (x : Nat) (v : Byte) : (shWrite s x v).c = s.c := rfl
@[simp] theorem shWrite_i (x : Nat) (v : Byte) : (shWrite s x v).i = s.i := rfl
@[simp] theorem shWrite_seq (x : Nat) (v : Byte) : (shWrite s x v).seq = s.seq := rfl
@[simp] theorem shWrite_busy (x : Nat) (v : Byte) : (shWrite s x v).busy = s.busy := rfl
@[simp] theorem shWrite_connected (x : Nat) (v : Byte) : (shWrite s x v).connected = s.connected := rfl
@[simp] theorem shWrite_result (x : Nat) (v : Byte) : (shWrite s x v).result = s.result := rfl
@[simp] theorem shWrite_dirCs (x : Nat) (v : Byte) : (shWrite s x v).dirCs = s.dirCs := rfl
@[simp] theorem shWrite_dirDc (x : Nat) (v : Byte) : (shWrite s x v).dirDc = s.dirDc := rfl
@[simp] theorem shWrite_dirRst (x : Nat) (v : Byte) : (shWrite s x v).dirRst = s.dirRst := rfl
@[simp] theorem shWrite_csN (x : Nat) (v : Byte) : (shWrite s x v).csN = s.csN := rfl
@[simp] theorem shWrite_dc (x : Nat) (v : Byte) : (shWrite s x v).dc = s.dc := rfl
@[simp] theorem shWrite_rstN (x : Nat) (v : Byte) : (shWrite s x v).rstN = s.rstN := rfl
@[simp] theorem shWrite_busBegun (x : Nat) (v : Byte) : (shWrite s x v).busBegun = s.busBegun := rfl
@[simp] theorem shWrite_busClkdiv (x : Nat) (v : Byte) : (shWrite s x v).busClkdiv = s.busClkdiv := rfl
@[simp] theorem shWrite_trace (x : Nat) (v : Byte) : (shWrite s x v).trace = s.trace := rfl
@[simp] theorem shWrite_sh (x : Nat) (v : Byte) : (shWrite s x v).sh = s.sh.write x v := rfl
@[simp] theorem shWrite_fault (x : Nat) (v : Byte) : (shWrite s x v).fault = s.fault := rfl
@[simp] theorem shWrite_opreq (x : Nat) (v : Byte) : (shWrite s x v).opreq = s.opreq := rfl
@[simp] theorem shWrite_fb (x : Nat) (v : Byte) : (shWrite s x v).fb = s.fb := rfl
@[simp] theorem shWrite_host (x : Nat) (v : Byte) : (shWrite s x v).host = s.host := rfl
@[simp] theorem shWrite_rx (x : Nat) (v : Byte) : (shWrite s x v).rx = s.rx := rfl

@[simp] theorem complete_cfg (o : HostOp) : (complete o s).cfg = s.cfg := rfl
@[simp] theorem complete_minP (o : HostOp) : (complete o s).minP = s.minP := rfl
@[simp] theorem complete_maxP (o : HostOp) : (complete o s).maxP = s.maxP := rfl
@[simp] theorem complete_minC (o : HostOp) : (complete o s).minC = s.minC := rfl
@[simp] theorem complete_maxC (o : HostOp) : (complete o s).maxC = s.maxC := rfl
@[simp] theorem complete_p (o : HostOp) : (complete o s).p = s.p := rfl
@[simp] theorem complete_c (o : HostOp) : (complete o s).c = s.c := rfl
@[simp] theorem complete_i (o : HostOp) : (complete o s).i = s.i := rfl
@[simp] theorem complete_seq (o : HostOp) : (complete o s).seq = .idle := rfl
@[simp] theorem complete_busy (o : HostOp) : (complete o s).busy = false := rfl
@[simp] theorem complete_connected (o : HostOp) : (complete o s).connected = s.connected := rfl
@[simp] theorem complete_result (o : HostOp) : (complete o s).result = s.result := rfl
@[simp] theorem complete_dirCs (o : HostOp) : (complete o s).dirCs = s.dirCs := rfl
@[simp] theorem complete_dirDc (o : HostOp) : (complete o s).dirDc = s.dirDc := rfl
@[simp] theorem complete_dirRst (o : HostOp) : (complete o s).dirRst = s.dirRst := rfl
@[simp] theorem complete_csN (o : HostOp) : (complete o s).csN = s.csN := rfl
@[simp] theorem complete_dc (o : HostOp) : (complete o s).dc = s.dc := rfl
@[simp] theorem complete_rstN (o : HostOp) : (complete o s).rstN = s.rstN := rfl
@[simp] theorem complete_busBegun (o : HostOp) : (complete o s).busBegun = s.busBegun := rfl
@[simp] theorem complete_busClkdiv (o : HostOp) : (complete o s).busClkdiv = s.busClkdiv := rfl
@[simp] theorem complete_trace (o : HostOp) : (complete o s).trace = s.trace ++ [.done o] := rfl
@[simp] theorem complete_sh (o : HostOp) : (complete o s).sh = s.sh := rfl
@[simp] theorem complete_fault (o : HostOp) : (complete o s).fault = s.fault := rfl
@[simp] theorem complete_opreq (o : HostOp) : (complete o s).opreq = s.opreq := rfl
@[simp] theorem complete_fb (o : HostOp) : (complete o s).fb = s.fb := rfl
@[simp] theorem complete_host (o : HostOp) : (complete o s).host = s.host := rfl
@[simp] theorem complete_rx (o : HostOp) : (complete o s).rx = s.rx := rfl

@[simp] theorem initBounds_cfg : (initBounds s).cfg = s.cfg := rfl
@[simp] theorem initBounds_minP : (initBounds s).minP = .holds 0xFF#8 := rfl
@[simp] theorem initBounds_maxP : (initBounds s).maxP = .holds 0x00#8 := rfl
@[simp] theorem initBounds_minC : (initBounds s).minC = .holds 0xFF#8 := rfl
@[simp] theorem initBounds_maxC : (initBounds s).maxC = .holds 0x00#8 := rfl
@[simp] theorem initBounds_p : (initBounds s).p = s.p := rfl
@[simp] theorem initBounds_c : (initBounds s).c = s.c := rfl
@[simp] theorem initBounds_i : (initBounds s).i = s.i := rfl
@[simp] theorem initBounds_seq : (initBounds s).seq = s.seq := rfl
@[simp] theorem initBounds_busy : (initBounds s).busy = s.busy := rfl
@[simp] theorem initBounds_connected : (initBounds s).connected = s.connected := rfl
@[simp] theorem initBounds_result : (initBounds s).result = s.result := rfl
@[simp] theorem initBounds_dirCs : (initBounds s).dirCs = s.dirCs := rfl
@[simp] theorem initBounds_dirDc : (initBounds s).dirDc = s.dirDc := rfl
@[simp] theorem initBounds_dirRst : (initBounds s).dirRst = s.dirRst := rfl
@[simp] theorem initBounds_csN : (initBounds s).csN = s.csN := rfl
@[simp] theorem initBounds_dc : (initBounds s).dc = s.dc := rfl
@[simp] theorem initBounds_rstN : (initBounds s).rstN = s.rstN := rfl
@[simp] theorem initBounds_busBegun : (initBounds s).busBegun = s.busBegun := rfl
@[simp] theorem initBounds_busClkdiv : (initBounds s).busClkdiv = s.busClkdiv := rfl
@[simp] theorem initBounds_trace : (initBounds s).trace = s.trace := rfl
@[simp] theorem initBounds_sh : (initBounds s).sh = s.sh := rfl
@[simp] theorem initBounds_fault : (initBounds s).fault = s.fault := rfl
@[simp] theorem initBounds_opreq : (initBounds s).opreq = s.opreq := rfl
@[simp] theorem initBounds_fb : (initBounds s).fb = s.fb := rfl
@[simp] theorem initBounds_host : (initBounds s).host = s.host := rfl
@[simp] theorem initBounds_rx : (initBounds s).rx = s.rx := rfl

@[simp] theorem State.setLvl_cfg (l : Line) (v : Level) : (s.setLvl l v).cfg = s.cfg := by cases l <;> rfl
@[simp] theorem State.setLvl_minP (l : Line) (v : Level) : (s.setLvl l v).minP = s.minP := by cases l <;> rfl
@[simp] theorem State.setLvl_maxP (l : Line) (v : Level) : (s.setLvl l v).maxP = s.maxP := by cases l <;> rfl
@[simp] theorem State.setLvl_minC (l : Line) (v : Level) : (s.setLvl l v).minC = s.minC := by cases l <;> rfl
@[simp] theorem State.setLvl_maxC (l : Line) (v : Level) : (s.setLvl l v).maxC = s.maxC := by cases l <;> rfl
@[simp] theorem State.setLvl_p (l : Line) (v : Level) : (s.setLvl l v).p = s.p := by cases l <;> rfl
@[simp] theorem State.setLvl_c (l : Line) (v : Level) : (s.setLvl l v).c = s.c := by cases l <;> rfl
@[simp] theorem State.setLvl_i (l : Line) (v : Level) : (s.setLvl l v).i = s.i := by cases l <;> rfl
@[simp] theorem State.setLvl_seq (l : Line) (v : Level) : (s.setLvl l v).seq = s.seq := by cases l <;> rfl
@[simp] theorem State.setLvl_busy (l : Line) (v : Level) : (s.setLvl l v).busy = s.busy := by cases l <;> rfl
@[simp] theorem State.setLvl_connected (l : Line) (v : Level) : (s.setLvl l v).connected = s.connected :=
  by cases l <;> rfl
@[simp] theorem State.setLvl_result (l : Line) (v : Level) : (s.setLvl l v).result = s.result :=
  by cases l <;> rfl
@[simp] theorem State.setLvl_dirCs (l : Line) (v : Level) : (s.setLvl l v).dirCs = s.dirCs :=
  by cases l <;> rfl
@[simp] theorem State.setLvl_dirDc (l : Line) (v : Level) : (s.setLvl l v).dirDc = s.dirDc :=
  by cases l <;> rfl
@[simp] theorem State.setLvl_dirRst (l : Line) (v : Level) : (s.setLvl l v).dirRst = s.dirRst :=
  by cases l <;> rfl
@[simp] theorem State.setLvl_csN (l : Line) (v : Level) : (s.setLvl l v).csN = if l = .cs then .known v else s.csN :=
  by cases l <;> rfl
@[simp] theorem State.setLvl_dc (l : Line) (v : Level) : (s.setLvl l v).dc = if l = .dc then .known v else s.dc :=
  by cases l <;> rfl
@[simp] theorem State.setLvl_rstN (l : Line) (v : Level) : (s.setLvl l v).rstN = if l = .rst then .known v else s.rstN :=
  by cases l <;> rfl
@[simp] theorem State.setLvl_busBegun (l : Line) (v : Level) : (s.setLvl l v).busBegun = s.busBegun :=
  by cases l <;> rfl
@[simp] theorem State.setLvl_busClkdiv (l : Line) (v : Level) : (s.setLvl l v).busClkdiv = s.busClkdiv :=
  by cases l <;> rfl
@[simp] theorem State.setLvl_trace (l : Line) (v : Level) : (s.setLvl l v).trace = s.trace :=
  by cases l <;> rfl
@[simp] theorem State.setLvl_sh (l : Line) (v : Level) : (s.setLvl l v).sh = s.sh := by cases l <;> rfl
@[simp] theorem State.setLvl_fault (l : Line) (v : Level) : (s.setLvl l v).fault = s.fault :=
  by cases l <;> rfl
@[simp] theorem State.setLvl_opreq (l : Line) (v : Level) : (s.setLvl l v).opreq = s.opreq :=
  by cases l <;> rfl
@[simp] theorem State.setLvl_fb (l : Line) (v : Level) : (s.setLvl l v).fb = s.fb := by cases l <;> rfl
@[simp] theorem State.setLvl_host (l : Line) (v : Level) : (s.setLvl l v).host = s.host := by cases l <;> rfl
@[simp] theorem State.setLvl_rx (l : Line) (v : Level) : (s.setLvl l v).rx = s.rx := by cases l <;> rfl

@[simp] theorem State.setOutput_cfg (l : Line) : (s.setOutput l).cfg = s.cfg := by cases l <;> rfl
@[simp] theorem State.setOutput_minP (l : Line) : (s.setOutput l).minP = s.minP := by cases l <;> rfl
@[simp] theorem State.setOutput_maxP (l : Line) : (s.setOutput l).maxP = s.maxP := by cases l <;> rfl
@[simp] theorem State.setOutput_minC (l : Line) : (s.setOutput l).minC = s.minC := by cases l <;> rfl
@[simp] theorem State.setOutput_maxC (l : Line) : (s.setOutput l).maxC = s.maxC := by cases l <;> rfl
@[simp] theorem State.setOutput_p (l : Line) : (s.setOutput l).p = s.p := by cases l <;> rfl
@[simp] theorem State.setOutput_c (l : Line) : (s.setOutput l).c = s.c := by cases l <;> rfl
@[simp] theorem State.setOutput_i (l : Line) : (s.setOutput l).i = s.i := by cases l <;> rfl
@[simp] theorem State.setOutput_seq (l : Line) : (s.setOutput l).seq = s.seq := by cases l <;> rfl
@[simp] theorem State.setOutput_busy (l : Line) : (s.setOutput l).busy = s.busy := by cases l <;> rfl
@[simp] theorem State.setOutput_connected (l : Line) : (s.setOutput l).connected = s.connected :=
  by cases l <;> rfl
@[simp] theorem State.setOutput_result (l : Line) : (s.setOutput l).result = s.result := by cases l <;> rfl
@[simp] theorem State.setOutput_dirCs (l : Line) : (s.setOutput l).dirCs = if l = .cs then .output else s.dirCs :=
  by cases l <;> rfl
@[simp] theorem State.setOutput_dirDc (l : Line) : (s.setOutput l).dirDc = if l = .dc then .output else s.dirDc :=
  by cases l <;> rfl
@[simp] theorem State.setOutput_dirRst (l : Line) : (s.setOutput l).dirRst = if l = .rst then .output else s.dirRst :=
  by cases l <;> rfl
@[simp] theorem State.setOutput_csN (l : Line) : (s.setOutput l).csN = s.csN := by cases l <;> rfl
@[simp] theorem State.setOutput_dc (l : Line) : (s.setOutput l).dc = s.dc := by cases l <;> rfl
@[simp] theorem State.setOutput_rstN (l : Line) : (s.setOutput l).rstN = s.rstN := by cases l <;> rfl
@[simp] theorem State.setOutput_busBegun (l : Line) : (s.setOutput l).busBegun = s.busBegun :=
  by cases l <;> rfl
@[simp] theorem State.setOutput_busClkdiv (l : Line) : (s.setOutput l).busClkdiv = s.busClkdiv :=
  by cases l <;> rfl
@[simp] theorem State.setOutput_trace (l : Line) : (s.setOutput l).trace = s.trace := by cases l <;> rfl
@[simp] theorem State.setOutput_sh (l : Line) : (s.setOutput l).sh = s.sh := by cases l <;> rfl
@[simp] theorem State.setOutput_fault (l : Line) : (s.setOutput l).fault = s.fault := by cases l <;> rfl
@[simp] theorem State.setOutput_opreq (l : Line) : (s.setOutput l).opreq = s.opreq := by cases l <;> rfl
@[simp] theorem State.setOutput_fb (l : Line) : (s.setOutput l).fb = s.fb := by cases l <;> rfl
@[simp] theorem State.setOutput_host (l : Line) : (s.setOutput l).host = s.host := by cases l <;> rfl
@[simp] theorem State.setOutput_rx (l : Line) : (s.setOutput l).rx = s.rx := by cases l <;> rfl

end Sys2Proof.Machine
end

