-- ==== Sys2Proof/Laws/Ops.lean ====
section
/-! SUPPORT. One lemma for each shared operation that says once everything it can do; provers cite these
instead of unfolding the operation. -/

namespace Sys2Proof.Machine

/-! Sequencing of statements. -/

@[simp] theorem Res.ok_bind {α β : Type} (a : α) (f : α → Res β) : ((Except.ok a : Res α) >>= f) = f a := rfl

@[simp] theorem Res.error_bind {α β : Type} (e : Stop) (f : α → Res β) :
    ((Except.error e : Res α) >>= f) = .error e := rfl

theorem Res.bind_eq_ok {α β : Type} {x : Res α} {f : α → Res β} {b : β} :
    (x >>= f) = .ok b ↔ ∃ a, x = .ok a ∧ f a = .ok b := by
  cases x with
  | error e => simp
  | ok a => simp

theorem Res.bind_eq_error {α β : Type} {x : Res α} {f : α → Res β} {e : Stop} :
    (x >>= f) = .error e ↔ x = .error e ∨ ∃ a, x = .ok a ∧ f a = .error e := by
  cases x with
  | error e => simp
  | ok a => simp

/-! Running a body at a state. -/

theorem settle_eq_next {s t : State} {body : Res State} :
    settle s body = .next t ↔
      s.fault = none ∧ (body = .ok t ∨ ∃ r, body = .error (.raises r) ∧ t = s.raise r) := by
  unfold settle
  cases s.fault with
  | some f => simp
  | none =>
    cases body with
    | ok u => simp
    | error stop =>
      cases stop with
      | raises r => simp [eq_comm]
      | refuses q => simp

@[simp] theorem settle_ok {s t : State} (h : s.fault = none) : settle s (.ok t) = .next t := by
  simp [settle, h]

@[simp] theorem settle_raises {s : State} {r : Fault} (h : s.fault = none) :
    settle s (.error (.raises r)) = .next (s.raise r) := by
  simp [settle, h]

@[simp] theorem settle_refuses {s : State} {q : Refusal} (h : s.fault = none) :
    settle s (.error (.refuses q)) = .refused q := by
  simp [settle, h]

@[simp] theorem settle_faulted {s : State} {f : FaultRecord} {body : Res State} (h : s.fault = some f) :
    settle s body = .fault f.reason := by
  simp [settle, h]

/-! Registers and memory ports. -/

@[simp] theorem Reg.get_holds {n : Nat} (v : BitVec n) : (Reg.holds v).get = .ok v := rfl

@[simp] theorem Reg.get_unwritten {n : Nat} :
    (Reg.unwritten : Reg n).get = .error (.raises .unwrittenReg) := rfl

theorem Reg.get_eq_ok {n : Nat} {r : Reg n} {v : BitVec n} : r.get = .ok v ↔ r = .holds v := by
  cases r with
  | unwritten => simp
  | holds w => simp

theorem fbRead_eq_ok {s : State} {x : Nat} {v : Byte} :
    fbRead s x = .ok v ↔ x < s.cfg.fbSize ∧ s.fb.read x = some v := by
  unfold fbRead
  split
  · next h => cases s.fb.read x with
    | none => simp
    | some w => simp [h]
  · next h => simp [h]

/-- Every index of a full framebuffer reads. -/
theorem fbRead_total {s : State} (hfb : s.fb.addresses = List.range s.cfg.fbSize) {x : Nat}
    (hx : x < s.cfg.fbSize) : ∃ v, s.fb.read x = some v ∧ fbRead s x = .ok v := by
  obtain ⟨v, hv⟩ := Memory.read_of_mem (m := s.fb) (x := x) (by simpa [hfb] using hx)
  exact ⟨v, hv, fbRead_eq_ok.2 ⟨hx, hv⟩⟩

theorem shRead_eq_ok {s : State} {x : Nat} {v : Byte} : shRead s x = .ok v ↔ s.sh.read x = some v := by
  unfold shRead
  cases s.sh.read x with
  | none => simp
  | some w => simp

theorem fbWrite_eq_ok {s t : State} {x : Nat} {v : Byte} :
    fbWrite s x v = .ok t ↔ s.busy = false ∧ x < s.cfg.fbSize ∧ t = { s with fb := s.fb.write x v } := by
  unfold fbWrite
  cases s.busy with
  | true => simp
  | false =>
    by_cases h : x < s.cfg.fbSize
    · simp [h, eq_comm]
    · simp [h]

/-! Lines, transfers, acceptance. -/

theorem line_eq_ok {l : Line} {v : Level} {s t : State} :
    line l v s = .ok t ↔ s.dir l = .output ∧ t = (s.setLvl l v).emit (.lvl l v) := by
  unfold line
  by_cases h : s.dir l = .output
  · simp [h, eq_comm]
  · simp [h]

theorem line_ok {l : Line} {v : Level} {s : State} (h : s.dir l = .output) :
    line l v s = .ok ((s.setLvl l v).emit (.lvl l v)) := line_eq_ok.2 ⟨h, rfl⟩

theorem line_raises {l : Line} {v : Level} {s : State} (h : s.dir l ≠ .output) :
    line l v s = .error (.raises .lineNotOutput) := by
  simp [line, h]

theorem xfer_eq_ok {b : Byte} {s t : State} :
    xfer b s = .ok t ↔ s.busBegun = true ∧ t = s.sent b := by
  unfold xfer
  cases s.busBegun with
  | true => simp [eq_comm]
  | false => simp

theorem xfer_ok {b : Byte} {s : State} (h : s.busBegun = true) :
    xfer b s = .ok (s.sent b) :=
  xfer_eq_ok.2 ⟨h, rfl⟩

theorem xfer_raises {b : Byte} {s : State} (h : s.busBegun = false) :
    xfer b s = .error (.raises .busNotBegun) := by
  simp [xfer, h]

theorem accept_eq_ok {q : Request} {first : Seq} {s t : State} :
    accept q first s = .ok t ↔
      acceptFault s q = none ∧ t = { s with busy := true, seq := first, opreq := 0#2 } := by
  unfold accept
  cases acceptFault s q with
  | none => simp [eq_comm]
  | some r => simp

theorem acceptFault_busy {s : State} {q : Request} (h : s.busy = true) : acceptFault s q = some .busy := by
  simp [acceptFault, h]

theorem acceptFault_op_eq_none {s : State} {o : HostOp} :
    acceptFault s (.op o) = none ↔ s.busy = false ∧ (s.connected = false ↔ o = .connect) := by
  cases o <;> cases hb : s.busy <;> cases hc : s.connected <;> simp [acceptFault, hb, hc]

end Sys2Proof.Machine
end

