-- ==== Sys2Proof/Laws/Trace.lean ====
section
/-! SUPPORT. The trace grows at its end: what appending events does to the bus view, to the controller
stream, to the line discipline and to the receiver; and the trace half of the machine's invariant, which
every primitive keeps. -/

namespace Sys2Proof.Machine

theorem streamFrom_append (v : BusView) (es fs : List Event) :
    streamFrom v (es ++ fs) = streamFrom v es ++ streamFrom (es.foldl BusView.after v) fs := by
  induction es generalizing v with
  | nil => rfl
  | cons e es ih => cases e <;> simp [streamFrom, ih, BusView.after]

theorem disciplinedFrom_append (v : BusView) (es fs : List Event) :
    disciplinedFrom v (es ++ fs) = (disciplinedFrom v es && disciplinedFrom (es.foldl BusView.after v) fs) := by
  induction es generalizing v with
  | nil => rfl
  | cons e es ih => simp [disciplinedFrom, ih, Bool.and_assoc]

@[simp] theorem busAfter_nil : busAfter [] = .initial := rfl

@[simp] theorem busAfter_append (es : List Event) (e : Event) :
    busAfter (es ++ [e]) = (busAfter es).after e := by
  simp [busAfter]

@[simp] theorem disciplined_append (es : List Event) (e : Event) :
    disciplined (es ++ [e]) = (disciplined es && eventAllowed (busAfter es) e) := by
  simp [disciplined, disciplinedFrom_append, disciplinedFrom, busAfter]

/-- Only a transfer adds to the controller stream. -/
@[simp] theorem controllerStream_append_xfer (es : List Event) (b : Byte) :
    controllerStream (es ++ [.xfer b])
      = controllerStream es ++ (frameOnLines (busAfter es).csN (busAfter es).dc b).toList := by
  simp [controllerStream, streamFrom_append, streamFrom, busAfter]

theorem controllerStream_append_other (es : List Event) {e : Event} (h : e.isXfer = false) :
    controllerStream (es ++ [e]) = controllerStream es := by
  cases e <;> simp_all [controllerStream, streamFrom_append, streamFrom, Event.isXfer]

/-- The trace half of the machine's invariant. -/
structure TraceOk (s : State) : Prop where
  bus : busAfter s.trace = s.bus
  allowed : disciplined s.trace = true
  receiver : s.rx = receiverAfter s.cfg (controllerStream s.trace)

/-- A state that differs in nothing the trace half speaks of. -/
theorem TraceOk.congr {s t : State} (h : TraceOk s) (ht : t.trace = s.trace) (hb : t.bus = s.bus)
    (hr : t.rx = s.rx) (hc : t.cfg = s.cfg) : TraceOk t :=
  ⟨by rw [ht, hb, h.bus], by rw [ht, h.allowed], by rw [hr, hc, ht, h.receiver]⟩

/-- Appending an event that carries no frame and is allowed where it stands. -/
theorem TraceOk.append {s t : State} (h : TraceOk s) {e : Event} (hx : e.isXfer = false)
    (ht : t.trace = s.trace ++ [e]) (hb : t.bus = s.bus.after e) (ha : eventAllowed s.bus e = true)
    (hr : t.rx = s.rx) (hc : t.cfg = s.cfg) : TraceOk t := by
  refine ⟨?_, ?_, ?_⟩
  · rw [ht, hb, busAfter_append, h.bus]
  · rw [ht, disciplined_append, h.allowed, h.bus, ha]; rfl
  · rw [hr, hc, ht, controllerStream_append_other _ hx, h.receiver]

/-- A level write keeps the trace half, where the discipline allows it. -/
theorem TraceOk.line {s t : State} {l : Line} {v : Level} (h : TraceOk s) (ht : line l v s = .ok t)
    (hd : l = .dc → s.csN = .known .high) : TraceOk t := by
  obtain ⟨hdir, rfl⟩ := line_eq_ok.1 ht
  refine h.append (e := .lvl l v) rfl (by simp) ?_ ?_ (by simp) (by simp)
  · cases l <;> rfl
  · cases l <;> simp_all [eventAllowed, State.bus, State.dir]

/-- A transfer keeps the trace half, where the discipline allows it. -/
theorem TraceOk.xfer {s t : State} {b : Byte} (h : TraceOk s) (ht : xfer b s = .ok t)
    (ha : eventAllowed s.bus (.xfer b) = true) : TraceOk t := by
  obtain ⟨-, rfl⟩ := xfer_eq_ok.1 ht
  refine ⟨?_, ?_, ?_⟩
  · simp only [State.sent_trace, busAfter_append, h.bus]; rfl
  · simp only [State.sent_trace, disciplined_append, h.allowed, h.bus, ha]; rfl
  · simp only [State.sent_trace, State.sent_cfg, State.sent_rx, controllerStream_append_xfer, h.bus, State.bus,
      Rx.hear]
    rw [h.receiver]
    cases frameOnLines s.csN s.dc b with
    | none => simp
    | some f => simp [receiverAfter]

/-- An event that does nothing to the bus keeps the trace half. -/
theorem TraceOk.emit {s : State} {e : Event} (h : TraceOk s) (hx : e.isXfer = false)
    (hb : s.bus.after e = s.bus) (ha : eventAllowed s.bus e = true) : TraceOk (s.emit e) :=
  h.append hx (by simp) (by rw [hb]; simp [State.bus]) ha (by simp) (by simp)

theorem State.Inv.traceHalf {s : State} (h : s.Inv) : TraceOk s := ⟨h.busTraced, h.traceOk, h.receiverOk⟩

end Sys2Proof.Machine
end

