-- ==== Sys2Proof/Laws/Steady.lean ====
section
/-! SUPPORT. What no statement of DISPLAY changes, and how a DISPLAY statement keeps the invariant of the machine. -/

namespace Sys2Proof.Machine

/-- static facts a DISPLAY statement leaves alone -/
structure Steady (s t : State) : Prop where
  cfg : t.cfg = s.cfg
  fb : t.fb = s.fb
  sh : t.sh.addresses = s.sh.addresses
  conn : t.connected = s.connected
  result : t.result = s.result
  dirCs : t.dirCs = s.dirCs
  dirDc : t.dirDc = s.dirDc
  dirRst : t.dirRst = s.dirRst
  rstN : t.rstN = s.rstN
  begun : t.busBegun = s.busBegun
  clk : t.busClkdiv = s.busClkdiv
  fault : t.fault = s.fault
  opreq : t.opreq = s.opreq
  host : t.host = s.host

theorem Steady.refl (s : State) : Steady s s := by constructor <;> rfl
theorem Steady.trans {s t u : State} (a : Steady s t) (b : Steady t u) : Steady s u := by
  constructor
  · exact b.cfg.trans a.cfg
  · exact b.fb.trans a.fb
  · exact b.sh.trans a.sh
  · exact b.conn.trans a.conn
  · exact b.result.trans a.result
  · exact b.dirCs.trans a.dirCs
  · exact b.dirDc.trans a.dirDc
  · exact b.dirRst.trans a.dirRst
  · exact b.rstN.trans a.rstN
  · exact b.begun.trans a.begun
  · exact b.clk.trans a.clk
  · exact b.fault.trans a.fault
  · exact b.opreq.trans a.opreq
  · exact b.host.trans a.host

theorem Ready.of_same {s t : State} (h : Steady s t) (r : s.busReady) : t.busReady := by
  obtain ⟨⟨a1, a2, a3, a4, a5, a6, a7, a8⟩, b⟩ := r
  refine ⟨⟨?_, ?_, ?_, ?_, ?_, ?_, ?_, ?_⟩, ?_⟩
  · rw [h.dirDc]; exact a1
  · rw [h.dirCs]; exact a2
  · rw [h.dirRst]; exact a3
  · rw [h.begun]; exact a4
  · rw [h.clk, h.cfg]; exact a5
  · rw [h.rstN]; exact a6
  · rw [h.rstN]; exact a7
  · rw [h.rstN]; exact a8
  · rw [h.result]; exact b

def DisplayAt (q : Seq) (m : Mode) : Prop := match m with
  | .tracked => q.owner = some .displayTracked
  | .full => q.owner = some .displayFull

theorem display_inv {s t : State} (h : s.Inv) (hc : s.connected = true) (same : Steady s t)
    (hb : t.busy = true ↔ t.seq ≠ .idle)
    (ho : t.seq = .idle ∨ DisplayAt t.seq s.cfg.mode)
    (hl : t.linesAtSeq) (hr : t.registersAtSeq) (ht : TraceOk t) : t.Inv where
  configOk := by rw [same.cfg]; exact h.configOk
  fbShape := by rw [same.fb, same.cfg]; exact h.fbShape
  shShape := by rw [same.sh, same.cfg]; exact h.shShape
  busyIff := hb
  modeOk := by
    rw [same.cfg]
    rcases ho with ho | ho
    · rw [ho]; trivial
    · revert ho; cases s.cfg.mode <;> simp +contextual [DisplayAt, Seq.inMode]
  ownerOk := by
    intro i hi
    rw [same.conn, hc]
    rcases ho with ho | ho
    · rw [ho] at hi; simp [Seq.owner] at hi
    · revert ho; cases s.cfg.mode <;> simp only [DisplayAt, hi, Option.some.injEq] <;> rintro rfl <;> simp
  connectOk := by
    intro k hk
    rcases ho with ho | ho
    · rw [ho] at hk; cases hk
    · revert ho; cases s.cfg.mode <;> simp [DisplayAt, hk, Seq.owner]
  readyOk := fun _ => Ready.of_same same (h.readyOk hc)
  linesOk := hl
  registersOk := hr
  busTraced := ht.bus
  traceOk := ht.allowed
  receiverOk := ht.receiver

theorem same_line {l v} {s t : State} (h : line l v s = .ok t) (hl : l ≠ .rst) (q : Seq) :
    Steady s (t.goto q) := by
  obtain ⟨_, rfl⟩ := line_eq_ok.1 h
  constructor <;> simp [hl]

theorem same_xfer {b} {s t : State} (h : xfer b s = .ok t) : Steady s t := by
  obtain ⟨_, rfl⟩ := xfer_eq_ok.1 h
  constructor <;> simp

/-- congruence in host, opreq, fault -/
theorem inv_congr {s t : State} (h : s.Inv)
    (e : t = { s with host := t.host, opreq := t.opreq, fault := t.fault }) : t.Inv := by
  rw [e]
  exact { h with }

theorem ready_dirs {s : State} (r : s.busReady) : s.dirCs = .output ∧ s.dirDc = .output ∧ s.dirRst =
    .output ∧ s.busBegun = true ∧ s.busClkdiv = .known s.cfg.clkdiv ∧ s.rstN = .known .high := by
  obtain ⟨⟨a1, a2, a3, a4, a5, a6, a7, a8⟩, b⟩ := r
  exact ⟨a2 (by omega), a1 (by omega), a3 (by omega), a4 (by omega), a5 (by omega), a8 rfl⟩

end Sys2Proof.Machine
end

