-- ==== Sys2Proof/Laws/Scan.lean ====
section
/-! SUPPORT. The Mode A scan: what one cell and one page row do to the shadow buffer and to the bounds. -/

namespace Sys2Proof.Machine

def BoundingBox (S : Nat → Nat → Prop) (c0 c1 p0 p1 : Nat) : Prop :=
  (∀ p c, S p c → p0 ≤ p ∧ p ≤ p1 ∧ c0 ≤ c ∧ c ≤ c1)
    ∧ (∃ c, S p0 c) ∧ (∃ c, S p1 c) ∧ (∃ p, S p c0) ∧ ∃ p, S p c1

def BoundsOf (S : Nat → Nat → Prop) (s : State) : Prop :=
  (s.sentinelHeld ∧ ∀ p c, ¬ S p c) ∨
    ∃ c0 c1 p0 p1 : Byte, s.windowHeld c0 c1 p0 p1 ∧ BoundingBox S c0.toNat c1.toNat p0.toNat p1.toNat

theorem BoundsOf.regs {S s} (h : BoundsOf S s) : ∃ a b c d, s.minP = .holds a ∧ s.maxP = .holds b ∧ s.minC =
    .holds c ∧ s.maxC = .holds d := by
  rcases h with ⟨⟨a, b, c, d⟩, _⟩ | ⟨c0, c1, p0, p1, ⟨a, b, c, d, _⟩, _⟩
  · exact ⟨_, _, _, _, c, d, a, b⟩
  · exact ⟨_, _, _, _, c, d, a, b⟩

theorem minByte_toNat (a b : Byte) : (minByte a b).toNat = min a.toNat b.toNat := by
  unfold minByte; split <;> rename_i h <;> rw [BitVec.le_def] at h <;> omega
theorem maxByte_toNat (a b : Byte) : (maxByte a b).toNat = max a.toNat b.toNat := by
  unfold maxByte; split <;> rename_i h <;> rw [BitVec.le_def] at h <;> omega

/-- congruence of BoundsOf in the bounds and cfg -/
theorem BoundsOf.congr {S} {s t : State} (h : BoundsOf S s) (e1 : t.minP = s.minP) (e2 : t.maxP = s.maxP)
    (e3 : t.minC = s.minC)
   (e4 : t.maxC = s.maxC) (ec : t.cfg = s.cfg) : BoundsOf S t := by
  unfold BoundsOf State.sentinelHeld State.windowHeld at *
  rw [e1, e2, e3, e4, ec]; exact h

theorem BoundsOf.mono {S S' : Nat → Nat → Prop} {s : State} (h : BoundsOf S s) (e : ∀ p c, S p c ↔ S' p c) :
    BoundsOf S' s := by
  have : S = S' := by funext p c; exact propext (e p c)
  rw [← this]; exact h

theorem expand_spec {S : Nat → Nat → Prop} {s : State} (h : BoundsOf S s) (p c : Byte)
    (hp : p.toNat < s.cfg.np) (hc : c.toNat < s.cfg.w) :
    ∃ t, expandBounds p c s = .ok t ∧ t = { s with
        minP := t.minP, maxP := t.maxP, minC := t.minC, maxC := t.maxC } ∧
      BoundsOf (fun p' c' => S p' c' ∨ (p' = p.toNat ∧ c' = c.toNat)) t := by
  obtain ⟨a, b, cc, d, h1, h2, h3, h4⟩ := h.regs
  refine ⟨{ s with
    minP := .holds (minByte a p)
    maxP := .holds (maxByte b p)
    minC := .holds (minByte cc c)
    maxC := .holds (maxByte d c) }, by simp [expandBounds, h1, h2, h3, h4], rfl, ?_⟩
  right
  refine ⟨minByte cc c, maxByte d c, minByte a p, maxByte b p, ⟨rfl, rfl, rfl, rfl, ?_⟩, ?_⟩
  · rcases h with ⟨⟨x1, x2, x3, x4⟩, hS⟩ | ⟨c0, c1, p0, p1, ⟨x1, x2, x3, x4, x5, x6, x7, x8⟩, hB⟩
    · rw [h3] at x1; rw [h4] at x2; rw [h1] at x3; rw [h2] at x4
      cases x1; cases x2; cases x3; cases x4
      have := p.isLt; have := c.isLt
      simp only [BitVec.le_def, minByte_toNat, maxByte_toNat]
      simp; omega
    · rw [h3] at x1; rw [h4] at x2; rw [h1] at x3; rw [h2] at x4
      cases x1; cases x2; cases x3; cases x4
      simp only [BitVec.le_def, minByte_toNat, maxByte_toNat] at *
      simp; omega
  · rw [minByte_toNat, minByte_toNat, maxByte_toNat, maxByte_toNat]
    rcases h with ⟨⟨x1, x2, x3, x4⟩, hS⟩ | ⟨c0, c1, p0, p1, ⟨x1, x2, x3, x4, x5, x6, x7, x8⟩,
        ⟨b1, ⟨y2, b2⟩, ⟨y3, b3⟩, ⟨y4, b4⟩, ⟨y5, b5⟩⟩⟩
    · rw [h3] at x1; rw [h4] at x2; rw [h1] at x3; rw [h2] at x4
      cases x1; cases x2; cases x3; cases x4
      have hpl := p.isLt; have hcl := c.isLt
      have e1 : min (255#8).toNat c.toNat = c.toNat := by simp; omega
      have e2 : min (255#8).toNat p.toNat = p.toNat := by simp; omega
      have e3 : max (0#8).toNat c.toNat = c.toNat := by simp
      have e4 : max (0#8).toNat p.toNat = p.toNat := by simp
      rw [e1, e2, e3, e4]
      refine ⟨?_, ⟨c.toNat, .inr ⟨rfl, rfl⟩⟩, ⟨c.toNat, .inr ⟨rfl, rfl⟩⟩, ⟨p.toNat, .inr ⟨rfl, rfl⟩⟩,
          ⟨p.toNat, .inr ⟨rfl, rfl⟩⟩⟩
      rintro p' c' (h | ⟨rfl, rfl⟩)
      · exact absurd h (hS _ _)
      · exact ⟨Nat.le_refl _, Nat.le_refl _, Nat.le_refl _, Nat.le_refl _⟩
    · rw [h3] at x1; rw [h4] at x2; rw [h1] at x3; rw [h2] at x4
      cases x1; cases x2; cases x3; cases x4
      refine ⟨?_, ?_, ?_, ?_, ?_⟩
      · rintro p' c' (h | ⟨rfl, rfl⟩)
        · have := b1 _ _ h; omega
        · omega
      · by_cases hh : a.toNat ≤ p.toNat
        · exact ⟨y2, .inl (by rw [Nat.min_eq_left hh]; exact b2)⟩
        · exact ⟨c.toNat, .inr ⟨by omega, rfl⟩⟩
      · by_cases hh : p.toNat ≤ b.toNat
        · exact ⟨y3, .inl (by rw [Nat.max_eq_left hh]; exact b3)⟩
        · exact ⟨c.toNat, .inr ⟨by omega, rfl⟩⟩
      · by_cases hh : cc.toNat ≤ c.toNat
        · exact ⟨y4, .inl (by rw [Nat.min_eq_left hh]; exact b4)⟩
        · exact ⟨p.toNat, .inr ⟨rfl, by omega⟩⟩
      · by_cases hh : c.toNat ≤ d.toNat
        · exact ⟨y5, .inl (by rw [Nat.max_eq_left hh]; exact b5)⟩
        · exact ⟨p.toNat, .inr ⟨rfl, by omega⟩⟩

/-- sizes and shapes -/
structure ScanShape (s : State) : Prop where
  w1 : 1 ≤ s.cfg.w
  w2 : s.cfg.w ≤ 256
  n1 : 1 ≤ s.cfg.np
  n2 : s.cfg.np ≤ 256
  size : s.cfg.fbSize = s.cfg.w * s.cfg.np
  fb : s.fb.addresses = List.range s.cfg.fbSize
  sh : s.sh.addresses = List.range s.cfg.fbSize

theorem idx_lt {s : State} (h : ScanShape s) {p c : Nat} (hp : p < s.cfg.np) (hc : c < s.cfg.w) :
    s.cfg.idx p c < s.cfg.fbSize := by
  rw [h.size, Config.idx]
  have : (p+1) * s.cfg.w ≤ s.cfg.np * s.cfg.w := Nat.mul_le_mul_right _ hp
  rw [Nat.mul_comm s.cfg.w]
  rw [Nat.succ_mul] at this; omega

theorem scanCell_spec {S : Nat → Nat → Prop} {s : State} (hs : ScanShape s) {p c : BitVec 9}
    (hp : s.p = .holds p) (hc : s.c = .holds c)
    (hpn : p.toNat < s.cfg.np) (hcn : c.toNat < s.cfg.w) (hR : BoundsOf S s) :
    ∃ f g t, s.fb.read (s.cfg.idx p.toNat c.toNat) = some f ∧ s.sh.read (s.cfg.idx p.toNat c.toNat) =
        some g ∧ scanCell s = .ok t ∧
      t = { s with
        minP := t.minP, maxP := t.maxP, minC := t.minC, maxC := t.maxC,
        sh := s.sh.write (s.cfg.idx p.toNat c.toNat) f, c := .holds (c + 1#9) } ∧
      BoundsOf (fun p' c' => S p' c' ∨ (f ≠ g ∧ p' = p.toNat ∧ c' = c.toNat)) t := by
  have hi := idx_lt hs hpn hcn
  obtain ⟨f, hf, hfr⟩ := fbRead_total hs.fb hi
  obtain ⟨g, hg⟩ := Memory.read_of_mem (m := s.sh) (x := s.cfg.idx p.toNat c.toNat)
      (by rw [hs.sh]; simpa using hi)
  have hgr : shRead s (s.cfg.idx p.toNat c.toNat) = .ok g := shRead_eq_ok.2 hg
  by_cases hfg : f = g
  · refine ⟨f, g, { s with sh := s.sh.write (s.cfg.idx p.toNat c.toNat) f, c := .holds (c + 1#9) }, hf, hg,
      ?_, rfl, ?_⟩
    · simp [scanCell, hp, hc, hfr, hgr, noteCell, mismatch, hfg, shWrite]
    · exact (hR.congr rfl rfl rfl rfl rfl).mono (fun p' c' => by simp [hfg])
  · have hw1 := hs.w2; have hn1 := hs.n2
    have ep : (p.setWidth 8 : Byte).toNat = p.toNat := by simp; omega
    have ec : (c.setWidth 8 : Byte).toNat = c.toNat := by simp; omega
    obtain ⟨t, ht, hte, hRt⟩ := expand_spec hR (p.setWidth 8) (c.setWidth 8) (by omega) (by omega)
    refine ⟨f, g, { t with sh := s.sh.write (s.cfg.idx p.toNat c.toNat) f, c := .holds (c + 1#9) }, hf, hg,
        ?_, ?_, ?_⟩
    · have hsh : t.sh = s.sh := by rw [hte]
      have hm : mismatch f g = true := by simp [mismatch, hfg]
      simp only [scanCell, hp, hc, hfr, hgr, noteCell, hm, Reg.get_holds, Res.ok_bind, shWrite, if_true,
          ht, hsh]
    · rw [hte]
    · rw [ep, ec] at hRt
      exact (hRt.congr rfl rfl rfl rfl rfl).mono (fun p' c' => by simp [hfg])

theorem bv9_succ {c : BitVec 9} {n : Nat} (h : c.toNat < n) (hn : n ≤ 256) : (c + 1#9).toNat =
    c.toNat + 1 := by
  simp; omega

/-- the row scan from column c, n cells -/
theorem scanCells_spec (s0 : State) (n : Nat) : ∀ {s : State} {p c : BitVec 9} {S : Nat → Nat → Prop},
    ScanShape s → s.p = .holds p → s.c = .holds c →
    p.toNat < s.cfg.np → c.toNat + n = s.cfg.w → BoundsOf S s → s.cfg = s0.cfg → s.fb = s0.fb →
    (∀ x, s.cfg.idx p.toNat c.toNat ≤ x → s.sh.read x = s0.sh.read x) →
    ∃ t, scanCells n s = .ok t ∧
      t = { s with minP := t.minP, maxP := t.maxP, minC := t.minC, maxC := t.maxC, sh := t.sh, c := t.c } ∧
      t.c = .holds (c + BitVec.ofNat 9 n) ∧
      t.sh.addresses = s.sh.addresses ∧
      (∀ x, t.sh.read x = if s.cfg.idx p.toNat c.toNat ≤ x ∧
          x < s.cfg.idx p.toNat s.cfg.w then s.fb.read x else s.sh.read x) ∧
      BoundsOf (fun p' c' => S p' c' ∨ (p' = p.toNat ∧ c.toNat ≤ c' ∧ c' < s.cfg.w ∧ s0.changed p' c')) t :=
          by
  induction n with
  | zero =>
    intro s p c S hs hp hc hpn hcn hR hcfg hfb hsh
    refine ⟨s, rfl, rfl, by simp [hc], rfl, ?_, hR.mono (fun p' c' => ⟨.inl, ?_⟩)⟩
    · intro x; rw [if_neg]; simp only [Config.idx]; omega
    · rintro (h | ⟨_, h1, h2, _⟩)
      · exact h
      · omega
  | succ n ih =>
    intro s p c S hs hp hc hpn hcn hR hcfg hfb hsh
    obtain ⟨f, g, u, hf, hg, hu, hue, hRu⟩ := scanCell_spec hs hp hc hpn (by omega) hR
    have hlt := idx_lt hs hpn (show c.toNat < s.cfg.w by omega)
    have hsu : ScanShape u := by
      rw [hue]
      exact ⟨hs.w1, hs.w2, hs.n1, hs.n2, hs.size, hs.fb, Memory.addresses_write_range hs.sh hlt f⟩
    have hcs : (c + 1#9).toNat = c.toNat + 1 := bv9_succ (n := s.cfg.w) (by omega) hs.w2
    have hshu : u.sh = s.sh.write (s.cfg.idx p.toNat c.toNat) f := by rw [hue]
    have hcfgu : u.cfg = s.cfg := by rw [hue]
    have hfbu : u.fb = s.fb := by rw [hue]
    obtain ⟨t, ht, hte, htc, hta, htr, hRt⟩ :=
        ih (s := u) (p := p) (c := c + 1#9) hsu (by rw [hue]; exact hp) (by rw [hue])
      (by rw [hcfgu]; exact hpn) (by rw [hcfgu, hcs]; omega) hRu (by rw [hcfgu, hcfg]) (by rw [hfbu, hfb])
          (by
        intro x hx
        rw [hcfgu, hcs] at hx
        rw [hshu, Memory.read_write_other]
        · apply hsh; simp only [Config.idx] at *; omega
        · simp only [Config.idx] at *; omega)
    refine ⟨t, by simp [scanCells, hu, ht], ?_, ?_, ?_, ?_, ?_⟩
    · rw [hte, hue]
    · rw [htc]; congr 1
      apply BitVec.eq_of_toNat_eq; simp; omega
    · rw [hta, hshu]
      rw [Memory.addresses_write_range hs.sh hlt, hs.sh]
    · intro x
      rw [htr x, hcs, hcfgu, hfbu, hshu]
      by_cases hx : x = s.cfg.idx p.toNat c.toNat
      · subst hx
        rw [if_neg (by simp only [Config.idx]; omega), if_pos (by simp only [Config.idx]; omega),
            Memory.read_write_same, hf]
      · rw [Memory.read_write_other _ hx]
        have : (s.cfg.idx p.toNat (c.toNat+1) ≤ x ∧ x < s.cfg.idx p.toNat s.cfg.w) ↔
            (s.cfg.idx p.toNat c.toNat ≤ x ∧ x < s.cfg.idx p.toNat s.cfg.w) := by
          simp only [Config.idx] at *; omega
        simp only [this]
    · refine hRt.mono (fun p' c' => ?_)
      have hch : s0.changed p.toNat c.toNat ↔ f ≠ g := by
        unfold State.changed
        rw [← hcfg, ← hfb, hf, ← hsh _ (Nat.le_refl _), hg]; simp
      rw [hcs, hcfgu]
      constructor
      · rintro ((h | ⟨h1, rfl, rfl⟩) | ⟨rfl, h2, h3, h4⟩)
        · exact .inl h
        · exact .inr ⟨rfl, Nat.le_refl _, by omega, hch.2 h1⟩
        · exact .inr ⟨rfl, by omega, h3, h4⟩
      · rintro (h | ⟨rfl, h2, h3, h4⟩)
        · exact .inl (.inl h)
        · by_cases he : c' = c.toNat
          · subst he; exact .inl (.inr ⟨hch.1 h4, rfl, rfl⟩)
          · exact .inr ⟨rfl, by omega, h3, h4⟩

theorem shape_of_inv {s : State} (h : s.Inv) (hm : s.cfg.mode = .tracked) : ScanShape s := by
  obtain ⟨a, b, c, d, e, f, _⟩ := wf_facts h.configOk
  exact ⟨a, b, c, d, f, h.fbShape, by rw [h.shShape, if_pos hm]⟩

/-- result of a row scan -/
theorem scanRow_spec (s0 : State) {s : State} {p : BitVec 9} {S} (hs : ScanShape s) (hp : s.p = .holds p)
    (hpn : p.toNat < s.cfg.np)
    (hR : BoundsOf S s) (hcfg : s.cfg = s0.cfg) (hfb : s.fb = s0.fb)
        (hsh : ∀ x, s.cfg.idx p.toNat 0 ≤ x → s.sh.read x = s0.sh.read x) :
    ∃ t, scanRow s = .ok t ∧
      t = { s with
        minP := t.minP, maxP := t.maxP, minC := t.minC, maxC := t.maxC, sh := t.sh, c := t.c,
        p := .holds (p + 1#9), seq := t.seq, trace := s.trace ++ [.yield] } ∧
      t.c = .holds (BitVec.ofNat 9 s.cfg.w) ∧
      t.sh.addresses = s.sh.addresses ∧
      (∀ x, t.sh.read x = if s.cfg.idx p.toNat 0 ≤ x ∧
          x < s.cfg.idx p.toNat s.cfg.w then s.fb.read x else s.sh.read x) ∧
      BoundsOf (fun p' c' => S p' c' ∨ (p' = p.toNat ∧ c' < s.cfg.w ∧ s0.changed p' c')) t ∧
      ((p.toNat + 1 < s.cfg.np ∧ t.seq = .scan) ∨
       (p.toNat + 1 = s.cfg.np ∧ t.seq = .a4 ∧ t.sentinelHeld) ∨
       (p.toNat + 1 = s.cfg.np ∧ t.seq = .cmd .tracked .colOp .deselect ∧ ∃ c0 c1 p0 p1,
           t.windowHeld c0 c1 p0 p1)) := by
  obtain ⟨t, ht, hte, htc, hta, htr, hRt⟩ := scanCells_spec s0 s.cfg.w (s := { s with c := .holds 0#9 })
      (p := p) (c := 0#9) (S := S)
    ⟨hs.w1, hs.w2, hs.n1, hs.n2, hs.size, hs.fb, hs.sh⟩ hp rfl hpn (by simp)
        (hR.congr rfl rfl rfl rfl rfl) hcfg hfb (by simpa using hsh)
  have hcfgt : t.cfg = s.cfg := by rw [hte]
  have hpt : t.p = .holds p := by rw [hte]; exact hp
  have hp1 := bv9_succ hpn hs.n2
  let v : State := { t.emit .yield with p := .holds (p + 1#9) }
  have hv : BoundsOf (fun p' c' => S p' c' ∨ (p' = p.toNat ∧ c' < s.cfg.w ∧ s0.changed p' c')) v := by
    refine (BoundsOf.congr (t := v) hRt rfl rfl rfl rfl rfl).mono (fun p' c' => by simp)
  have hbase : scanRow s = if (p + 1#9).toNat < s.cfg.np then .ok (v.goto .scan)
     else (do
       let empty ← emptyFrame v
       .ok (v.goto (if empty then .a4 else .cmd .tracked .colOp .deselect))) := by
    simp only [scanRow, ht, yieldPoint, Res.ok_bind, State.emit_p, hpt, Reg.get_holds]
    simp only [State.emit_cfg, hcfgt, v]
  have hveq : ∀ q, v.goto q = { s with
      minP := (v.goto q).minP, maxP := (v.goto q).maxP, minC := (v.goto q).minC, maxC :=
      (v.goto q).maxC, sh := (v.goto q).sh, c := (v.goto q).c, p := .holds (p + 1#9), seq := q, trace :=
      s.trace ++ [.yield] } := by
    intro q; simp only [v, State.goto, State.emit]; rw [hte]
  by_cases hlt : (p + 1#9).toNat < s.cfg.np
  · refine ⟨v.goto .scan, by rw [hbase, if_pos hlt], hveq _, by simpa [v] using htc, by simpa [v] using hta,
      by simpa [v] using htr, hv.congr rfl rfl rfl rfl rfl, .inl ⟨by omega, rfl⟩⟩
  · obtain ⟨a, b, c, d, h1, h2, h3, h4⟩ := hv.regs
    have hem : emptyFrame v = .ok (decide (b < a)) := by simp [emptyFrame, h1, h2]
    refine ⟨v.goto (if decide (b < a) = true then .a4 else .cmd .tracked .colOp .deselect),
        by rw [hbase, if_neg hlt, hem]; rfl, hveq _, by simpa [v] using htc, by simpa [v] using hta,
        by simpa [v] using htr, hv.congr rfl rfl rfl rfl rfl, .inr ?_⟩
    rcases hv with ⟨hsen, _⟩ | ⟨c0, c1, p0, p1, hw, _⟩
    · left
      have hba : b < a := by
        obtain ⟨_, _, e3, e4⟩ := hsen
        rw [h1] at e3; rw [h2] at e4; cases e3; cases e4; decide
      exact ⟨by omega, by simp [hba], hsen⟩
    · right
      have hba : ¬ b < a := by
        obtain ⟨_, _, e3, e4, _, _, e5, _⟩ := hw
        rw [h1] at e3; rw [h2] at e4; cases e3; cases e4
        rw [BitVec.le_def] at e5; rw [BitVec.lt_def]; omega
      exact ⟨by omega, by simp [hba], c0, c1, p0, p1, hw⟩

end Sys2Proof.Machine
end

