-- ==== Sys2Proof/Laws/Display.lean ====
section
/-! SUPPORT. The loop control of the data runs, and each statement of DISPLAY from a state that meets the invariant. -/

namespace Sys2Proof.Machine

theorem traceOk_yield {s t : State} (h : TraceOk s) (ht : t.trace = s.trace ++ [.yield])
    (hb : t.bus = s.bus) (hr : t.rx = s.rx) (hc : t.cfg = s.cfg) : TraceOk t :=
  h.append (e := .yield) rfl ht (by rw [hb]; rfl) rfl hr hc

theorem same_of_row {s t : State} {p : Reg 9} {tr}
    (h : t = { s with
      minP := t.minP, maxP := t.maxP, minC := t.minC, maxC := t.maxC, sh := t.sh, c := t.c, p := p,
      seq := t.seq, trace := tr })
    (hsh : t.sh.addresses = s.sh.addresses) : Steady s t := by
  constructor <;> first | exact hsh | (rw [h])

theorem row_inv {s s' : State} (h : s.Inv) (hm : s.cfg.mode = .tracked) (hc : s.connected = true)
    (hseq : s.seq ≠ .idle)
   (hs' : s' = { s with minP := s'.minP, maxP := s'.maxP, minC := s'.minC, maxC := s'.maxC, p := s'.p })
   {p : BitVec 9} {S} (hp : s'.p = .holds p) (hpn : p.toNat < s'.cfg.np) (hR : BoundsOf S s') :
   ∃ t, scanRow s' = .ok t ∧ t.Inv ∧ Steady s t := by
  have hcfg : s'.cfg = s.cfg := by rw [hs']
  have hsh : ScanShape s' := by
    have := shape_of_inv h hm
    rw [hs']; exact ⟨this.w1, this.w2, this.n1, this.n2, this.size, this.fb, this.sh⟩
  obtain ⟨t, ht, hte, htc, hta, htr, hRt, hcase⟩ := scanRow_spec s' hsh hp hpn hR rfl rfl (fun _ _ => rfl)
  have same' : Steady s' t := same_of_row hte hta
  have same0 : Steady s s' := by constructor <;> rw [hs']
  have same := same0.trans same'
  have hbusy : t.busy = true := by
    rw [hte, hs']; exact h.busyIff.2 hseq
  have hP : t.p = .holds (p + 1#9) := by rw [hte]
  have hcfgt : t.cfg = s.cfg := same.cfg
  refine ⟨t, ht, ?_, same⟩
  refine display_inv h hc same ?_ ?_ ?_ ?_ ?_
  · rw [hbusy]; rcases hcase with ⟨_, e⟩ | ⟨_, e, _⟩ | ⟨_, e, _⟩ <;> simp [e]
  · right; rw [hm]; rcases hcase with ⟨_, e⟩ | ⟨_, e, _⟩ | ⟨_, e, _⟩ <;> simp [e, DisplayAt, Seq.owner]
  · rcases hcase with ⟨_, e⟩ | ⟨_, e, _⟩ | ⟨_, e, _⟩ <;> simp [State.linesAtSeq, e]
  · rcases hcase with ⟨hlt, e⟩ | ⟨_, e, _⟩ | ⟨_, e, hw⟩
    · simp only [State.registersAtSeq, e]
      refine ⟨⟨_, hP, ?_⟩, ?_⟩
      · rw [bv9_succ hpn hsh.n2, hcfgt, ← hcfg]; exact hlt
      · rcases hRt with ⟨a, _⟩ | ⟨c0, c1, p0, p1, a, _⟩
        · exact .inl a
        · exact .inr ⟨_, _, _, _, a⟩
    · simp [State.registersAtSeq, e]
    · simp only [State.registersAtSeq, e]; exact hw
  · exact traceOk_yield h.traceHalf (by rw [hte, hs'])
      (by simp only [State.bus, same.dirCs, same.dirDc, same.dirRst, same.rstN, same.begun, same.clk]; rw
      [hte, hs']) (by rw [hte, hs']) hcfgt

/-- column test / page test results -/
theorem columnTest_spec {s : State} {c : BitVec 9} {m : Byte} (hc : s.c = .holds c)
    (hm : s.maxC = .holds m) :
    columnTest s = .ok (s.goto (if c.toNat ≤ m.toNat then .a8 else .a9)) := by simp [columnTest, hc, hm]

theorem columnTest_set {s : State} {c : BitVec 9} {m : Byte} (hm : s.maxC = .holds m) :
    columnTest { s with c := .holds c } = .ok { s with
        c := .holds c, seq := if c.toNat ≤ m.toNat then .a8 else .a9 } := by
  unfold columnTest
  have h1 : ({ s with c := .holds c } : State).maxC.get = .ok m := by show s.maxC.get = _; rw [hm]; rfl
  rw [h1]; rfl

theorem line_bus {l v} {s t : State} {q} (h : line l v s = .ok t) : (t.goto q).busy = s.busy ∧
    (t.goto q).seq = q := by
  obtain ⟨_, rfl⟩ := line_eq_ok.1 h; simp

theorem win_line {l v} {s t : State} {q} (h : line l v s = .ok t) {c0 c1 p0 p1}
    (w : s.windowHeld c0 c1 p0 p1) : (t.goto q).windowHeld c0 c1 p0 p1 := by
  obtain ⟨_, rfl⟩ := line_eq_ok.1 h; simpa [State.windowHeld] using w

theorem dir_out {s : State} (r : s.busReady) (l : Line) : s.dir l = .output := by
  obtain ⟨a, b, c, _⟩ := ready_dirs r
  cases l <;> simp [State.dir, a, b, c]

/-- a line statement of DISPLAY -/
theorem line_step {s : State} (h : s.Inv) (hc : s.connected = true) (hseq : s.seq ≠ .idle) (l : Line)
    (v : Level) (hl : l ≠ .rst)
   (hd : l = .dc → s.csN = .known .high) (q : Seq) (hq : q ≠ .idle) (ho : DisplayAt q s.cfg.mode)
   (hlines : (((s.setLvl l v).emit (.lvl l v)).goto q).linesAtSeq)
       (hregs : (((s.setLvl l v).emit (.lvl l v)).goto q).registersAtSeq) :
   ∃ t, line l v s = .ok t ∧ (t.goto q).Inv ∧ Steady s (t.goto q) := by
  have hdir := dir_out (h.readyOk hc) l
  refine ⟨_, line_ok hdir, ?_, same_line (line_ok hdir) hl q⟩
  have ht := h.traceHalf.line (line_ok (v := v) hdir) hd
  refine display_inv h hc (same_line (line_ok hdir) hl q) ?_ (.inr ho) hlines hregs
      (ht.congr rfl rfl rfl rfl)
  have := h.busyIff.2 hseq
  simp [this, hq]

theorem ownerConn {s : State} (h : s.Inv) {i} (e : s.seq.owner = some i) (hi : i ≠ .connect) : s.connected =
    true := by
  have := h.ownerOk i e
  by_contra hc
  exact hi (this.2 (by simpa using hc))

theorem owner_mode {s : State} (h : s.Inv) : (s.seq.owner = some .displayTracked → s.cfg.mode = .tracked) ∧
    (s.seq.owner = some .displayFull → s.cfg.mode = .full) := by
  have := h.modeOk
  constructor <;> intro e <;> simpa [Seq.inMode, e] using this

theorem cmd_mode {s : State} (h : s.Inv) {m slot st} (e : s.seq = .cmd m slot st) : s.cfg.mode = m := by
  cases m
  · exact (owner_mode h).1 (by rw [e]; rfl)
  · exact (owner_mode h).2 (by rw [e]; rfl)

theorem slotByte_ok {s : State} (h : s.Inv) {m slot st} (e : s.seq = .cmd m slot st) : ∃ b,
    slotByte m slot s = .ok b := by
  cases m
  · have := h.registersOk
    simp only [State.registersAtSeq, e] at this
    obtain ⟨c0, c1, p0, p1, a, b, c, d, _⟩ := this
    cases slot <;> simp [slotByte, a, b, c, d]
  · cases slot <;> simp [slotByte]

theorem seqDisp_cmd (m : Mode) (slot st) : DisplayAt (.cmd m slot st) m := by cases m <;> rfl
theorem seqDisp_after (m : Mode) (slot) : DisplayAt (Seq.afterBracket m slot) m := by
  cases m <;> cases slot <;> rfl

theorem regs_cmd {s : State} (h : s.Inv) {m slot st} (e : s.seq = .cmd m slot st) : m = .tracked →
    ∃ c0 c1 p0 p1, s.windowHeld c0 c1 p0 p1 := by
  rintro rfl
  have := h.registersOk
  simpa only [State.registersAtSeq, e] using this

theorem regs_of {t : State} {m} {q : Seq} (hq : t.seq = q)
    (hform : (∃ slot st, q = .cmd m slot st) ∨ (∃ st, q = .dopen m st))
    (hw : m = .tracked → ∃ c0 c1 p0 p1, t.windowHeld c0 c1 p0 p1) : t.registersAtSeq := by
  rcases hform with ⟨slot, st, rfl⟩ | ⟨st, rfl⟩ <;> cases m <;> simp only [State.registersAtSeq, hq] <;>
      exact hw rfl

theorem after_form (m slot) : (∃ slot' st, Seq.afterBracket m slot = .cmd m slot' st) ∨
    (∃ st, Seq.afterBracket m slot = .dopen m st) := by
  cases slot <;> simp [Seq.afterBracket, CmdSlot.next]

theorem after_ne (m slot) : Seq.afterBracket m slot ≠ .idle := by
  cases slot <;> simp [Seq.afterBracket, CmdSlot.next]

theorem cmd_progress {s : State} (h : s.Inv) {m slot st} (e : s.seq = .cmd m slot st) (b : Byte) :
    ∃ t, sendCommand b s = .ok t ∧ t.Inv ∧ Steady s t := by
  have hm := cmd_mode h e
  have hc : s.connected = true := by
    cases m
    · exact ownerConn h (i := .displayTracked) (by rw [e]; rfl) (by simp)
    · exact ownerConn h (i := .displayFull) (by rw [e]; rfl) (by simp)
  have hne : s.seq ≠ .idle := by rw [e]; simp
  have hw := regs_cmd h e
  have hlin := h.linesOk
  simp only [State.linesAtSeq, e] at hlin
  have hwin : ∀ {l v q}, m = .tracked → ∃ c0 c1 p0 p1,
      (((s.setLvl l v).emit (.lvl l v)).goto q).windowHeld c0 c1 p0 p1 := by
    intro l v q hmt; obtain ⟨a, b, c, d, w⟩ := hw hmt
    exact ⟨a, b, c, d, by simpa [State.windowHeld] using w⟩
  cases st with
  | deselect =>
    obtain ⟨t, ht, hi, hsame⟩ := line_step h hc hne .cs .high (by simp) (by simp) (.cmd m slot .command)
        (by simp) (by rw [hm]; exact seqDisp_cmd _ _ _)
      (by simp [State.linesAtSeq]) (regs_of (m := m) rfl (.inl ⟨_, _, rfl⟩) hwin)
    exact ⟨_, by simp [sendCommand, e, bracketStatement, ht, Seq.afterStatement], hi, hsame⟩
  | command =>
    obtain ⟨t, ht, hi, hsame⟩ := line_step h hc hne .dc .low (by simp) (fun _ => hlin) (.cmd m slot .select)
        (by simp) (by rw [hm]; exact seqDisp_cmd _ _ _)
      (by simp [State.linesAtSeq, hlin]) (regs_of (m := m) rfl (.inl ⟨_, _, rfl⟩) hwin)
    exact ⟨_, by simp [sendCommand, e, bracketStatement, ht, Seq.afterStatement], hi, hsame⟩
  | select =>
    obtain ⟨t, ht, hi, hsame⟩ := line_step h hc hne .cs .low (by simp) (by simp) (.cmd m slot .transfer)
        (by simp) (by rw [hm]; exact seqDisp_cmd _ _ _)
      (by simp [State.linesAtSeq, hlin]) (regs_of (m := m) rfl (.inl ⟨_, _, rfl⟩) hwin)
    exact ⟨_, by simp [sendCommand, e, bracketStatement, ht, Seq.afterStatement], hi, hsame⟩
  | transfer =>
    obtain ⟨d1, d2, d3, hb, hk, hr⟩ := ready_dirs (h.readyOk hc)
    have hx := xfer_ok (b := b) hb
    have ht := h.traceHalf.xfer hx (by simp [eventAllowed, State.bus, hlin, hr, hb, hk])
    refine ⟨_, by simp [sendCommand, e, bracketStatement, hx, Seq.afterStatement]; rfl, ?_, ?_⟩
    · refine display_inv h hc ?_ ?_ (.inr ?_) ?_ ?_ (ht.congr rfl rfl rfl rfl)
      · constructor <;> simp
      · simp [h.busyIff.2 hne]
      · simp only [State.goto_seq]; rw [hm]; exact seqDisp_cmd _ _ _
      · simp [State.linesAtSeq, hlin]
      · refine regs_of (m := m) rfl (.inl ⟨_, _, rfl⟩) (fun hmt => ?_)
        obtain ⟨a, b, c, d, w⟩ := hw hmt
        exact ⟨a, b, c, d, by simpa [State.windowHeld] using w⟩
    · constructor <;> simp
  | release =>
    obtain ⟨t, ht, hi, hsame⟩ := line_step h hc hne .cs .high (by simp) (by simp) (Seq.afterBracket m slot)
        (after_ne _ _) (by rw [hm]; exact seqDisp_after _ _)
      (by cases slot <;> simp [State.linesAtSeq, Seq.afterBracket, CmdSlot.next])
          (regs_of (m := m) rfl (after_form _ _) hwin)
    exact ⟨_, by simp [sendCommand, e, bracketStatement, ht, Seq.afterStatement], hi, hsame⟩

/-- control-only update of data registers -/
theorem pageTest_spec {s : State} {p : BitVec 9} {c0 c1 p0 p1 : Byte} (hp : s.p = .holds p)
    (hw : s.windowHeld c0 c1 p0 p1) :
    pageTest s = .ok (if p.toNat ≤ p1.toNat then { s with c := .holds (c0.setWidth 9), seq := .a8 } else
        { s with seq := .dclose .tracked .deselect }) := by
  obtain ⟨a, b, c, d, e, f, g, i⟩ := hw
  have e' : c0.toNat ≤ c1.toNat := e
  unfold pageTest
  have hc0 : (c0.setWidth 9).toNat = c0.toNat := by simp; omega
  have h1 : s.p.get = .ok p := by rw [hp]; rfl
  have h2 : s.maxP.get = .ok p1 := by rw [d]; rfl
  have h3 : s.minC.get = .ok c0 := by rw [a]; rfl
  rw [h1, Res.ok_bind, h2, Res.ok_bind]
  by_cases hlt : p.toNat ≤ p1.toNat
  · rw [if_pos hlt, if_pos hlt, h3, Res.ok_bind]
    rw [columnTest_set b, if_pos (by omega)]
  · rw [if_neg hlt, if_neg hlt]; rfl

/-- generic: after one bus-neutral control change from a state u (post-event), Inv -/
theorem dopen_select_spec {s : State} (h : s.Inv) {m} (e : s.seq = .dopen m .select) : ∃ t,
    dopenStep m .select s = .ok t ∧ t.Inv ∧ Steady s t := by
  have hm : s.cfg.mode = m := by
    cases m
    · exact (owner_mode h).1 (by rw [e]; rfl)
    · exact (owner_mode h).2 (by rw [e]; rfl)
  have hc : s.connected = true := by
    cases m
    · exact ownerConn h (i := .displayTracked) (by rw [e]; rfl) (by simp)
    · exact ownerConn h (i := .displayFull) (by rw [e]; rfl) (by simp)
  have hne : s.seq ≠ .idle := by rw [e]; simp
  have hlin := h.linesOk
  simp only [State.linesAtSeq, e] at hlin
  have hdir := dir_out (h.readyOk hc) .cs
  have hl := line_ok (v := .low) hdir
  have ht := h.traceHalf.line hl (by simp)
  have hbusy := h.busyIff.2 hne
  obtain ⟨a, b, c, d, e1, f, g, hper, hyp⟩ := wf_facts h.configOk
  cases m with
  | tracked =>
    have := h.registersOk
    simp only [State.registersAtSeq, e] at this
    obtain ⟨c0, c1, p0, p1, hw⟩ := this
    have hw' := hw
    obtain ⟨w1, w2, w3, w4, w5, w6, w7, w8⟩ := hw'
    have hp0 : (p0.setWidth 9).toNat = p0.toNat := by simp; omega
    have hc0 : (c0.setWidth 9).toNat = c0.toNat := by simp; omega
    have key : dopenStep .tracked .select s = .ok { ((s.setLvl .cs .low).emit (.lvl .cs .low)) with
        p := .holds (p0.setWidth 9), c := .holds (c0.setWidth 9), seq := .a8 } := by
      simp only [dopenStep, hl, Res.ok_bind, enterTrackedRun, State.emit_minP, State.setLvl_minP, w3,
          Reg.get_holds]
      rw [pageTest_spec (p := p0.setWidth 9) (c0 := c0) (c1 := c1) (p0 := p0) (p1 := p1) rfl
          (by simpa [State.windowHeld, w3] using hw)]
      rw [if_pos (by rw [hp0]; exact w7)]
    refine ⟨_, key, ?_, ?_⟩
    · refine display_inv h hc ?_ ?_ (.inr (by rw [hm]; rfl)) ?_ ?_ (ht.congr rfl rfl rfl rfl)
      · constructor <;> simp
      · simp [hbusy]
      · simp [State.linesAtSeq, hlin]
      · simp only [State.registersAtSeq]
        refine ⟨c0, c1, p0, p1, by simpa [State.windowHeld] using hw, _, _, rfl, rfl, ?_⟩
        rw [hp0, hc0]; exact ⟨Nat.le_refl _, w7, Nat.le_refl _, w5⟩
    · constructor <;> simp
  | full =>
    have hpos : 0 < s.cfg.fbSize := by rw [f]; exact Nat.mul_pos a c
    have key : dopenStep .full .select s = .ok { ((s.setLvl .cs .low).emit (.lvl .cs .low)) with
        i := .holds 0#17, seq := .b4 } := by
      simp only [dopenStep, hl, Res.ok_bind, enterFullRun, byteTest, Reg.get_holds]
      simp [hpos, State.goto]
    refine ⟨_, key, ?_, ?_⟩
    · refine display_inv h hc ?_ ?_ (.inr (by rw [hm]; rfl)) ?_ ?_ (ht.congr rfl rfl rfl rfl)
      · constructor <;> simp
      · simp [hbusy]
      · simp [State.linesAtSeq, hlin]
      · simp [State.registersAtSeq, hpos]
    · constructor <;> simp

theorem nextByte_spec {s : State} {i : BitVec 17} (hi : s.i = .holds i) (hlt : i.toNat < s.cfg.fbSize)
    (hb : s.cfg.fbSize ≤ 65536) :
   nextByte s = .ok { s with
       i := .holds (i + 1#17), seq :=
       if i.toNat + 1 < s.cfg.fbSize then .b4 else .dclose .full .deselect } := by
  have : (i + 1#17).toNat = i.toNat + 1 := by simp; omega
  have h1 : s.i.get = .ok i := by rw [hi]; rfl
  rw [nextByte, h1, Res.ok_bind, byteTest]
  simp only [Reg.get_holds, Res.ok_bind, this]; rfl

theorem fbsize_le {s : State} (h : s.Inv) : s.cfg.fbSize ≤ 65536 := by
  obtain ⟨a, b, c, d, e1, f, g, hper, hyp⟩ := wf_facts h.configOk
  rw [f]; exact Nat.mul_le_mul b d

theorem afterByte_spec {s : State} {i : BitVec 17} (hi : s.i = .holds i) (hlt : i.toNat < s.cfg.fbSize)
    (hb : s.cfg.fbSize ≤ 65536) :
   afterByte s = .ok (if (i.toNat+1) % s.cfg.yieldPeriodB = 0 then { s with seq := .b4Yield } else { s with
       i := .holds (i + 1#17), seq :=
       if i.toNat + 1 < s.cfg.fbSize then .b4 else .dclose .full .deselect }) := by
  have h1 : s.i.get = .ok i := by rw [hi]; rfl
  rw [afterByte, h1, Res.ok_bind]
  split
  · rfl
  · rw [nextByte_spec hi hlt hb]

theorem nextColumn_spec {s : State} {c : BitVec 9} {m : Byte} (hc : s.c = .holds c) (hm : s.maxC = .holds m)
    (hle : c.toNat ≤ m.toNat) :
   nextColumn s = .ok { s with c := .holds (c + 1#9), seq := if c.toNat + 1 ≤ m.toNat then .a8 else .a9 } :=
       by
  have : (c + 1#9).toNat = c.toNat + 1 := by simp; omega
  have h1 : s.c.get = .ok c := by rw [hc]; rfl
  rw [nextColumn, h1, Res.ok_bind, columnTest_set hm, this]

theorem a8_progress {s : State} (h : s.Inv) (e : s.seq = .a8) (b : Byte) : ∃ t, sendData b s = .ok t ∧
    t.Inv ∧ Steady s t := by
  have hm : s.cfg.mode = .tracked := (owner_mode h).1 (by rw [e]; rfl)
  have hc : s.connected = true := ownerConn h (i := .displayTracked) (by rw [e]; rfl) (by simp)
  have hne : s.seq ≠ .idle := by rw [e]; simp
  have hlin := h.linesOk
  have hreg := h.registersOk
  simp only [State.linesAtSeq, e] at hlin
  simp only [State.registersAtSeq, e] at hreg
  obtain ⟨c0, c1, p0, p1, hw, p, c, hp, hcc, q1, q2, q3, q4⟩ := hreg
  obtain ⟨d1, d2, d3, hb, hk, hr⟩ := ready_dirs (h.readyOk hc)
  have hx := xfer_ok (b := b) hb
  have ht := h.traceHalf.xfer hx (by simp [eventAllowed, State.bus, hlin, hr, hb, hk])
  have hbusy := h.busyIff.2 hne
  obtain ⟨w1, w2, w3, w4, w5, w6, w7, w8⟩ := id hw
  have hcs : (c + 1#9).toNat = c.toNat + 1 := by simp; omega
  have key : sendData b s = .ok { s.sent b with
      c := .holds (c + 1#9), seq := if c.toNat + 1 ≤ c1.toNat then .a8 else .a9 } := by
    simp only [sendData, e, hx, Res.ok_bind]; rw
        [nextColumn_spec (s := s.sent b) (c := c) (m := c1) hcc w2 q4]
  have hw2 : ∀ q, ({ s.sent b with c := .holds (c + 1#9), seq := q } : State).windowHeld c0 c1 p0 p1 :=
      fun q => hw
  by_cases hle : c.toNat + 1 ≤ c1.toNat
  · rw [if_pos hle] at key
    refine ⟨_, key, ?_, by constructor <;> simp⟩
    refine display_inv h hc (by constructor <;> simp) (by simp [hbusy]) (.inr (by rw [hm]; rfl))
        (by simp [State.linesAtSeq, hlin]) ?_ (ht.congr rfl rfl rfl rfl)
    exact ⟨c0, c1, p0, p1, hw2 _, p, c+1#9, hp, rfl, q1, q2, by omega, by omega⟩
  · rw [if_neg hle] at key
    refine ⟨_, key, ?_, by constructor <;> simp⟩
    refine display_inv h hc (by constructor <;> simp) (by simp [hbusy]) (.inr (by rw [hm]; rfl))
        (by simp [State.linesAtSeq, hlin]) ?_ (ht.congr rfl rfl rfl rfl)
    exact ⟨c0, c1, p0, p1, hw2 _, p, hp, q1, q2⟩

theorem a9_progress {s : State} (h : s.Inv) (e : s.seq = .a9) : ∃ t, (do nextPage (← yieldPoint s)) =
    (.ok t : Res State) ∧ t.Inv ∧ Steady s t := by
  have hm : s.cfg.mode = .tracked := (owner_mode h).1 (by rw [e]; rfl)
  have hc : s.connected = true := ownerConn h (i := .displayTracked) (by rw [e]; rfl) (by simp)
  have hne : s.seq ≠ .idle := by rw [e]; simp
  have hlin := h.linesOk
  have hreg := h.registersOk
  simp only [State.linesAtSeq, e] at hlin
  simp only [State.registersAtSeq, e] at hreg
  obtain ⟨c0, c1, p0, p1, hw, p, hp, q1, q2⟩ := hreg
  have hbusy := h.busyIff.2 hne
  obtain ⟨w1, w2, w3, w4, w5, w6, w7, w8⟩ := id hw
  have w5' : c0.toNat ≤ c1.toNat := w5
  have hps : (p + 1#9).toNat = p.toNat + 1 := by simp; omega
  have hc0 : (c0.setWidth 9).toNat = c0.toNat := by simp; omega
  refine ⟨_, by
    simp only [yieldPoint, Res.ok_bind, nextPage, State.emit_p, hp, Reg.get_holds]
    rw [pageTest_spec (p := p + 1#9) (c0 := c0) (c1 := c1) (p0 := p0) (p1 := p1) rfl
        (by simpa [State.windowHeld] using hw)], ?_, ?_⟩
  · refine display_inv h hc ?_ ?_ (.inr ?_) ?_ ?_ (traceOk_yield h.traceHalf ?_ ?_ ?_ ?_)
    · split <;> constructor <;> simp
    · split <;> simp [hbusy]
    · rw [hm]; split <;> rfl
    · split <;> simp [State.linesAtSeq, hlin]
    · split
      · rename_i hle
        simp only [State.registersAtSeq]
        exact ⟨c0, c1, p0, p1, by simpa [State.windowHeld] using hw, p+1#9, _, rfl, rfl, by omega, by omega,
            by omega, by omega⟩
      · simp [State.registersAtSeq]
    all_goals (split <;> simp [State.bus])
  · split <;> constructor <;> simp

theorem b4_progress {s : State} (h : s.Inv) (e : s.seq = .b4) (b : Byte) : ∃ t, sendData b s = .ok t ∧
    t.Inv ∧ Steady s t := by
  have hm : s.cfg.mode = .full := (owner_mode h).2 (by rw [e]; rfl)
  have hc : s.connected = true := ownerConn h (i := .displayFull) (by rw [e]; rfl) (by simp)
  have hne : s.seq ≠ .idle := by rw [e]; simp
  have hlin := h.linesOk
  have hreg := h.registersOk
  simp only [State.linesAtSeq, e] at hlin
  simp only [State.registersAtSeq, e] at hreg
  obtain ⟨i, hi, hlt⟩ := hreg
  obtain ⟨d1, d2, d3, hb, hk, hr⟩ := ready_dirs (h.readyOk hc)
  have hx := xfer_ok (b := b) hb
  have ht := h.traceHalf.xfer hx (by simp [eventAllowed, State.bus, hlin, hr, hb, hk])
  have hbusy := h.busyIff.2 hne
  have hle := fbsize_le h
  have his : (i + 1#17).toNat = i.toNat + 1 := by simp; omega
  have key : sendData b s =
      .ok (if (i.toNat+1) % s.cfg.yieldPeriodB = 0 then { s.sent b with
      seq := .b4Yield } else { s.sent b with
      i := .holds (i + 1#17), seq :=
      if i.toNat + 1 < s.cfg.fbSize then .b4 else .dclose .full .deselect }) := by
    simp only [sendData, e, hx, Res.ok_bind]; rw [afterByte_spec (s := s.sent b) (i := i) hi hlt hle]; rfl
  by_cases hy : (i.toNat+1) % s.cfg.yieldPeriodB = 0
  · rw [if_pos hy] at key
    refine ⟨_, key, ?_, by constructor <;> simp⟩
    refine display_inv h hc (by constructor <;> simp) (by simp [hbusy]) (.inr (by rw [hm]; rfl))
        (by simp [State.linesAtSeq, hlin]) ?_ (ht.congr rfl rfl rfl rfl)
    simp only [State.registersAtSeq]; exact ⟨i, hi, hlt⟩
  · rw [if_neg hy] at key
    by_cases hlt2 : i.toNat + 1 < s.cfg.fbSize
    · rw [if_pos hlt2] at key
      refine ⟨_, key, ?_, by constructor <;> simp⟩
      refine display_inv h hc (by constructor <;> simp) (by simp [hbusy]) (.inr (by rw [hm]; rfl))
          (by simp [State.linesAtSeq, hlin]) ?_ (ht.congr rfl rfl rfl rfl)
      simp only [State.registersAtSeq]; exact ⟨_, rfl, by rw [his]; exact hlt2⟩
    · rw [if_neg hlt2] at key
      refine ⟨_, key, ?_, by constructor <;> simp⟩
      exact display_inv h hc (by constructor <;> simp) (by simp [hbusy]) (.inr (by rw [hm]; rfl))
          (by simp [State.linesAtSeq, hlin]) (by simp [State.registersAtSeq]) (ht.congr rfl rfl rfl rfl)

theorem b4Yield_progress {s : State} (h : s.Inv) (e : s.seq = .b4Yield) : ∃ t,
    (do nextByte (← yieldPoint s)) = (.ok t : Res State) ∧ t.Inv ∧ Steady s t := by
  have hm : s.cfg.mode = .full := (owner_mode h).2 (by rw [e]; rfl)
  have hc : s.connected = true := ownerConn h (i := .displayFull) (by rw [e]; rfl) (by simp)
  have hne : s.seq ≠ .idle := by rw [e]; simp
  have hlin := h.linesOk
  have hreg := h.registersOk
  simp only [State.linesAtSeq, e] at hlin
  simp only [State.registersAtSeq, e] at hreg
  obtain ⟨i, hi, hlt⟩ := hreg
  have hbusy := h.busyIff.2 hne
  have hle := fbsize_le h
  have his : (i + 1#17).toNat = i.toNat + 1 := by simp; omega
  have key : (do nextByte (← yieldPoint s)) =
      (.ok { s.emit .yield with
      i := .holds (i + 1#17), seq := if i.toNat + 1 < s.cfg.fbSize then .b4 else .dclose .full .deselect } :
      Res State) := by
    simp only [yieldPoint, Res.ok_bind]; rw [nextByte_spec (s := s.emit .yield) (i := i) hi hlt hle]; rfl
  have hty : ∀ q, TraceOk { s.emit .yield with i := .holds (i + 1#17), seq := q } :=
      fun q => traceOk_yield h.traceHalf rfl rfl rfl rfl
  by_cases hlt2 : i.toNat + 1 < s.cfg.fbSize
  · rw [if_pos hlt2] at key
    refine ⟨_, key, ?_, by constructor <;> simp⟩
    refine display_inv h hc (by constructor <;> simp) (by simp [hbusy]) (.inr (by rw [hm]; rfl))
        (by simp [State.linesAtSeq, hlin]) ?_ (hty _)
    simp only [State.registersAtSeq]; exact ⟨_, rfl, by rw [his]; exact hlt2⟩
  · rw [if_neg hlt2] at key
    refine ⟨_, key, ?_, by constructor <;> simp⟩
    exact display_inv h hc (by constructor <;> simp) (by simp [hbusy]) (.inr (by rw [hm]; rfl))
        (by simp [State.linesAtSeq, hlin]) (by simp [State.registersAtSeq]) (hty _)

theorem complete_progress {s : State} (h : s.Inv) (hc : s.connected = true) : (complete .display s).Inv ∧
    Steady s (complete .display s) := by
  refine ⟨display_inv h hc ?_ ?_ (.inl rfl) ?_ ?_ ?_, ?_⟩
  · constructor <;> simp
  · simp
  · simp [State.linesAtSeq]
  · simp [State.registersAtSeq]
  · exact h.traceHalf.append (e := .done .display) rfl (by simp) (by simp [State.bus, BusView.after]) rfl
      (by simp) (by simp)
  · constructor <;> simp

theorem display_progress {s : State} (h : s.Inv) (ho : s.seq.owner = some .displayTracked ∨ s.seq.owner =
    some .displayFull) :
    ∃ t, displayStep s = .ok t ∧ t.Inv ∧ Steady s t := by
  have hc : s.connected = true := by rcases ho with ho | ho <;> exact ownerConn h ho (by simp)
  have hne : s.seq ≠ .idle := by intro e; rw [e] at ho; simp [Seq.owner] at ho
  cases e : s.seq with
  | idle => exact absurd e hne
  | connect k => rw [e] at ho; simp [Seq.owner] at ho
  | a1 =>
    have hm := (owner_mode h).1 (by rw [e]; rfl)
    have hn := (wf_facts h.configOk).2.2.1
    have := row_inv (s' := { initBounds s with p := .holds 0#9 }) (S := fun _ _ => False) h hm hc hne rfl
        (p := 0#9) rfl (by simpa using Nat.lt_of_lt_of_le Nat.zero_lt_one hn)
        (.inl ⟨⟨rfl, rfl, rfl, rfl⟩, by simp⟩)
    simpa only [displayStep, e] using this
  | scan =>
    have hm := (owner_mode h).1 (by rw [e]; rfl)
    have hr := h.registersOk
    simp only [State.registersAtSeq, e] at hr
    obtain ⟨⟨p, hp, hpn⟩, hb⟩ := hr
    have : ∃ S, BoundsOf S s := by
      rcases hb with hb | ⟨c0, c1, p0, p1, hw⟩
      · exact ⟨fun _ _ => False, .inl ⟨hb, by simp⟩⟩
      · obtain ⟨w1, w2, w3, w4, w5, w6, w7, w8⟩ := id hw
        have w5' : c0.toNat ≤ c1.toNat := w5
        have w7' : p0.toNat ≤ p1.toNat := w7
        refine ⟨fun p c => p0.toNat ≤ p ∧ p ≤ p1.toNat ∧ c0.toNat ≤ c ∧ c ≤ c1.toNat,
            .inr ⟨c0, c1, p0, p1, hw, fun p c hh => hh, ⟨c0.toNat, ?_⟩, ⟨c0.toNat, ?_⟩, ⟨p0.toNat, ?_⟩,
            ⟨p0.toNat, ?_⟩⟩⟩ <;> omega
    obtain ⟨S, hR⟩ := this
    have := row_inv (s' := s) h hm hc hne rfl hp hpn hR
    simpa only [displayStep, e] using this
  | a4 => exact ⟨_, by simp only [displayStep, e], complete_progress h hc⟩
  | cmd m slot st =>
    obtain ⟨b, hb⟩ := slotByte_ok h e
    obtain ⟨t, ht⟩ := cmd_progress h e b
    exact ⟨t, by simp only [displayStep, e, hb, Res.ok_bind, ht.1], ht.2⟩
  | dopen m st =>
    have hm : s.cfg.mode = m := by
      cases m
      · exact (owner_mode h).1 (by rw [e]; rfl)
      · exact (owner_mode h).2 (by rw [e]; rfl)
    have hlin := h.linesOk
    simp only [State.linesAtSeq, e] at hlin
    have hw : m = .tracked → ∃ c0 c1 p0 p1, s.windowHeld c0 c1 p0 p1 := by
      rintro rfl; have := h.registersOk; simpa only [State.registersAtSeq, e] using this
    have hwin : ∀ {l v q}, m = .tracked → ∃ c0 c1 p0 p1,
        (((s.setLvl l v).emit (.lvl l v)).goto q).windowHeld c0 c1 p0 p1 := by
      intro l v q hmt; obtain ⟨a, b, c, d, w⟩ := hw hmt
      exact ⟨a, b, c, d, by simpa [State.windowHeld] using w⟩
    cases st with
    | deselect =>
      obtain ⟨t, ht, hi, hsame⟩ := line_step h hc hne .cs .high (by simp) (by simp) (.dopen m .dataMode)
          (by simp) (by rw [hm]; cases m <;> rfl)
        (by simp [State.linesAtSeq]) (regs_of (m := m) rfl (.inr ⟨_, rfl⟩) hwin)
      exact ⟨_, by simp [displayStep, e, dopenStep, ht], hi, hsame⟩
    | dataMode =>
      obtain ⟨t, ht, hi, hsame⟩ := line_step h hc hne .dc .high (by simp) (fun _ => hlin) (.dopen m .select)
          (by simp) (by rw [hm]; cases m <;> rfl)
        (by simp [State.linesAtSeq, hlin]) (regs_of (m := m) rfl (.inr ⟨_, rfl⟩) hwin)
      exact ⟨_, by simp [displayStep, e, dopenStep, ht], hi, hsame⟩
    | select => simpa only [displayStep, e] using dopen_select_spec h e
  | a8 =>
    have hm : s.cfg.mode = .tracked := (owner_mode h).1 (by rw [e]; rfl)
    have hreg := h.registersOk
    simp only [State.registersAtSeq, e] at hreg
    obtain ⟨c0, c1, p0, p1, hw, p, c, hp, hcc, q1, q2, q3, q4⟩ := hreg
    obtain ⟨w1, w2, w3, w4, w5, w6, w7, w8⟩ := id hw
    obtain ⟨f, _, hf⟩ := fbRead_total h.fbShape
        (idx_lt (shape_of_inv h hm) (show p.toNat < _ by omega) (show c.toNat < _ by omega))
    obtain ⟨t, ht⟩ := a8_progress h e f
    exact ⟨t, by simp [displayStep, e, windowByte, hp, hcc, hf, ht.1], ht.2⟩
  | a9 => simpa only [displayStep, e] using a9_progress h e
  | b4 =>
    have hreg := h.registersOk
    simp only [State.registersAtSeq, e] at hreg
    obtain ⟨i, hi, hlt⟩ := hreg
    obtain ⟨f, _, hf⟩ := fbRead_total h.fbShape hlt
    obtain ⟨t, ht⟩ := b4_progress h e f
    exact ⟨t, by simp [displayStep, e, frameByte, hi, hf, ht.1], ht.2⟩
  | b4Yield => simpa only [displayStep, e] using b4Yield_progress h e
  | dclose m st =>
    have hm : s.cfg.mode = m := by
      cases m
      · exact (owner_mode h).1 (by rw [e]; rfl)
      · exact (owner_mode h).2 (by rw [e]; rfl)
    have hlin := h.linesOk
    simp only [State.linesAtSeq, e] at hlin
    cases st with
    | deselect =>
      have key : ∀ q, q ≠ .idle → DisplayAt q m → (q = .dclose m .dcLow ∨ q = .finish m) → ∃ t,
          line .cs .high s = .ok t ∧ (t.goto q).Inv ∧ Steady s (t.goto q) := by
        intro q hq hd hform
        refine line_step h hc hne .cs .high (by simp) (by simp) q hq (by rw [hm]; exact hd) ?_ ?_
        · rcases hform with rfl | rfl <;> simp [State.linesAtSeq]
        · rcases hform with rfl | rfl <;> simp [State.registersAtSeq]
      cases hdc : s.cfg.dcRestore with
      | true =>
        obtain ⟨t, ht, hi, hsame⟩ := key (.dclose m .dcLow) (by simp) (by cases m <;> rfl) (.inl rfl)
        exact ⟨_, by simp [displayStep, e, dcloseStep, ht, hdc], hi, hsame⟩
      | false =>
        obtain ⟨t, ht, hi, hsame⟩ := key (.finish m) (by simp) (by cases m <;> rfl) (.inr rfl)
        exact ⟨_, by simp [displayStep, e, dcloseStep, ht, hdc], hi, hsame⟩
    | dcLow =>
      obtain ⟨t, ht, hi, hsame⟩ := line_step h hc hne .dc .low (by simp) (fun _ => hlin) (.finish m)
          (by simp) (by rw [hm]; cases m <;> rfl)
        (by simp [State.linesAtSeq, hlin]) (by simp [State.registersAtSeq])
      exact ⟨_, by simp [displayStep, e, dcloseStep, ht], hi, hsame⟩
  | finish m => exact ⟨_, by simp only [displayStep, e], complete_progress h hc⟩

end Sys2Proof.Machine
end

