-- ==== Sys2Proof/Laws/Step.lean ====
section
/-! SUPPORT. CONNECT from a state that meets the invariant, which meaning a step calls, and what a step can answer. -/

namespace Sys2Proof.Machine

/-- A state that stands inside CONNECT, with its share of CONNECT done, meets the invariant. -/
theorem connect_inv {s t : State} (h : s.Inv) (hcfg : t.cfg = s.cfg)
    (hfb : t.fb = s.fb) (hsh : t.sh = s.sh)
    (hconn : t.connected = false) (hbusy : t.busy = true) {k} (hseq : t.seq = .connect k)
        (hdone : t.connectDone k.number) (ht : TraceOk t) : t.Inv where
  configOk := by rw [hcfg]; exact h.configOk
  fbShape := by rw [hfb, hcfg]; exact h.fbShape
  shShape := by rw [hsh, hcfg]; exact h.shShape
  busyIff := by simp [hbusy, hseq]
  modeOk := by rw [hseq]; trivial
  ownerOk := by intro i hi; rw [hseq] at hi; simp [Seq.owner] at hi; subst hi; simp [hconn]
  connectOk := by intro k' hk; rw [hseq] at hk; cases hk; exact hdone
  readyOk := by simp [hconn]
  linesOk := by simp [State.linesAtSeq, hseq]
  registersOk := by simp [State.registersAtSeq, hseq]
  busTraced := ht.bus
  traceOk := ht.allowed
  receiverOk := ht.receiver

/-- A step of CONNECT completes and keeps the invariant (spec/41_connect.md R121, R123). -/
theorem connect_progress {s : State} (h : s.Inv) {k} (e : s.seq = .connect k) : ∃ t, connectStep k s =
    .ok t ∧ t.Inv ∧ t.fault = s.fault := by
  have hc : s.connected = false := (h.ownerOk .connect (by rw [e]; rfl)).1 rfl
  have hb : s.busy = true := h.busyIff.2 (by rw [e]; simp)
  have hd := h.connectOk k e
  have T := h.traceHalf
  cases k with
  | k1 =>
    refine ⟨_, rfl, connect_inv h ?_ ?_ ?_ ?_ ?_ rfl ?_
        (T.append (e := .dir .dc) rfl rfl rfl rfl rfl rfl), rfl⟩ <;>
        simp_all [State.connectDone, ConnectStep.number]
  | k2 =>
    refine ⟨_, rfl, connect_inv h ?_ ?_ ?_ ?_ ?_ rfl ?_
        (T.append (e := .dir .cs) rfl rfl rfl rfl rfl rfl), rfl⟩ <;>
        simp_all [State.connectDone, ConnectStep.number]
  | k3 =>
    refine ⟨_, rfl, connect_inv h ?_ ?_ ?_ ?_ ?_ rfl ?_
        (T.append (e := .dir .rst) rfl rfl rfl rfl rfl rfl), rfl⟩ <;>
        simp_all [State.connectDone, ConnectStep.number]
  | k4 =>
    refine ⟨_, rfl, connect_inv h ?_ ?_ ?_ ?_ ?_ rfl ?_ (T.append (e := .begin) rfl rfl rfl rfl rfl rfl),
        rfl⟩ <;> simp_all [State.connectDone, ConnectStep.number]
  | k5 =>
    refine ⟨_, rfl, connect_inv h ?_ ?_ ?_ ?_ ?_ rfl ?_
        (T.append (e := .clkDiv s.cfg.clkdiv) rfl rfl rfl rfl rfl rfl), rfl⟩ <;>
        simp_all [State.connectDone, ConnectStep.number]
  | k6 =>
    have hr : s.dir .rst = .output := hd.2.2.1 (by decide)
    have hl := line_ok (v := .high) hr
    have key : connectStep .k6 s =
        .ok (((s.setLvl .rst .high).emit (.lvl .rst .high)).goto (.connect .k7)) := by
      simp only [connectStep, hl, Res.ok_bind]
    refine ⟨_, key, connect_inv h ?_ ?_ ?_ ?_ ?_ rfl ?_ ((T.line hl (by simp)).congr rfl rfl rfl rfl),
        rfl⟩ <;> simp_all [State.connectDone, ConnectStep.number]
  | k7 =>
    refine ⟨_, rfl, connect_inv h ?_ ?_ ?_ ?_ ?_ rfl ?_
        (T.append (e := .delay s.cfg.tSettle) rfl rfl rfl rfl rfl rfl), rfl⟩ <;>
        simp_all [State.connectDone, ConnectStep.number]
  | k8 =>
    have hr : s.dir .rst = .output := hd.2.2.1 (by decide)
    have hl := line_ok (v := .low) hr
    have key : connectStep .k8 s = .ok (((s.setLvl .rst .low).emit (.lvl .rst .low)).goto (.connect .k9)) :=
        by
      simp only [connectStep, hl, Res.ok_bind]
    refine ⟨_, key, connect_inv h ?_ ?_ ?_ ?_ ?_ rfl ?_ ((T.line hl (by simp)).congr rfl rfl rfl rfl),
        rfl⟩ <;> simp_all [State.connectDone, ConnectStep.number]
  | k9 =>
    refine ⟨_, rfl, connect_inv h ?_ ?_ ?_ ?_ ?_ rfl ?_
        (T.append (e := .delay s.cfg.tRstHold) rfl rfl rfl rfl rfl rfl), rfl⟩ <;>
        simp_all [State.connectDone, ConnectStep.number]
  | k10 =>
    have hr : s.dir .rst = .output := hd.2.2.1 (by decide)
    have hl := line_ok (v := .high) hr
    have key : connectStep .k10 s =
        .ok (((s.setLvl .rst .high).emit (.lvl .rst .high)).goto (.connect .k11)) := by
      simp only [connectStep, hl, Res.ok_bind]
    refine ⟨_, key, connect_inv h ?_ ?_ ?_ ?_ ?_ rfl ?_ ((T.line hl (by simp)).congr rfl rfl rfl rfl),
        rfl⟩ <;> simp_all [State.connectDone, ConnectStep.number]
  | k11 =>
    have ht : TraceOk (complete .connect { s with result := .holds 1#1, connected := true }) :=
        T.append (e := .done .connect) rfl rfl rfl rfl rfl rfl
    refine ⟨_, rfl, ⟨h.configOk, h.fbShape, h.shShape, by simp, trivial, by simp [Seq.owner], by simp,
        fun _ => ⟨hd, rfl⟩, by simp [State.linesAtSeq], by simp [State.registersAtSeq], ht.bus, ht.allowed,
        ht.receiver⟩, rfl⟩

/-- Acceptance keeps the invariant (spec/30_encoding.md R71). -/
theorem accept_inv {s t : State} (h : s.Inv) {o : HostOp} {first} (ht : accept (.op o) first s = .ok t)
   (hf : (o = .connect ∧ first = .connect .k1) ∨ (o = .display ∧ s.cfg.mode = .tracked ∧ first = .a1) ∨
       (o = .display ∧ s.cfg.mode = .full ∧ first = .cmd .full .colOp .deselect)) : t.Inv := by
  obtain ⟨h0, rfl⟩ := accept_eq_ok.1 ht
  obtain ⟨hb, hc⟩ := acceptFault_op_eq_none.1 h0
  have hidle : s.seq = .idle := by
    by_contra hne; have := h.busyIff.2 hne; simp [hb] at this
  have hready := h.readyOk
  refine ⟨h.configOk, h.fbShape, h.shShape, ?_, ?_, ?_, ?_, hready, ?_, ?_, h.busTraced, h.traceOk,
      h.receiverOk⟩
  · rcases hf with ⟨_, rfl⟩ | ⟨_, _, rfl⟩ | ⟨_, _, rfl⟩ <;> simp
  · rcases hf with ⟨_, rfl⟩ | ⟨_, hm, rfl⟩ | ⟨_, hm, rfl⟩ <;> simp [Seq.inMode, Seq.owner, *]
  · rcases hf with ⟨rfl, rfl⟩ | ⟨rfl, hm, rfl⟩ | ⟨rfl, hm, rfl⟩ <;> simp_all [Seq.owner]
  · rcases hf with ⟨_, rfl⟩ | ⟨_, _, rfl⟩ | ⟨_, _, rfl⟩ <;> simp [State.connectDone, ConnectStep.number]
  · rcases hf with ⟨_, rfl⟩ | ⟨_, _, rfl⟩ | ⟨_, _, rfl⟩ <;> simp [State.linesAtSeq]
  · rcases hf with ⟨_, rfl⟩ | ⟨_, _, rfl⟩ | ⟨_, _, rfl⟩ <;> simp [State.registersAtSeq]

/-- With its operation in progress, a DISPLAY row makes its next statement. -/
theorem owner_display_form {s : State} (m : Mode) (i : Instr) (hm : s.cfg.mode = m)
    (ho : s.seq.owner = some i) (hq : s.opreq = 0#2) (first) :
   displayBody m i first s = displayStep s := by
  simp [displayBody, hm, inProgress, ho, hq]

/-- At every position of a DISPLAY the FBTX step is its next statement, whichever row `fetch` names. -/
theorem fbtx_display {s : State} (h : s.Inv) (_ : s.fault = none) (hq : s.opreq = 0#2)
    (ho : s.seq.owner = some .displayTracked ∨ s.seq.owner = some .displayFull) :
    fbtxStep s = settle s (displayStep s) := by
  have hm := owner_mode h
  have other : frameInProgress s = .ok none → fbtxStep s = settle s (displayStep s) := by
    intro hfr
    have : fetch s = .ok s.seq.owner := by simp [fetch, hq, hfr]
    rcases ho with ho | ho
    · simp only [fbtxStep, this, ho, exec, execDisplayTracked]
      rw [owner_display_form .tracked .displayTracked (hm.1 ho) ho hq]
    · simp only [fbtxStep, this, ho, exec, execDisplayFull]
      rw [owner_display_form .full .displayFull (hm.2 ho) ho hq]
  cases e : s.seq with
  | idle => rw [e] at ho; simp [Seq.owner] at ho
  | connect k => rw [e] at ho; simp [Seq.owner] at ho
  | a1 => exact other (by simp [frameInProgress, e])
  | scan => exact other (by simp [frameInProgress, e])
  | a4 => exact other (by simp [frameInProgress, e])
  | dopen m st => exact other (by simp [frameInProgress, e])
  | a9 => exact other (by simp [frameInProgress, e])
  | b4Yield => exact other (by simp [frameInProgress, e])
  | dclose m st => exact other (by simp [frameInProgress, e])
  | finish m => exact other (by simp [frameInProgress, e])
  | cmd m slot st =>
    obtain ⟨b, hb⟩ := slotByte_ok h e
    have hfr : frameInProgress s = .ok (some (slot.pos, Frame.of false b)) := by
        simp [frameInProgress, e, hb]
    have hds : displayStep s = sendCommand b s := by simp [displayStep, e, hb]
    rw [hds]
    cases slot <;> simp only [slotByte, Except.ok.injEq] at hb
    · subst hb; simp [fbtxStep, fetch, hq, hfr, CmdSlot.pos, decodeFrame, frame_byte, frame_isData, exec,
        execCmdColumnaddr]
    · simp [fbtxStep, fetch, hq, hfr, CmdSlot.pos, decodeFrame, frame_byte, frame_isData, exec, execCmdArg]
    · simp [fbtxStep, fetch, hq, hfr, CmdSlot.pos, decodeFrame, frame_byte, frame_isData, exec, execCmdArg]
    · subst hb
      by_cases hop : s.cfg.opPageaddr = s.cfg.opColumnaddr <;>
          simp [fbtxStep, fetch, hq, hfr, CmdSlot.pos, decodeFrame, frame_byte, frame_isData, exec,
          execCmdColumnaddr, execCmdPageaddr, hop]
    · simp [fbtxStep, fetch, hq, hfr, CmdSlot.pos, decodeFrame, frame_byte, frame_isData, exec, execCmdArg]
    · simp [fbtxStep, fetch, hq, hfr, CmdSlot.pos, decodeFrame, frame_byte, frame_isData, exec, execCmdArg]
  | a8 =>
    cases hb : windowByte s with
    | error x =>
      have hfr : frameInProgress s = .error x := by simp [frameInProgress, e, hb]
      simp [fbtxStep, fetch, hq, hfr, displayStep, e, hb]
    | ok b =>
      have hfr : frameInProgress s = .ok (some (.argument, Frame.of true b)) := by
          simp [frameInProgress, e, hb]
      simp [fbtxStep, fetch, hq, hfr, decodeFrame, frame_byte, frame_isData, exec, execData, displayStep, e,
          hb]
  | b4 =>
    cases hb : frameByte s with
    | error x =>
      have hfr : frameInProgress s = .error x := by simp [frameInProgress, e, hb]
      simp [fbtxStep, fetch, hq, hfr, displayStep, e, hb]
    | ok b =>
      have hfr : frameInProgress s = .ok (some (.argument, Frame.of true b)) := by
          simp [frameInProgress, e, hb]
      simp [fbtxStep, fetch, hq, hfr, decodeFrame, frame_byte, frame_isData, exec, execData, displayStep, e,
          hb]

theorem fbtx_connect {s : State} (hq : s.opreq = 0#2) {k} (e : s.seq = .connect k) : fbtxStep s =
    settle s (connectStep k s) := by
  simp [fbtxStep, fetch, hq, frameInProgress, e, Seq.owner, exec, execConnect, connectBody, inProgress]

theorem raise_inv {s : State} (h : s.Inv) (r) : (s.raise r).Inv := inv_congr h rfl

theorem settle_inv {s t : State} {body : Res State} (h : s.Inv) (hs : settle s body = .next t)
    (hb : ∀ u, body = .ok u → u.Inv) : t.Inv := by
  obtain ⟨_, h | ⟨r, h1, rfl⟩⟩ := settle_eq_next.1 hs
  · exact hb _ h
  · exact raise_inv h r

theorem inProgress_req {s : State} {i} (hq : s.opreq ≠ 0#2) : inProgress i s = false := by
  simp [inProgress, hq]

theorem hostMove_keeps_inv {s u : State} {m body} (h : s.Inv) (he : hostMove m s = .hostActs body)
    (hb : body = .ok u) : u.Inv := by
  have wr : ∀ {x v}, fbWrite s x v = .ok u → u.Inv := by
    intro x v hw
    obtain ⟨_, hx, rfl⟩ := fbWrite_eq_ok.1 hw
    exact { h with fbShape := Memory.addresses_write_range h.fbShape hx v }
  cases m with
  | present c => simp [hostMove] at he; subst he; simp at hb; subst hb; exact inv_congr h rfl
  | fbw i v => simp [hostMove] at he; subst he; exact wr hb
  | pix x y v =>
    simp only [hostMove, MoveEffect.hostActs.injEq] at he
    subst he
    split at hb
    · simp at hb
    · obtain ⟨_, _, hw⟩ := Res.bind_eq_ok.1 hb; exact wr hw
  | readResult =>
    simp only [hostMove, MoveEffect.hostActs.injEq] at he
    subst he
    obtain ⟨_, _, hw⟩ := Res.bind_eq_ok.1 hb
    simp at hw; subst hw; exact h
  | hold => simp [hostMove] at he; subst he; simp at hb; subst hb; exact h
  | resume => simp [hostMove] at he
  | wait | never w =>
    simp only [hostMove] at he
    split at he
    · simp at he
    · simp at he; subst he; simp at hb; subst hb; exact h

theorem step_eq {s : State} (hw : s.cfg.WellFormed) (hf : s.fault = none) : step s = if s.opreq = 0#2 then
        match s.host with
        | [] => fbtxStep s
        | m :: rest =>
          match hostMove m { s with host := movesAfter s m rest } with
          | .hostActs body => settle { s with host := movesAfter s m rest } body
          | .fbtxRuns => fbtxStep { s with host := movesAfter s m rest }
      else fbtxStep s := by
  have hw' : s.cfg.firstFailure = none := hw
  unfold step
  split
  · simp_all
  · split
    · simp_all
    · rfl

theorem step_next {s t : State} (hs : step s = .next t) : s.cfg.WellFormed ∧ s.fault = none := by
  unfold step at hs
  split at hs
  · cases hs
  · split at hs
    · cases hs
    · exact ⟨‹_›, ‹_›⟩

end Sys2Proof.Machine
end

