-- ==== Sys2Proof/Laws/Run.lean ====
section
/-! SUPPORT. Runs: command brackets, the data bracket, and the two data runs as segments of a run,
with the events they add. -/

namespace Sys2Proof.Machine

theorem run_one {s t : State} (h : step s = .next t) (n : Nat) : Host.Core.run Sys2Proof.core (n+1) s =
    Host.Core.run Sys2Proof.core n t := by
  have h' : Sys2Proof.core.step s = .next t := h
  simp only [Host.Core.run, h']

theorem run_add (m n : Nat) (s t : State) (h : Host.Core.run Sys2Proof.core m s = .next t) :
    Host.Core.run Sys2Proof.core (m+n) s = Host.Core.run Sys2Proof.core n t := by
  induction m generalizing s with
  | zero => cases h; simp
  | succ m ih =>
    rw [Nat.succ_add]
    simp only [Host.Core.run] at h ⊢
    split at h
    · exact ih _ h
    · cases h
    · cases h

theorem reaches_refl (s : State) : Reaches s s := ⟨0, rfl⟩
theorem reaches_trans {s t u : State} : Reaches s t → Reaches t u → Reaches s u := by
  rintro ⟨m, hm⟩ ⟨n, hn⟩; exact ⟨m+n, by rw [run_add m n s t hm, hn]⟩
theorem reaches_one {s t : State} (h : step s = .next t) : Reaches s t := ⟨1, by rw [run_one h]; rfl⟩

structure Cooperating (s : State) : Prop where
  inv : s.Inv
  fault : s.fault = none
  opreq : s.opreq = 0#2
  host : s.host = []
  conn : s.connected = true

structure PathTo (s t : State) : Prop where
  reach : Reaches s t
  quiet : Cooperating t
  same : Steady s t

theorem PathTo.trans {s t u : State} (a : PathTo s t) (b : PathTo t u) : PathTo s u :=
    ⟨reaches_trans a.reach b.reach, b.quiet, a.same.trans b.same⟩
theorem PathTo.refl {s : State} (h : Cooperating s) : PathTo s s := ⟨reaches_refl s, h, .refl s⟩

theorem disp_one {s t : State} (h : Cooperating s) (ho : s.seq.owner = some .displayTracked ∨ s.seq.owner =
    some .displayFull) (ht : displayStep s = .ok t) : PathTo s t := by
  obtain ⟨u, hu, hi, hsame⟩ := display_progress h.inv ho
  rw [hu] at ht; cases ht
  refine ⟨reaches_one ?_,
      ⟨hi, by rw [hsame.fault, h.fault], by rw [hsame.opreq, h.opreq], by rw [hsame.host, h.host],
      by rw [hsame.conn, h.conn]⟩, hsame⟩
  rw [step_eq h.inv.configOk h.fault, if_pos h.opreq, h.host]
  rw [fbtx_display h.inv h.fault h.opreq ho, hu, settle_ok h.fault]

structure KeepsBounds (s t : State) : Prop where
  minP : t.minP = s.minP
  maxP : t.maxP = s.maxP
  minC : t.minC = s.minC
  maxC : t.maxC = s.maxC
  sh : t.sh = s.sh
theorem KeepsBounds.trans {s t u : State} (a : KeepsBounds s t) (b : KeepsBounds t u) : KeepsBounds s u :=
  ⟨b.minP.trans a.minP, b.maxP.trans a.maxP, b.minC.trans a.minC, b.maxC.trans a.maxC, b.sh.trans a.sh⟩
theorem KeepsBounds.refl (s : State) : KeepsBounds s s := ⟨rfl, rfl, rfl, rfl, rfl⟩

theorem slotByte_congr {s t : State} (m slot) (k : KeepsBounds s t) (hc : t.cfg = s.cfg) :
    slotByte m slot t = slotByte m slot s := by
  unfold slotByte; rw [k.minP, k.maxP, k.minC, k.maxC, hc]

/-- statement of the trace: result of a segment -/
structure Segment (s t : State) (es : List Event) : Prop where
  path : PathTo s t
  keeps : KeepsBounds s t
  trace : t.trace = s.trace ++ es
theorem Segment.trans {s t u : State} {a b : List Event} (x : Segment s t a) (y : Segment t u b) :
    Segment s u (a ++ b) :=
  ⟨x.path.trans y.path, x.keeps.trans y.keeps, by rw [y.trace, x.trace, List.append_assoc]⟩

theorem owner_cmd (m slot st) : (Seq.cmd m slot st).owner = some .displayTracked ∨
    (Seq.cmd m slot st).owner = some .displayFull := by cases m; exact .inl rfl; exact .inr rfl

theorem cmd_one {s : State} (h : Cooperating s) {m slot st b} (e : s.seq = .cmd m slot st)
    (hb : slotByte m slot s = .ok b) :
   ∃ t, Segment s t [st.event b] ∧ t.seq = Seq.afterStatement m slot st := by
  have hd := dir_out (h.inv.readyOk h.conn)
  have hbeg := (ready_dirs (h.inv.readyOk h.conn)).2.2.2.1
  have key : ∀ u, bracketStatement st b s = .ok u → displayStep s =
      .ok (u.goto (Seq.afterStatement m slot st)) := by
    intro u hu; simp only [displayStep, e, hb, Res.ok_bind, sendCommand, hu]
  cases st with
  | deselect => exact ⟨_, ⟨disp_one h (by rw [e]; exact owner_cmd _ _ _) (key _ (line_ok (hd .cs))),
      ⟨rfl, rfl, rfl, rfl, rfl⟩, rfl⟩, rfl⟩
  | command => exact ⟨_, ⟨disp_one h (by rw [e]; exact owner_cmd _ _ _) (key _ (line_ok (hd .dc))),
      ⟨rfl, rfl, rfl, rfl, rfl⟩, rfl⟩, rfl⟩
  | select => exact ⟨_, ⟨disp_one h (by rw [e]; exact owner_cmd _ _ _) (key _ (line_ok (hd .cs))),
      ⟨rfl, rfl, rfl, rfl, rfl⟩, rfl⟩, rfl⟩
  | transfer => exact ⟨_, ⟨disp_one h (by rw [e]; exact owner_cmd _ _ _) (key _ (xfer_ok hbeg)),
      ⟨rfl, rfl, rfl, rfl, rfl⟩, rfl⟩, rfl⟩
  | release => exact ⟨_, ⟨disp_one h (by rw [e]; exact owner_cmd _ _ _) (key _ (line_ok (hd .cs))),
      ⟨rfl, rfl, rfl, rfl, rfl⟩, rfl⟩, rfl⟩

theorem bracket_run {s : State} (h : Cooperating s) {m slot b} (e : s.seq = .cmd m slot .deselect)
    (hb : slotByte m slot s = .ok b) :
   ∃ t, Segment s t (Event.sendcmd b) ∧ t.seq = Seq.afterBracket m slot := by
  obtain ⟨t1, g1, e1⟩ := cmd_one h e hb
  have b1 := (slotByte_congr m slot g1.keeps g1.path.same.cfg).trans hb
  obtain ⟨t2, g2, e2⟩ := cmd_one g1.path.quiet e1 b1
  have b2 := (slotByte_congr m slot g2.keeps g2.path.same.cfg).trans b1
  obtain ⟨t3, g3, e3⟩ := cmd_one g2.path.quiet e2 b2
  have b3 := (slotByte_congr m slot g3.keeps g3.path.same.cfg).trans b2
  obtain ⟨t4, g4, e4⟩ := cmd_one g3.path.quiet e3 b3
  have b4 := (slotByte_congr m slot g4.keeps g4.path.same.cfg).trans b3
  obtain ⟨t5, g5, e5⟩ := cmd_one g4.path.quiet e4 b4
  exact ⟨t5, (((g1.trans g2).trans g3).trans g4).trans g5, e5⟩

theorem window_run {s : State} (h : Cooperating s) {m} (e : s.seq = .cmd m .colOp .deselect)
    {c0 c1 p0 p1 : Byte}
   (h1 : slotByte m .colFirst s = .ok c0) (h2 : slotByte m .colLast s = .ok c1)
       (h3 : slotByte m .pageFirst s = .ok p0) (h4 : slotByte m .pageLast s = .ok p1) :
   ∃ t, Segment s t (Event.setwindow s.cfg c0 c1 p0 p1) ∧ t.seq = .dopen m .deselect := by
  have k : ∀ {t es slot b}, Segment s t es → slotByte m slot s = .ok b → slotByte m slot t = .ok b :=
      fun g hb => (slotByte_congr m _ g.keeps g.path.same.cfg).trans hb
  obtain ⟨t1, g1, e1⟩ := bracket_run h e (b := s.cfg.opColumnaddr) (by cases m <;> rfl)
  obtain ⟨t2, g2, e2⟩ := bracket_run g1.path.quiet e1 (k g1 h1)
  have g2 := g1.trans g2
  obtain ⟨t3, g3, e3⟩ := bracket_run g2.path.quiet e2 (k g2 h2)
  have g3 := g2.trans g3
  obtain ⟨t4, g4, e4⟩ := bracket_run g3.path.quiet e3 (k g3 (b := s.cfg.opPageaddr) (by cases m <;> rfl))
  have g4 := g3.trans g4
  obtain ⟨t5, g5, e5⟩ := bracket_run g4.path.quiet e4 (k g4 h3)
  have g5 := g4.trans g5
  obtain ⟨t6, g6, e6⟩ := bracket_run g5.path.quiet e5 (k g5 h4)
  have g6 := g5.trans g6
  refine ⟨t6, ?_, e6⟩
  have : Event.setwindow s.cfg c0 c1 p0 p1 = Event.sendcmd s.cfg.opColumnaddr ++ Event.sendcmd c0 ++
      Event.sendcmd c1 ++ Event.sendcmd s.cfg.opPageaddr ++ Event.sendcmd p0 ++ Event.sendcmd p1 := by
    simp [Event.setwindow]
  rw [this]; exact g6

theorem owner_m (m : Mode) : (∀ st, (Seq.dopen m st).owner = some .displayTracked ∨ (Seq.dopen m st).owner =
    some .displayFull) ∧ (∀ st, (Seq.dclose m st).owner = some .displayTracked ∨ (Seq.dclose m st).owner =
    some .displayFull) ∧ ((Seq.finish m).owner = some .displayTracked ∨ (Seq.finish m).owner =
    some .displayFull) := by
  cases m
  · exact ⟨fun _ => .inl rfl, fun _ => .inl rfl, .inl rfl⟩
  · exact ⟨fun _ => .inr rfl, fun _ => .inr rfl, .inr rfl⟩

/-- DOPEN first two statements -/
theorem dopen_run2 {s : State} (h : Cooperating s) {m} (e : s.seq = .dopen m .deselect) :
   ∃ t, Segment s t [.lvl .cs .high, .lvl .dc .high] ∧ t.seq = .dopen m .select := by
  have hd := dir_out (h.inv.readyOk h.conn)
  have g1 : Segment s (((s.setLvl .cs .high).emit (.lvl .cs .high)).goto (.dopen m .dataMode))
      [.lvl .cs .high] :=
    ⟨disp_one h (by rw [e]; exact (owner_m m).1 _)
        (by simp only [displayStep, e, dopenStep, line_ok (hd .cs), Res.ok_bind]),
        ⟨rfl, rfl, rfl, rfl, rfl⟩, rfl⟩
  have hd2 := dir_out (g1.path.quiet.inv.readyOk g1.path.quiet.conn)
  refine ⟨(((((s.setLvl .cs .high).emit (.lvl .cs .high)).goto (.dopen m .dataMode)).setLvl .dc .high).emit
      (.lvl .dc .high)).goto (.dopen m .select), g1.trans (b := [.lvl .dc .high])
      ⟨disp_one g1.path.quiet ((owner_m m).1 _)
      (by simp only [displayStep, State.goto_seq, dopenStep, line_ok (hd2 .dc), Res.ok_bind]),
      ⟨rfl, rfl, rfl, rfl, rfl⟩, rfl⟩, rfl⟩

theorem dclose_run {s : State} (h : Cooperating s) {m} (e : s.seq = .dclose m .deselect) :
   ∃ t, Segment s t (Event.dclose s.cfg ++ [.done .display]) ∧ t.atRest ∧ t.csN = .known .high ∧ t.dc =
       (if s.cfg.dcRestore then .known .low else s.dc) := by
  have hd := dir_out (h.inv.readyOk h.conn)
  have fin : ∀ u : State, Cooperating u → u.seq = .finish m → Segment u (complete .display u)
      [.done .display] ∧ (complete .display u).atRest := by
    intro u hu eu
    have p := disp_one hu (by rw [eu]; exact (owner_m m).2.2) (t := complete .display u)
        (by simp only [displayStep, eu])
    exact ⟨⟨p, ⟨rfl, rfl, rfl, rfl, rfl⟩, rfl⟩, p.quiet.fault, rfl, rfl, p.quiet.opreq⟩
  cases hr : s.cfg.dcRestore with
  | false =>
    have g1 : Segment s (((s.setLvl .cs .high).emit (.lvl .cs .high)).goto (.finish m)) [.lvl .cs .high] :=
      ⟨disp_one h (by rw [e]; exact (owner_m m).2.1 _)
          (by simp [displayStep, e, dcloseStep, line_ok (hd .cs), hr]), ⟨rfl, rfl, rfl, rfl, rfl⟩, rfl⟩
    obtain ⟨g2, r⟩ := fin _ g1.path.quiet rfl
    refine ⟨_, ?_, r, by simp, by simp⟩
    simpa [Event.dclose, hr] using g1.trans g2
  | true =>
    have g1 : Segment s (((s.setLvl .cs .high).emit (.lvl .cs .high)).goto (.dclose m .dcLow))
        [.lvl .cs .high] :=
      ⟨disp_one h (by rw [e]; exact (owner_m m).2.1 _)
          (by simp [displayStep, e, dcloseStep, line_ok (hd .cs), hr]), ⟨rfl, rfl, rfl, rfl, rfl⟩, rfl⟩
    have hd2 := dir_out (g1.path.quiet.inv.readyOk g1.path.quiet.conn)
    have g2 := g1.trans (b := [.lvl .dc .low])
        (u := (((((s.setLvl .cs .high).emit (.lvl .cs .high)).goto (.dclose m .dcLow)).setLvl .dc .low).emit
        (.lvl .dc .low)).goto (.finish m))
        ⟨disp_one g1.path.quiet ((owner_m m).2.1 _)
        (by simp only [displayStep, State.goto_seq, dcloseStep, line_ok (hd2 .dc), Res.ok_bind]),
        ⟨rfl, rfl, rfl, rfl, rfl⟩, rfl⟩
    obtain ⟨g3, r⟩ := fin _ g2.path.quiet rfl
    refine ⟨_, ?_, r, by simp, by simp⟩
    simpa [Event.dclose, hr] using g2.trans g3

def byteEvents (cfg : Config) (fb : Memory) (i : Nat) : List Event :=
    xferOf fb i :: if (i + 1) % cfg.yieldPeriodB = 0 then [.yield] else []

theorem b4_run {s : State} (h : Cooperating s) (e : s.seq = .b4) {i : BitVec 17} (hi : s.i = .holds i)
    (hlt : i.toNat < s.cfg.fbSize) :
   ∃ t, Segment s t (byteEvents s.cfg s.fb i.toNat) ∧ t.seq =
       (if i.toNat + 1 < s.cfg.fbSize then .b4 else .dclose .full .deselect) ∧ t.i = .holds (i + 1#17) := by
  obtain ⟨f, hf, hfr⟩ := fbRead_total h.inv.fbShape hlt
  have hx := xfer_ok (b := f) (ready_dirs (h.inv.readyOk h.conn)).2.2.2.1
  have hle := fbsize_le h.inv
  have hds : displayStep s = afterByte (s.sent f) := by
    simp only [displayStep, e, frameByte, hi, Reg.get_holds, Res.ok_bind, hfr, sendData, hx]
  have hev : xferOf s.fb i.toNat = .xfer f := by simp [xferOf, hf]
  rw [afterByte_spec (s := s.sent f) (i := i) hi hlt hle] at hds
  by_cases hy : (i.toNat+1) % s.cfg.yieldPeriodB = 0
  · have hds' : displayStep s = .ok { s.sent f with seq := .b4Yield } := by
      rw [hds]; congr 1; exact if_pos hy
    have g1 : Segment s { s.sent f with seq := .b4Yield } [.xfer f] :=
        ⟨disp_one h (by rw [e]; exact .inr rfl) hds', ⟨rfl, rfl, rfl, rfl, rfl⟩, rfl⟩
    have hs2 : displayStep { s.sent f with seq := .b4Yield } =
        .ok { ({ s.sent f with seq := .b4Yield } : State).emit .yield with
        i := .holds (i + 1#17), seq :=
        if i.toNat + 1 < s.cfg.fbSize then .b4 else .dclose .full .deselect } := by
      simp only [displayStep, yieldPoint, Res.ok_bind]
      rw [nextByte_spec (s := ({ s.sent f with seq := .b4Yield } : State).emit .yield) (i := i) hi hlt hle];
          rfl
    have g2 := g1.trans (b := [.yield]) ⟨disp_one g1.path.quiet (.inr rfl) hs2, ⟨rfl, rfl, rfl, rfl, rfl⟩,
        rfl⟩
    exact ⟨_, by simpa [byteEvents, hy, hev] using g2, rfl, rfl⟩
  · have hds' : displayStep s = .ok { s.sent f with
      i := .holds (i + 1#17), seq :=
      if i.toNat + 1 < s.cfg.fbSize then .b4 else .dclose .full .deselect } := by
      rw [hds]; congr 1; exact if_neg hy
    have g1 : Segment s _ [.xfer f] :=
        ⟨disp_one h (by rw [e]; exact .inr rfl) hds', ⟨rfl, rfl, rfl, rfl, rfl⟩, rfl⟩
    exact ⟨_, by simpa [byteEvents, hy, hev] using g1, rfl, rfl⟩

theorem b4_loop (n : Nat) : ∀ {s : State}, Cooperating s → s.seq = .b4 → ∀ {i : BitVec 17}, s.i = .holds i →
    i.toNat + n + 1 = s.cfg.fbSize →
   ∃ t, Segment s t ((List.range' i.toNat (n+1)).flatMap (byteEvents s.cfg s.fb)) ∧ t.seq =
       .dclose .full .deselect := by
  induction n with
  | zero =>
    intro s h e i hi hn
    obtain ⟨t, g, hs, _⟩ := b4_run h e hi (by omega)
    rw [if_neg (by omega)] at hs
    exact ⟨t, by simpa using g, hs⟩
  | succ n ih =>
    intro s h e i hi hn
    obtain ⟨t, g, hs, hti⟩ := b4_run h e hi (by omega)
    rw [if_pos (by omega)] at hs
    have hle := fbsize_le h.inv
    have his : (i + 1#17).toNat = i.toNat + 1 := by simp; omega
    obtain ⟨u, g2, hu⟩ := ih g.path.quiet hs hti (by rw [his, g.path.same.cfg]; omega)
    rw [his, g.path.same.cfg, g.path.same.fb] at g2
    refine ⟨u, ?_, hu⟩
    rw [List.range'_succ, List.flatMap_cons]
    exact g.trans g2

end Sys2Proof.Machine
end

