-- ==== Sys2Proof/Laws/Progress.lean ====
section
/-! SUPPORT. Which meaning each position of a DISPLAY calls, in any state; that an operation in progress always has
its next step; and the bounds a scan step works on. -/

namespace Sys2Proof.Machine

/-- The three command frame rows are one operation on the byte they carry. -/
theorem exec_command {s : State} {i : Instr} {b : Byte} (hb : i.commandByte s.cfg = some b) :
    exec i s = settle s (sendCommand b s) := by
  cases i <;> simp [Instr.commandByte] at hb <;> subst hb <;> rfl

/-- A DISPLAY row in progress runs its next statement. -/
theorem exec_display {s : State} {m : Mode} (hm : s.cfg.mode = m) (hq : s.opreq = 0#2)
    (ho : s.seq.owner = some (Instr.displayOf m)) :
    exec (Instr.displayOf m) s = settle s (displayStep s) := by
  cases m
  · show settle s (displayBody .tracked .displayTracked .a1 s) = _
    rw [owner_display_form .tracked .displayTracked hm ho hq]
  · show settle s (displayBody .full .displayFull _ s) = _
    rw [owner_display_form .full .displayFull hm ho hq]

/-- The step of a DISPLAY in progress, with no request and no host move. -/
theorem step_display {s : State} (h : s.Inv) (hf : s.fault = none) (hq : s.opreq = 0#2) (hh : s.host = [])
    (ho : s.seq.owner = some .displayTracked ∨ s.seq.owner = some .displayFull) :
    step s = settle s (displayStep s) := by
  rw [step_eq h.configOk hf, if_pos hq, hh]; exact fbtx_display h hf hq ho

/-- The step of a state whose next move is the host's. -/
theorem step_host {s : State} {m : HostMove} {rest : List HostMove} (hw : s.cfg.WellFormed)
    (hf : s.fault = none) (hq : s.opreq = 0#2) (hh : s.host = m :: rest) :
    step s = match hostMove m { s with host := movesAfter s m rest } with
      | .hostActs body => settle { s with host := movesAfter s m rest } body
      | .fbtxRuns => fbtxStep { s with host := movesAfter s m rest } := by
  rw [step_eq hw hf, if_pos hq]
  split
  · rename_i h; rw [hh] at h; cases h
  · rename_i h; rw [hh] at h; cases h; rfl

/-- A move that lasts stays at the head of the list while `BUSY = 1`. -/
theorem moves_stay {s : State} {m : HostMove} {rest : List HostMove} (hh : s.host = m :: rest)
    (hm : m.lasts = true) (hb : s.busy = true) : { s with host := movesAfter s m rest } = s := by
  have : movesAfter s m rest = s.host := by rw [movesAfter, if_pos ⟨hm, hb⟩, hh]
  rw [this]

/-- At a wait that never ends, the machine stays as it is (spec/40_bus_primitives.md R101). -/
theorem step_stuck {s : State} {w : Hang} {rest : List HostMove} (hw : s.cfg.WellFormed) (hf : s.fault = none)
    (hq : s.opreq = 0#2) (hb : s.busy = true) (hh : s.host = .never w :: rest) (ha : s.waitsAt w = true) :
    step s = .next s := by
  rw [step_host hw hf hq hh, moves_stay hh rfl hb]
  simp [hostMove, ha, settle, hf]

/-- In such an environment FBTX steps as long as it does not stand at such a wait. -/
theorem step_unstuck {s : State} {w : Hang} {rest : List HostMove} (hw : s.cfg.WellFormed) (hf : s.fault = none)
    (hq : s.opreq = 0#2) (hb : s.busy = true) (hh : s.host = .never w :: rest) (ha : s.waitsAt w = false) :
    step s = fbtxStep s := by
  rw [step_host hw hf hq hh, moves_stay hh rfl hb]
  simp [hostMove, ha, hb]

/-- Under the invariant FBTX always has its next step, and it raises nothing. -/
theorem fbtx_progress {s : State} (h : s.Inv) (hf : s.fault = none) (hq : s.opreq = 0#2) :
    ∃ t, fbtxStep s = .next t ∧ t.Inv ∧ t.fault = none ∧ t.opreq = 0#2 ∧ t.host = s.host
      ∧ t.cfg = s.cfg := by
  cases e : s.seq with
  | idle =>
    exact ⟨s, by simp [fbtxStep, fetch, hq, frameInProgress, e, Seq.owner, settle, hf], h, hf, hq, rfl, rfl⟩
  | connect k =>
    obtain ⟨t, ht, hi, htf⟩ := connect_progress h e
    refine ⟨t, by rw [fbtx_connect hq e, ht, settle_ok hf], hi, by rw [htf, hf], ?_⟩
    cases k <;> simp only [connectStep, configureLine, line, waitMs, Res.ok_bind] at ht <;>
      first | (cases ht; simp [hq]) | (split at ht <;> cases ht; simp [hq])
  | _ =>
    have ho : s.seq.owner = some .displayTracked ∨ s.seq.owner = some .displayFull := by
      rw [e]
      first
        | exact .inl rfl
        | exact .inr rfl
        | (rename_i m _; cases m <;> first | exact .inl rfl | exact .inr rfl)
        | (rename_i m _ _; cases m <;> first | exact .inl rfl | exact .inr rfl)
        | (rename_i m; cases m <;> first | exact .inl rfl | exact .inr rfl)
    obtain ⟨t, ht, hi, hs⟩ := display_progress h ho
    exact ⟨t, by rw [fbtx_display h hf hq ho, ht, settle_ok hf], hi, by rw [hs.fault, hf], by rw [hs.opreq, hq],
      hs.host, hs.cfg⟩

/-- The next byte of the Mode B run, in any state. -/
theorem nextByte_eq {s : State} {i : BitVec 17} (hi : s.i = .holds i) :
    nextByte s = .ok { s with
      i := .holds (i + 1#17), seq := if (i + 1#17).toNat < s.cfg.fbSize then .b4 else .dclose .full .deselect } := by
  simp only [nextByte, hi, Reg.get_holds, Res.ok_bind, byteTest]; rfl

/-- The entry of the Mode A run, in any state. -/
theorem enterTrackedRun_eq {s : State} {p0 : Byte} (h : s.minP = .holds p0) :
    enterTrackedRun s = pageTest { s with p := .holds (p0.setWidth 9) } := by
  unfold enterTrackedRun; rw [h]; rfl

/-- One statement of a command bracket as a step: its event, its effect on the bus, the next position. -/
theorem bracket_step {s : State} (h : Cooperating s) {m : Mode} {slot : CmdSlot} {st : BracketStep} {b : Byte}
    (e : s.seq = .cmd m slot st) (hb : slotByte m slot s = .ok b) :
    ∃ t, step s = .next t ∧ Segment s t [st.event b] ∧ t.seq = Seq.afterStatement m slot st
      ∧ t.bus = s.bus.after (st.event b) := by
  have hd := dir_out (h.inv.readyOk h.conn)
  have hbeg := (ready_dirs (h.inv.readyOk h.conn)).2.2.2.1
  have ho : s.seq.owner = some .displayTracked ∨ s.seq.owner = some .displayFull := by
    rw [e]; exact owner_cmd _ _ _
  have key : ∀ u, bracketStatement st b s = .ok u →
      displayStep s = .ok (u.goto (Seq.afterStatement m slot st)) := by
    intro u hu; simp only [displayStep, e, hb, Res.ok_bind, sendCommand, hu]
  have fin : ∀ u, bracketStatement st b s = .ok u →
      step s = .next (u.goto (Seq.afterStatement m slot st)) := by
    intro u hu; rw [step_display h.inv h.fault h.opreq h.host ho, key u hu, settle_ok h.fault]
  cases st with
  | deselect => exact ⟨_, fin _ (line_ok (hd .cs)), ⟨disp_one h ho (key _ (line_ok (hd .cs))),
      ⟨rfl, rfl, rfl, rfl, rfl⟩, rfl⟩, rfl, rfl⟩
  | command => exact ⟨_, fin _ (line_ok (hd .dc)), ⟨disp_one h ho (key _ (line_ok (hd .dc))),
      ⟨rfl, rfl, rfl, rfl, rfl⟩, rfl⟩, rfl, rfl⟩
  | select => exact ⟨_, fin _ (line_ok (hd .cs)), ⟨disp_one h ho (key _ (line_ok (hd .cs))),
      ⟨rfl, rfl, rfl, rfl, rfl⟩, rfl⟩, rfl, rfl⟩
  | transfer => exact ⟨_, fin _ (xfer_ok hbeg), ⟨disp_one h ho (key _ (xfer_ok hbeg)),
      ⟨rfl, rfl, rfl, rfl, rfl⟩, rfl⟩, rfl, rfl⟩
  | release => exact ⟨_, fin _ (line_ok (hd .cs)), ⟨disp_one h ho (key _ (line_ok (hd .cs))),
      ⟨rfl, rfl, rfl, rfl, rfl⟩, rfl⟩, rfl, rfl⟩

/-- The bounds of a set are the sides of its bounding box. -/
theorem BoundsOf.eq_box {S : Nat → Nat → Prop} {t : State} {c0 c1 p0 p1 : Nat} (h : BoundsOf S t)
    (hB : BoundingBox S c0 c1 p0 p1) :
    t.minP = .holds (BitVec.ofNat 8 p0) ∧ t.maxP = .holds (BitVec.ofNat 8 p1)
      ∧ t.minC = .holds (BitVec.ofNat 8 c0) ∧ t.maxC = .holds (BitVec.ofNat 8 c1) := by
  obtain ⟨b0, ⟨x1, b1⟩, ⟨x2, b2⟩, ⟨x3, b3⟩, ⟨x4, b4⟩⟩ := hB
  rcases h with ⟨_, hno⟩ | ⟨d0, d1, q0, q1, hw, hB'⟩
  · exact absurd b1 (hno _ _)
  · obtain ⟨a0, ⟨y1, a1⟩, ⟨y2, a2⟩, ⟨y3, a3⟩, ⟨y4, a4⟩⟩ := hB'
    have := a0 _ _ b1; have := a0 _ _ b2; have := a0 _ _ b3; have := a0 _ _ b4
    have := b0 _ _ a1; have := b0 _ _ a2; have := b0 _ _ a3; have := b0 _ _ a4
    obtain ⟨w1, w2, w3, w4, _⟩ := hw
    have e1 : q0.toNat = p0 := by omega
    have e2 : q1.toNat = p1 := by omega
    have e3 : d0.toNat = c0 := by omega
    have e4 : d1.toNat = c1 := by omega
    subst e1 e2 e3 e4
    simp [w1, w2, w3, w4]

end Sys2Proof.Machine
end

