-- ==== Sys2Proof/Laws/HostList.lean ====
section
/-! SUPPORT. No statement of FBTX reads or writes the host's list of moves; so a run under `wait` is the run the
cooperating environment gives. -/

namespace Sys2Proof.Machine

/-- Results that agree but for the host's list, which is `l` in the second. -/
def WithHost (l : List HostMove) (x y : Res State) : Prop := y = x.map fun t => { t with host := l }
theorem WithHost.bind {q} {x y : Res State} {f : State → Res State} (h : WithHost q x y) (hf : ∀ t,
    WithHost q (f t) (f { t with host := q })) : WithHost q (x >>= f) (y >>= f) := by
  cases x
  · cases h; rfl
  · cases h; exact hf _
theorem WithHost.bindv {q} {α : Type} (x : Res α) {f g : α → Res State} (hf : ∀ a, WithHost q (f a) (g a))
    : WithHost q (x >>= f) (x >>= g) := by
  cases x
  · exact rfl
  · exact hf _
theorem hostList_line (q l v) (s : State) : WithHost q (line l v s) (line l v { s with host := q }) := by
  have : ({ s with host := q } : State).dir l = s.dir l := by cases l <;> rfl
  simp only [line, this]
  split
  · cases l <;> exact rfl
  · exact rfl
theorem hostList_xfer (q b) (s : State) : WithHost q (xfer b s) (xfer b { s with host := q }) := by
  simp only [xfer]; split <;> exact rfl
theorem hostList_columnTest (q) (s : State) : WithHost q (columnTest s) (columnTest { s with host := q }) :=
  WithHost.bindv _ fun _ => WithHost.bindv _ fun _ => rfl
theorem hostList_pageTest (q) (s : State) : WithHost q (pageTest s) (pageTest { s with host := q }) := by
  refine WithHost.bindv _ fun p => WithHost.bindv _ fun m => ?_
  split
  · exact WithHost.bindv _ fun m => hostList_columnTest q _
  · exact rfl
theorem hostList_byteTest (q) (s : State) : WithHost q (byteTest s) (byteTest { s with host := q }) :=
    WithHost.bindv _ fun _ => rfl
theorem hostList_nextByte (q) (s : State) : WithHost q (nextByte s) (nextByte { s with host := q }) :=
    WithHost.bindv _ fun _ => hostList_byteTest _ _
theorem hostList_afterByte (q) (s : State) : WithHost q (afterByte s) (afterByte { s with host := q }) := by
  refine WithHost.bindv _ fun p => ?_
  split
  · exact rfl
  · exact hostList_nextByte q _
theorem hostList_sendCommand (q b) (s : State) : WithHost q (sendCommand b s) (sendCommand b { s with host
    := q }) := by
  simp only [sendCommand]
  split
  · refine WithHost.bind ?_ (fun t => rfl)
    rename_i st _
    cases st
    · exact hostList_line _ _ _ _
    · exact hostList_line _ _ _ _
    · exact hostList_line _ _ _ _
    · exact hostList_xfer _ _ _
    · exact hostList_line _ _ _ _
  · exact rfl
theorem hostList_sendData (q b) (s : State) : WithHost q (sendData b s) (sendData b { s with host := q })
    := by
  simp only [sendData]
  split
  · exact WithHost.bind (hostList_xfer _ _ _) fun t => WithHost.bindv _ fun p => hostList_columnTest _ _
  · exact WithHost.bind (hostList_xfer _ _ _) fun t => hostList_afterByte _ _
  · exact rfl
theorem hostList_dopen (q m st) (s : State) : WithHost q (dopenStep m st s) (dopenStep m st { s with host
    := q }) := by
  cases st
  · exact WithHost.bind (hostList_line _ _ _ _) fun t => rfl
  · exact WithHost.bind (hostList_line _ _ _ _) fun t => rfl
  · refine WithHost.bind (hostList_line _ _ _ _) fun t => ?_
    cases m
    · exact WithHost.bindv _ fun p => hostList_pageTest _ _
    · exact hostList_byteTest _ _
theorem hostList_dclose (q m st) (s : State) : WithHost q (dcloseStep m st s) (dcloseStep m st { s with
    host := q }) := by
  cases st
  · exact WithHost.bind (f := fun t => .ok (t.goto (if s.cfg.dcRestore then .dclose m .dcLow else .finish
        m))) (hostList_line _ _ _ _) fun t => rfl
  · exact WithHost.bind (hostList_line _ _ _ _) fun t => rfl
theorem hostList_scanCell (q) (s : State) : WithHost q (scanCell s) (scanCell { s with host := q }) := by
  refine WithHost.bindv _ fun p => WithHost.bindv _ fun c => WithHost.bindv _ fun f => WithHost.bindv _ fun
      g => ?_
  refine WithHost.bind (f := fun t => .ok { shWrite t (s.cfg.idx p.toNat c.toNat) f with c := .holds (c +
      1#9) }) ?_ (fun t => rfl)
  unfold noteCell; split
  · exact WithHost.bindv _ fun _ => WithHost.bindv _ fun _ => WithHost.bindv _ fun _ => WithHost.bindv _
        fun _ => rfl
  · exact rfl
theorem hostList_scanCells (q n) : ∀ (s : State), WithHost q (scanCells n s) (scanCells n { s with host :=
    q }) := by
  induction n with
  | zero => intro s; exact rfl
  | succ n ih => intro s; exact WithHost.bind (hostList_scanCell _ _) ih
theorem hostList_scanRow (q) (s : State) : WithHost q (scanRow s) (scanRow { s with host := q }) := by
  refine WithHost.bind (hostList_scanCells _ _ { s with c := .holds 0#9 }) fun t => ?_
  simp only [yieldPoint, Res.ok_bind]
  refine WithHost.bindv (t.emit .yield).p.get fun p => ?_
  by_cases h : (p + 1#9).toNat < t.cfg.np
  · rw [if_pos (by exact h), if_pos (by exact h)]; exact rfl
  · rw [if_neg (by exact h), if_neg (by exact h)]
    exact WithHost.bindv (emptyFrame { t.emit .yield with p := .holds (p + 1#9) }) (f := fun e => .ok (({
        t.emit .yield with p := .holds (p + 1#9) } : State).goto (if e then .a4 else .cmd .tracked .colOp
        .deselect))) fun e => rfl
theorem hostList_display (q) (s : State) : WithHost q (displayStep s) (displayStep { s with host := q }) := by
  simp only [displayStep]
  split
  · exact hostList_scanRow q { initBounds s with p := .holds 0#9 }
  · exact hostList_scanRow _ _
  · exact rfl
  · exact WithHost.bindv _ fun b => hostList_sendCommand _ _ _
  · exact hostList_dopen _ _ _ _
  · exact WithHost.bindv _ fun b => hostList_sendData _ _ _
  · exact WithHost.bindv _ fun p => hostList_pageTest _ _
  · exact WithHost.bindv _ fun b => hostList_sendData _ _ _
  · exact hostList_nextByte _ (s.emit .yield)
  · exact hostList_dclose _ _ _ _
  · exact rfl
  · exact rfl
  · exact rfl

theorem hostList_accept (q r first) (s : State) : WithHost q (accept r first s) (accept r first { s with
    host := q }) := by
  have : acceptFault { s with host := q } r = acceptFault s r := rfl
  simp only [accept, this]
  split
  · exact rfl
  · exact rfl
theorem hostList_displayBody (q m i first) (s : State) : WithHost q (displayBody m i first s) (displayBody
    m i first { s with host := q }) := by
  have : inProgress i { s with host := q } = inProgress i s := rfl
  simp only [displayBody, this]
  split
  · split
    · exact hostList_display _ _
    · exact hostList_accept _ _ _ _
  · exact rfl
theorem hostList_configure (q l) (s : State) : WithHost q (configureLine l s) (configureLine l { s with
    host := q }) := by cases l <;> exact rfl
theorem hostList_connectStep (q k) (s : State) : WithHost q (connectStep k s) (connectStep k { s with host
    := q }) := by
  cases k
  · exact WithHost.bind (hostList_configure _ _ _) fun t => rfl
  · exact WithHost.bind (hostList_configure _ _ _) fun t => rfl
  · exact WithHost.bind (hostList_configure _ _ _) fun t => rfl
  · exact rfl
  · exact rfl
  · exact WithHost.bind (hostList_line _ _ _ _) fun t => rfl
  · exact rfl
  · exact WithHost.bind (hostList_line _ _ _ _) fun t => rfl
  · exact rfl
  · exact WithHost.bind (hostList_line _ _ _ _) fun t => rfl
  · exact rfl
theorem hostList_connectBody (q) (s : State) : WithHost q (connectBody s) (connectBody { s with host := q
    }) := by
  have : inProgress .connect { s with host := q } = inProgress .connect s := rfl
  simp only [connectBody, this]
  split
  · exact hostList_connectStep _ _ _
  · exact hostList_accept _ _ _ _
theorem hostList_settle {q} {s t : State} {x y} (h : WithHost q x y) (ht : settle s x = .next t) : settle {
    s with host := q } y = .next { t with host := q } := by
  obtain ⟨hf, rfl | ⟨r, rfl, rfl⟩⟩ := settle_eq_next.1 ht
  · cases h; exact settle_ok hf
  · cases h; exact settle_raises (s := { s with host := q }) hf
theorem hostList_exec {q} (i) {s t : State} (h : exec i s = .next t) : exec i { s with host := q } = .next
    { t with host := q } := by
  cases i
  · exact hostList_settle (hostList_connectBody _ _) h
  · exact hostList_settle (hostList_displayBody _ _ _ _ _) h
  · exact hostList_settle (hostList_displayBody _ _ _ _ _) h
  · exact hostList_settle (hostList_accept _ _ _ _) h
  · exact hostList_settle (hostList_sendCommand _ _ _) h
  · exact hostList_settle (hostList_sendCommand _ _ _) h
  · exact hostList_settle (hostList_sendCommand _ _ _) h
  · exact hostList_settle (hostList_sendData _ _ _) h
theorem hostList_fbtx (q) {s t : State} (h : fbtxStep s = .next t) : fbtxStep { s with host := q } = .next
    { t with host := q } := by
  have : fetch { s with host := q } = fetch s := rfl
  simp only [fbtxStep, this] at h ⊢
  split at h
  · exact hostList_settle (by exact rfl) h
  · exact hostList_settle (by exact rfl) h
  · exact hostList_exec _ h

/-- A run with an empty list, once more under `wait`. -/
theorem under_wait (rest : List HostMove) (n : Nat) : ∀ {s t : State}, s.Inv → s.fault = none → s.opreq =
    0#2 → s.host = [] → Host.Core.run Sys2Proof.core n s = .next t → t.atRest →
    Reaches { s with host := .wait :: rest } { t with host := rest } := by
  have fin : ∀ {t : State}, t.Inv → t.atRest → Reaches { t with host := .wait :: rest } { t with host :=
      rest } := by
    intro t h hr
    refine reaches_one ?_
    rw [step_host (s := { t with host := .wait :: rest }) h.configOk hr.1 hr.2.2.2 rfl]
    simp [hostMove, movesAfter, hr.2.2.1, settle, hr.1]
  induction n with
  | zero => intro s t h hf hq hh hr ha; cases hr; exact fin h ha
  | succ n ih =>
    intro s t h hf hq hh hr ha
    obtain ⟨u, hu, hi, uf, uq, uh, uc⟩ := fbtx_progress h hf hq
    have hs : step s = .next u := by rw [step_eq h.configOk hf, if_pos hq, hh]; exact hu
    rw [run_one hs] at hr
    have r := ih hi uf uq (by rw [uh, hh]) hr ha
    by_cases hb : s.busy = true
    rotate_left
    ·
      have hidle : s.seq = .idle := by
        by_contra hne; have := h.busyIff.2 hne; simp [hb] at this
      have : u = s := by
        have : fbtxStep s = .next s := by simp [fbtxStep, fetch, hq, frameInProgress, hidle, Seq.owner,
            settle, hf]
        rw [this] at hu; cases hu; rfl
      subst this; exact r
    ·
      refine reaches_trans (reaches_one ?_) r
      have w := hostList_fbtx (.wait :: rest) hu
      rw [step_host (s := { s with host := .wait :: rest }) h.configOk hf hq rfl]
      simp only [hostMove, movesAfter, hb]
      simpa [hb] using w

/-- The host presents a code. -/
theorem present_step {s : State} {code rest} (h : s.Inv) (hf : s.fault = none) (hq : s.opreq = 0#2) (hh :
    s.host = .present code :: rest) :
   step s = .next { s with opreq := code, host := rest } := by
  rw [step_host h.configOk hf hq hh]; simp [hostMove, movesAfter, settle, hf]


end Sys2Proof.Machine
end

