-- ==== Sys2Proof/Laws/Inversion.lean ====
section
/-! SUPPORT. Inversion: for each operation that assigns state, everything a completed run of it can have
done, and that no operation touches `FAULT`. -/

namespace Sys2Proof.Machine

theorem columnTest_inv {s t : State} (h : columnTest s = .ok t) : ∃ q, t = { s with seq := q } := by
  obtain ⟨c, -, h⟩ := Res.bind_eq_ok.1 h
  obtain ⟨m, -, h⟩ := Res.bind_eq_ok.1 h
  cases h
  exact ⟨_, rfl⟩

theorem nextColumn_inv {s t : State} (h : nextColumn s = .ok t) : ∃ c q, t = { s with c := c, seq := q } := by
  obtain ⟨c, -, h⟩ := Res.bind_eq_ok.1 h
  obtain ⟨q, rfl⟩ := columnTest_inv h
  exact ⟨_, q, rfl⟩

theorem pageTest_inv {s t : State} (h : pageTest s = .ok t) : ∃ c q, t = { s with c := c, seq := q } := by
  obtain ⟨p, -, h⟩ := Res.bind_eq_ok.1 h
  obtain ⟨m, -, h⟩ := Res.bind_eq_ok.1 h
  split at h
  · obtain ⟨c, -, h⟩ := Res.bind_eq_ok.1 h
    obtain ⟨q, rfl⟩ := columnTest_inv h
    exact ⟨_, q, rfl⟩
  · cases h
    exact ⟨s.c, _, rfl⟩

theorem enterTrackedRun_inv {s t : State} (h : enterTrackedRun s = .ok t) :
    ∃ p c q, t = { s with p := p, c := c, seq := q } := by
  obtain ⟨p, -, h⟩ := Res.bind_eq_ok.1 h
  obtain ⟨c, q, rfl⟩ := pageTest_inv h
  exact ⟨_, c, q, rfl⟩

theorem nextPage_inv {s t : State} (h : nextPage s = .ok t) :
    ∃ p c q, t = { s with p := p, c := c, seq := q } := by
  obtain ⟨p, -, h⟩ := Res.bind_eq_ok.1 h
  obtain ⟨c, q, rfl⟩ := pageTest_inv h
  exact ⟨_, c, q, rfl⟩

theorem byteTest_inv {s t : State} (h : byteTest s = .ok t) : ∃ q, t = { s with seq := q } := by
  obtain ⟨i, -, h⟩ := Res.bind_eq_ok.1 h
  cases h
  exact ⟨_, rfl⟩

theorem enterFullRun_inv {s t : State} (h : enterFullRun s = .ok t) : ∃ i q, t = { s with i := i, seq := q } := by
  obtain ⟨q, rfl⟩ := byteTest_inv h
  exact ⟨_, q, rfl⟩

theorem nextByte_inv {s t : State} (h : nextByte s = .ok t) : ∃ i q, t = { s with i := i, seq := q } := by
  obtain ⟨i, -, h⟩ := Res.bind_eq_ok.1 h
  obtain ⟨q, rfl⟩ := byteTest_inv h
  exact ⟨_, q, rfl⟩

theorem afterByte_inv {s t : State} (h : afterByte s = .ok t) : ∃ i q, t = { s with i := i, seq := q } := by
  obtain ⟨i, -, h⟩ := Res.bind_eq_ok.1 h
  split at h
  · cases h
    exact ⟨s.i, _, rfl⟩
  · exact nextByte_inv h

theorem bracketStatement_inv {st : BracketStep} {b : Byte} {s t : State}
    (h : bracketStatement st b s = .ok t) :
    t = { s with csN := t.csN, dc := t.dc, rx := t.rx, trace := s.trace ++ [st.event b] } := by
  cases st with
  | deselect => obtain ⟨-, rfl⟩ := line_eq_ok.1 h; rfl
  | command => obtain ⟨-, rfl⟩ := line_eq_ok.1 h; rfl
  | select => obtain ⟨-, rfl⟩ := line_eq_ok.1 h; rfl
  | transfer => obtain ⟨-, rfl⟩ := xfer_eq_ok.1 h; rfl
  | release => obtain ⟨-, rfl⟩ := line_eq_ok.1 h; rfl

/-- A command frame row that completes stood in a bracket and made one of its statements. -/
theorem sendCommand_inv {b : Byte} {s t : State} (h : sendCommand b s = .ok t) :
    ∃ m slot st, s.seq = .cmd m slot st ∧ t = { s with
      csN := t.csN, dc := t.dc, rx := t.rx, trace := s.trace ++ [st.event b],
      seq := Seq.afterStatement m slot st } := by
  unfold sendCommand at h
  split at h
  · next m slot st e =>
    obtain ⟨u, hu, h⟩ := Res.bind_eq_ok.1 h
    cases h
    refine ⟨m, slot, st, e, ?_⟩
    rw [bracketStatement_inv hu]
    rfl
  · cases h

/-- A data row that completes stood in a data run and made one transfer. -/
theorem sendData_inv {d : Byte} {s t : State} (h : sendData d s = .ok t) :
    (s.seq = .a8 ∧ ∃ c q, t = { s.sent d with c := c, seq := q })
      ∨ (s.seq = .b4 ∧ ∃ i q, t = { s.sent d with i := i, seq := q }) := by
  unfold sendData at h
  split at h
  · next e =>
    obtain ⟨u, hu, h⟩ := Res.bind_eq_ok.1 h
    obtain ⟨-, rfl⟩ := xfer_eq_ok.1 hu
    exact .inl ⟨e, nextColumn_inv h⟩
  · next e =>
    obtain ⟨u, hu, h⟩ := Res.bind_eq_ok.1 h
    obtain ⟨-, rfl⟩ := xfer_eq_ok.1 hu
    exact .inr ⟨e, afterByte_inv h⟩
  · cases h

theorem expandBounds_inv {p c : Byte} {s t : State} (h : expandBounds p c s = .ok t) :
    t = { s with minP := t.minP, maxP := t.maxP, minC := t.minC, maxC := t.maxC } := by
  obtain ⟨_, -, h⟩ := Res.bind_eq_ok.1 h
  obtain ⟨_, -, h⟩ := Res.bind_eq_ok.1 h
  obtain ⟨_, -, h⟩ := Res.bind_eq_ok.1 h
  obtain ⟨_, -, h⟩ := Res.bind_eq_ok.1 h
  cases h
  rfl

/-- One cell of the scan: the cell (`P`, `C`) is copied, the bounds may grow, `C` steps. -/
theorem scanCell_inv {s t : State} (h : scanCell s = .ok t) :
    ∃ p c f, s.p = .holds p ∧ s.c = .holds c ∧ t = { s with
      minP := t.minP, maxP := t.maxP, minC := t.minC, maxC := t.maxC, c := .holds (c + 1#9),
      sh := s.sh.write (s.cfg.idx p.toNat c.toNat) f } := by
  obtain ⟨p, hp, h⟩ := Res.bind_eq_ok.1 h
  obtain ⟨c, hc, h⟩ := Res.bind_eq_ok.1 h
  obtain ⟨f, -, h⟩ := Res.bind_eq_ok.1 h
  obtain ⟨g, -, h⟩ := Res.bind_eq_ok.1 h
  obtain ⟨u, hu, h⟩ := Res.bind_eq_ok.1 h
  cases h
  have hu' : u = { s with minP := u.minP, maxP := u.maxP, minC := u.minC, maxC := u.maxC } := by
    unfold noteCell at hu
    split at hu
    · exact expandBounds_inv hu
    · cases hu; rfl
  refine ⟨p, c, f, Reg.get_eq_ok.1 hp, Reg.get_eq_ok.1 hc, ?_⟩
  rw [hu']
  rfl

/-- The scan of `n` cells writes the bounds, `C`, and shadow cells of page row `P` only. -/
theorem scanCells_inv {n : Nat} {s t : State} (h : scanCells n s = .ok t) :
    t = { s with minP := t.minP, maxP := t.maxP, minC := t.minC, maxC := t.maxC, c := t.c, sh := t.sh }
      ∧ ∀ p c, s.p = .holds p → s.c = .holds c → ∀ a,
          (∀ k, k < n → a ≠ s.cfg.idx p.toNat ((c.toNat + k) % 512)) → t.sh.read a = s.sh.read a := by
  induction n generalizing s with
  | zero =>
    cases h
    exact ⟨rfl, fun _ _ _ _ _ _ => rfl⟩
  | succ n ih =>
    obtain ⟨u, hu, h⟩ := Res.bind_eq_ok.1 h
    obtain ⟨p, c, f, hp, hc, hue⟩ := scanCell_inv hu
    obtain ⟨hte, hta⟩ := ih h
    have hup : u.p = .holds p := by rw [hue]; exact hp
    have huc : u.c = .holds (c + 1#9) := by rw [hue]
    have hcfg : u.cfg = s.cfg := by rw [hue]
    have hsh : u.sh = s.sh.write (s.cfg.idx p.toNat c.toNat) f := by rw [hue]
    refine ⟨by rw [hte, hue], fun p' c' hp' hc' a ha => ?_⟩
    rw [hp] at hp'
    rw [hc] at hc'
    cases hp'
    cases hc'
    have hcl : c.toNat % 512 = c.toNat := Nat.mod_eq_of_lt c.isLt
    rw [hta p (c + 1#9) hup huc a fun k hk => ?_, hsh, Memory.read_write_other]
    · have := ha 0 (by omega)
      rwa [Nat.add_zero, hcl] at this
    · have := ha (k + 1) (by omega)
      rw [hcfg]
      have e : ((c + 1#9).toNat + k) % 512 = (c.toNat + (k + 1)) % 512 := by simp; omega
      rw [e]
      exact this

/-- A step of the scan writes the bounds, `P`, `C`, the trace, `seq`, and shadow cells of page row `P` only. -/
theorem scanRow_inv {s t : State} (h : scanRow s = .ok t) :
    t = { s with
      minP := t.minP, maxP := t.maxP, minC := t.minC, maxC := t.maxC, p := t.p, c := t.c, sh := t.sh,
      trace := s.trace ++ [.yield], seq := t.seq }
      ∧ (∀ p, s.p = .holds p → ∀ a, (∀ c, c < s.cfg.w → a ≠ s.cfg.idx p.toNat c) → t.sh.read a = s.sh.read a)
      ∧ t.seq ≠ .idle := by
  obtain ⟨u, hu, h⟩ := Res.bind_eq_ok.1 h
  obtain ⟨hue, hua⟩ := scanCells_inv hu
  obtain ⟨v, hv, h⟩ := Res.bind_eq_ok.1 h
  cases hv
  obtain ⟨p', -, h⟩ := Res.bind_eq_ok.1 h
  have hsh : ∀ p, s.p = .holds p → ∀ a, (∀ c, c < s.cfg.w → a ≠ s.cfg.idx p.toNat c) →
      u.sh.read a = s.sh.read a := by
    intro p hp a ha
    refine hua p 0#9 hp rfl a fun k hk => ha _ ?_
    have : ((0#9).toNat + k) % 512 ≤ k := by simpa using Nat.mod_le k 512
    exact Nat.lt_of_le_of_lt this hk
  have hut : u.trace = s.trace := by rw [hue]
  have hform : ∀ q : Seq, ({ u.emit .yield with p := .holds (p' + 1#9), seq := q } : State) = { s with
      minP := u.minP, maxP := u.maxP, minC := u.minC, maxC := u.maxC, p := .holds (p' + 1#9), c := u.c,
      sh := u.sh, trace := s.trace ++ [.yield], seq := q } := by
    intro q
    simp only [State.emit, hut]
    rw [hue]
  simp only at h
  split at h
  · cases h
    exact ⟨hform _, hsh, by simp⟩
  · obtain ⟨e, -, h⟩ := Res.bind_eq_ok.1 h
    cases h
    refine ⟨hform _, hsh, ?_⟩
    cases e <;> simp

theorem dopenStep_inv {m : Mode} {st : OpenStep} {s t : State} (h : dopenStep m st s = .ok t) :
    (∃ ev, t = { s with
      csN := t.csN, dc := t.dc, p := t.p, c := t.c, i := t.i, trace := s.trace ++ [ev], seq := t.seq })
      ∧ (m = .full → t.p = s.p ∧ t.c = s.c) ∧ (m = .tracked → t.i = s.i) := by
  cases st with
  | deselect =>
    obtain ⟨u, hu, h⟩ := Res.bind_eq_ok.1 h
    obtain ⟨-, rfl⟩ := line_eq_ok.1 hu
    cases h
    exact ⟨⟨_, rfl⟩, fun _ => ⟨rfl, rfl⟩, fun _ => rfl⟩
  | dataMode =>
    obtain ⟨u, hu, h⟩ := Res.bind_eq_ok.1 h
    obtain ⟨-, rfl⟩ := line_eq_ok.1 hu
    cases h
    exact ⟨⟨_, rfl⟩, fun _ => ⟨rfl, rfl⟩, fun _ => rfl⟩
  | select =>
    obtain ⟨u, hu, h⟩ := Res.bind_eq_ok.1 h
    obtain ⟨-, rfl⟩ := line_eq_ok.1 hu
    cases m with
    | tracked =>
      obtain ⟨p, c, q, rfl⟩ := enterTrackedRun_inv h
      exact ⟨⟨_, rfl⟩, by simp, fun _ => rfl⟩
    | full =>
      obtain ⟨i, q, rfl⟩ := enterFullRun_inv h
      exact ⟨⟨_, rfl⟩, fun _ => ⟨rfl, rfl⟩, by simp⟩

theorem dcloseStep_inv {m : Mode} {st : CloseStep} {s t : State} (h : dcloseStep m st s = .ok t) :
    ∃ ev, t = { s with csN := t.csN, dc := t.dc, trace := s.trace ++ [ev], seq := t.seq } := by
  cases st with
  | deselect =>
    obtain ⟨u, hu, h⟩ := Res.bind_eq_ok.1 h
    obtain ⟨-, rfl⟩ := line_eq_ok.1 hu
    cases h
    exact ⟨_, rfl⟩
  | dcLow =>
    obtain ⟨u, hu, h⟩ := Res.bind_eq_ok.1 h
    obtain ⟨-, rfl⟩ := line_eq_ok.1 hu
    cases h
    exact ⟨_, rfl⟩

/-- One labelled line of CONNECT adds one event and leaves the memories, the datapath registers, `CS_N` and `DC`
alone. -/
theorem connectStep_inv {k : ConnectStep} {s t : State} (h : connectStep k s = .ok t) :
    ∃ ev, t = { s with
      seq := t.seq, busy := t.busy, connected := t.connected, result := t.result, dirCs := t.dirCs,
      dirDc := t.dirDc, dirRst := t.dirRst, rstN := t.rstN, busBegun := t.busBegun, busClkdiv := t.busClkdiv,
      trace := s.trace ++ [ev] } := by
  cases k <;> first
    | (cases h; exact ⟨_, rfl⟩)
    | (obtain ⟨u, hu, h⟩ := Res.bind_eq_ok.1 h
       obtain ⟨-, rfl⟩ := line_eq_ok.1 hu
       cases h
       exact ⟨_, rfl⟩)

theorem hostMove_inv {m : HostMove} {s t : State} {body : Res State} (h : hostMove m s = .hostActs body)
    (hb : body = .ok t) :
    t = { s with opreq := t.opreq, fb := t.fb }
      ∧ (t.fb ≠ s.fb → s.busy = false ∧ ∃ x v, x < s.cfg.fbSize ∧ t = { s with fb := s.fb.write x v }) := by
  have wr : ∀ {x v}, fbWrite s x v = .ok t → t = { s with opreq := t.opreq, fb := t.fb }
      ∧ (t.fb ≠ s.fb → s.busy = false ∧ ∃ x v, x < s.cfg.fbSize ∧ t = { s with fb := s.fb.write x v }) := by
    intro x v hw
    obtain ⟨hbusy, hx, rfl⟩ := fbWrite_eq_ok.1 hw
    exact ⟨rfl, fun _ => ⟨hbusy, x, v, hx, rfl⟩⟩
  cases m with
  | present code =>
    simp only [hostMove, MoveEffect.hostActs.injEq] at h
    subst h
    cases hb
    exact ⟨rfl, by simp⟩
  | fbw x v =>
    simp only [hostMove, MoveEffect.hostActs.injEq] at h
    subst h
    exact wr hb
  | pix x y v =>
    simp only [hostMove, MoveEffect.hostActs.injEq] at h
    subst h
    split at hb
    · cases hb
    · obtain ⟨_, -, hw⟩ := Res.bind_eq_ok.1 hb
      exact wr hw
  | readResult =>
    simp only [hostMove, MoveEffect.hostActs.injEq] at h
    subst h
    obtain ⟨_, -, hw⟩ := Res.bind_eq_ok.1 hb
    cases hw
    exact ⟨rfl, by simp⟩
  | hold =>
    simp only [hostMove, MoveEffect.hostActs.injEq] at h
    subst h
    cases hb
    exact ⟨rfl, by simp⟩
  | resume => simp [hostMove] at h
  | wait | never w =>
    simp only [hostMove] at h
    split at h
    · cases h
    · simp only [MoveEffect.hostActs.injEq] at h
      subst h
      cases hb
      exact ⟨rfl, by simp⟩

end Sys2Proof.Machine
end

