-- ==== Sys2Proof/Laws/PerInstr.lean ====
section
/-! SUPPORT. Statements for all instructions, made per instruction: what the encoder writes under the two
command bytes of the opcode table meets the row's mask and match (spec/opcode_table.json). -/

namespace Sys2Proof.Laws.MatchesTableRow

/-- `mask` and `match` of the row of spec/opcode_table.json an instruction stands for. -/
def row : Instr → Nat × Nat
  | .connect => (0b11, 0b01)
  | .displayTracked => (0b11, 0b10)
  | .displayFull => (0b11, 0b10)
  | .reservedOp => (0b11, 0b11)
  | .cmdColumnaddr => (0x1FF, 0x021)
  | .cmdPageaddr => (0x1FF, 0x022)
  | .cmdArg _ => (0x100, 0x000)
  | .data _ => (0x100, 0x100)

/-- The bits of an encoded instruction as a number. -/
def bits : Encoded → Nat
  | .request code => code.toNat
  | .frame _ f => f.toNat

/-- The encoder's word under the row's mask is the row's match. -/
def Statement (i : Instr) : Prop :=
  bits (encode Config.standard i) &&& (row i).1 = (row i).2

theorem connect : Statement .connect := rfl

theorem displayTracked : Statement .displayTracked := rfl

theorem displayFull : Statement .displayFull := rfl

theorem reservedOp : Statement .reservedOp := rfl

theorem cmdColumnaddr : Statement .cmdColumnaddr := rfl

theorem cmdPageaddr : Statement .cmdPageaddr := rfl

/-- Every argument byte. -/
theorem cmdArg (a : Byte) : Statement (.cmdArg a) := by
  revert a; unfold Statement; decide

/-- Every data byte. -/
theorem data (d : Byte) : Statement (.data d) := by
  revert d; unfold Statement; decide

end Sys2Proof.Laws.MatchesTableRow
end

