-- ==== Sys2Proof/Laws/RunTracked.lean ====
section
/-! SUPPORT. Runs of Mode A: the whole scan, and the window from A5 to the end. -/

namespace Sys2Proof.Machine

/-- the outcome of the scan -/
structure Scanned (s0 t : State) : Prop where
  path : PathTo s0 t
  trace : t.trace = s0.trace ++ List.replicate s0.cfg.np .yield
  sh : ∀ x, t.sh.read x = if x < s0.cfg.fbSize then s0.fb.read x else s0.sh.read x
  csN : t.csN = s0.csN
  dc : t.dc = s0.dc
  rect : (t.seq = .a4 ∧ t.sentinelHeld ∧ ∀ p c, p < s0.cfg.np → c < s0.cfg.w → ¬ s0.changed p c) ∨
     (t.seq = .cmd .tracked .colOp .deselect ∧ ∃ c0 c1 p0 p1 : Byte, t.windowHeld c0 c1 p0 p1 ∧
         BoundingBox (fun p c => p < s0.cfg.np ∧ c < s0.cfg.w ∧ s0.changed p c) c0.toNat c1.toNat p0.toNat
         p1.toNat)

theorem row_finish {s0 t : State} {S : Nat → Nat → Prop} {n : Nat} (hR : BoundsOf S t)
   (hcase : (n < t.cfg.np ∧ t.seq = .scan) ∨ (n = t.cfg.np ∧ t.seq = .a4 ∧ t.sentinelHeld) ∨
       (n = t.cfg.np ∧ t.seq = .cmd .tracked .colOp .deselect ∧ ∃ c0 c1 p0 p1, t.windowHeld c0 c1 p0 p1))
   (hn : n = t.cfg.np) (hS : ∀ p c, S p c ↔ (p < s0.cfg.np ∧ c < s0.cfg.w ∧ s0.changed p c)) :
   (t.seq = .a4 ∧ t.sentinelHeld ∧ ∀ p c, p < s0.cfg.np → c < s0.cfg.w → ¬ s0.changed p c) ∨
     (t.seq = .cmd .tracked .colOp .deselect ∧ ∃ c0 c1 p0 p1 : Byte, t.windowHeld c0 c1 p0 p1 ∧
         BoundingBox (fun p c => p < s0.cfg.np ∧ c < s0.cfg.w ∧ s0.changed p c) c0.toNat c1.toNat p0.toNat
         p1.toNat) := by
  have hR := hR.mono hS
  rcases hcase with ⟨h, _⟩ | ⟨_, h1, h2⟩ | ⟨_, h1, c0, c1, p0, p1, h2⟩
  · omega
  · left
    refine ⟨h1, h2, ?_⟩
    rcases hR with ⟨_, hR⟩ | ⟨c0, c1, p0, p1, hw, _⟩
    · intro p c hp hc hch; exact hR p c ⟨hp, hc, hch⟩
    · obtain ⟨_, _, a, b, _, _, e, _⟩ := hw
      obtain ⟨_, _, a', b'⟩ := h2
      rw [a] at a'; rw [b] at b'; cases a'; cases b'; exact absurd e (by decide)
  · right
    refine ⟨h1, ?_⟩
    rcases hR with ⟨hs, _⟩ | ⟨c0', c1', p0', p1', hw, hB⟩
    · obtain ⟨_, _, a, b, _, _, e, _⟩ := h2
      obtain ⟨_, _, a', b'⟩ := hs
      rw [a] at a'; rw [b] at b'; cases a'; cases b'; exact absurd e (by decide)
    · exact ⟨c0', c1', p0', p1', hw, hB⟩

theorem scan_loop (s0 : State) (k : Nat) : ∀ {s : State} {p : BitVec 9}, Cooperating s → PathTo s0 s →
    s.seq = .scan → s.p = .holds p → s.cfg.mode = .tracked →
    p.toNat + k + 1 = s0.cfg.np → s.trace = s0.trace ++ List.replicate p.toNat .yield →
    (∀ x, s.sh.read x = if x < s0.cfg.idx p.toNat 0 then s0.fb.read x else s0.sh.read x) → s.csN = s0.csN →
        s.dc = s0.dc →
    BoundsOf (fun p' c' => p' < p.toNat ∧ c' < s0.cfg.w ∧ s0.changed p' c') s → ∃ t, Scanned s0 t := by
  induction k with
  | zero =>
    intro s p h path e hp hm hk htr hsh hcs hdc hR
    have hcfg := path.same.cfg
    have hfb := path.same.fb
    obtain ⟨t, ht, hte, htc, hta, htread, hRt, hcase⟩ :=
        scanRow_spec s0 (shape_of_inv h.inv hm) hp (by rw [hcfg]; omega) hR hcfg hfb
      (by intro x hx; rw [hsh x, if_neg]; rw [hcfg] at hx; omega)
    have hone := disp_one h (by rw [e]; exact .inl rfl)
        (show displayStep s = .ok t by simp only [displayStep, e, ht])
    have ct : t.cfg = s0.cfg := hone.same.cfg.trans hcfg
    refine ⟨t, path.trans hone, ?_, ?_, ?_, ?_, row_finish hRt (n := p.toNat + 1) ?_ ?_ ?_⟩
    · rw [hte]; simp only; rw [htr, ← hk, List.append_assoc]; congr 1
      rw [Nat.add_zero]; exact (List.replicate_succ' (n := p.toNat)).symm
    · intro x; rw [htread x, hcfg, hfb, hsh x]
      obtain ⟨_, _, _, _, _, hsz, _⟩ := wf_facts h.inv.configOk
      rw [hcfg] at hsz
      have e1 : s0.cfg.idx p.toNat s0.cfg.w = s0.cfg.fbSize := by
        rw [hsz, ← hk, Config.idx, Nat.mul_comm s0.cfg.w, Nat.add_zero, Nat.succ_mul]
      rw [e1]
      by_cases hx : x < s0.cfg.fbSize
      · by_cases hx2 : s0.cfg.idx p.toNat 0 ≤ x
        · rw [if_pos ⟨hx2, hx⟩, if_pos hx]
        · rw [if_neg (by omega), if_pos (by omega), if_pos hx]
      · have : s0.cfg.idx p.toNat 0 ≤ s0.cfg.idx p.toNat s0.cfg.w := by simp [Config.idx]
        rw [if_neg (by omega), if_neg (by omega), if_neg hx]
    · rw [hte]; exact hcs
    · rw [hte]; exact hdc
    · rw [ct, ← hcfg]; exact hcase
    · rw [ct]; omega
    · intro p' c'; rw [hcfg]; constructor
      · rintro (⟨a, b, c⟩ | ⟨a, b, c⟩)
        · exact ⟨by omega, b, c⟩
        · exact ⟨by omega, b, by rw [a]; rwa [a] at c⟩
      · rintro ⟨a, b, c⟩
        by_cases hpp : p' = p.toNat
        · exact .inr ⟨hpp, b, c⟩
        · exact .inl ⟨by omega, b, c⟩
  | succ k ih =>
    intro s p h path e hp hm hk htr hsh hcs hdc hR
    have hcfg := path.same.cfg
    have hfb := path.same.fb
    obtain ⟨t, ht, hte, htc, hta, htread, hRt, hcase⟩ :=
        scanRow_spec s0 (shape_of_inv h.inv hm) hp (by rw [hcfg]; omega) hR hcfg hfb
      (by intro x hx; rw [hsh x, if_neg]; rw [hcfg] at hx; omega)
    have hone := disp_one h (by rw [e]; exact .inl rfl)
        (show displayStep s = .ok t by simp only [displayStep, e, ht])
    have ct : t.cfg = s.cfg := hone.same.cfg
    have hn := (wf_facts h.inv.configOk).2.2.2.1
    rw [hcfg] at hn
    have hp1 : (p + 1#9).toNat = p.toNat + 1 := bv9_succ (n := s0.cfg.np) (by omega) hn
    refine ih (s := t) (p := p + 1#9) hone.quiet (path.trans hone) ?_ (by rw [hte]) (by rw [ct, hm])
        (by omega) ?_ ?_ (by rw [hte]; exact hcs) (by rw [hte]; exact hdc) ?_
    · rcases hcase with ⟨_, h⟩ | ⟨h, _⟩ | ⟨h, _⟩
      · exact h
      · rw [hcfg] at h; omega
      · rw [hcfg] at h; omega
    · rw [hte]; simp only; rw [htr, hp1, List.append_assoc]; congr 1
      exact (List.replicate_succ' (n := p.toNat)).symm
    · intro x; rw [htread x, hcfg, hfb, hsh x, hp1]
      have e1 : s0.cfg.idx p.toNat s0.cfg.w = s0.cfg.idx (p.toNat+1) 0 := by
        simp [Config.idx, Nat.succ_mul]
      have : s0.cfg.idx p.toNat 0 ≤ s0.cfg.idx p.toNat s0.cfg.w := by simp [Config.idx]
      rw [e1] at this ⊢
      by_cases hx : x < s0.cfg.idx (p.toNat+1) 0
      · by_cases hx2 : s0.cfg.idx p.toNat 0 ≤ x
        · rw [if_pos ⟨hx2, hx⟩, if_pos hx]
        · rw [if_neg (by omega), if_pos (by omega), if_pos hx]
      · rw [if_neg (by omega), if_neg (by omega), if_neg hx]
    · refine hRt.mono (fun p' c' => ?_)
      rw [hcfg, hp1]; constructor
      · rintro (⟨a, b, c⟩ | ⟨a, b, c⟩)
        · exact ⟨by omega, b, c⟩
        · exact ⟨by omega, b, by rw [a]; rwa [a] at c⟩
      · rintro ⟨a, b, c⟩
        by_cases hpp : p' = p.toNat
        · exact .inr ⟨hpp, b, c⟩
        · exact .inl ⟨by omega, b, c⟩

theorem scan_run {s : State} (h : Cooperating s) (hm : s.cfg.mode = .tracked) (e : s.seq = .a1) : ∃ t,
    Scanned s t := by
  have hw := wf_facts h.inv.configOk
  have hn := hw.2.2.1
  have hn2 := hw.2.2.2.1
  let s' : State := { initBounds s with p := .holds 0#9 }
  have hsh' : ScanShape s' := by
    have := shape_of_inv h.inv hm
    exact ⟨this.w1, this.w2, this.n1, this.n2, this.size, this.fb, this.sh⟩
  obtain ⟨t, ht, hte, htc, hta, htread, hRt, hcase⟩ := scanRow_spec s (s := s') (S := fun _ _ => False)
      (p := 0#9) hsh' rfl (show 0 < s.cfg.np from hn)
    (.inl ⟨⟨rfl, rfl, rfl, rfl⟩, by simp⟩) rfl rfl (fun _ _ => rfl)
  have hone := disp_one h (by rw [e]; exact .inl rfl)
      (show displayStep s = .ok t by simp only [displayStep, e]; exact ht)
  have ct : t.cfg = s.cfg := hone.same.cfg
  have hidx : s'.cfg.idx (0#9).toNat 0 = 0 := by simp [Config.idx]
  have hidx2 : s'.cfg.idx (0#9).toNat s'.cfg.w = s.cfg.w := by simp [Config.idx]; rfl
  by_cases h1 : s.cfg.np = 1
  · refine ⟨t, hone, ?_, ?_, ?_, ?_, row_finish hRt (n := (0#9).toNat + 1) ?_ ?_ ?_⟩
    · rw [hte, h1]; rfl
    · intro x; rw [htread x, hidx, hidx2]
      have : s.cfg.fbSize = s.cfg.w := by rw [hw.2.2.2.2.2.1, h1, Nat.mul_one]
      rw [this]; simp; rfl
    · rw [hte]; rfl
    · rw [hte]; rfl
    · rw [ct]; exact hcase
    · rw [ct, h1]; rfl
    · intro p c; simp [h1]; intro hp; subst hp; exact fun _ => Iff.rfl
  · obtain ⟨k, hk⟩ : ∃ k, s.cfg.np = k + 2 := ⟨s.cfg.np - 2, by omega⟩
    refine scan_loop s k (s := t) (p := 1#9) hone.quiet hone ?_ (by rw [hte]; rfl) (by rw [ct, hm]) ?_ ?_ ?_
        (by rw [hte]; rfl) (by rw [hte]; rfl) ?_
    · rcases hcase with ⟨_, h⟩ | ⟨h, _⟩ | ⟨h, _⟩
      · exact h
      · exact absurd h.symm h1
      · exact absurd h.symm h1
    · rw [hk]; simp; omega
    · rw [hte]; rfl
    · intro x; rw [htread x, hidx, hidx2]; simp [Config.idx]; rfl
    · refine hRt.mono (fun p c => ?_)
      simp; intro _ _; exact Iff.rfl

structure InWindow (s : State) (c0 c1 p0 p1 : Byte) : Prop where
  quiet : Cooperating s
  mode : s.cfg.mode = .tracked
  win : s.windowHeld c0 c1 p0 p1

theorem InWindow.seg {s t : State} {c0 c1 p0 p1 es} (w : InWindow s c0 c1 p0 p1) (g : Segment s t es) :
    InWindow t c0 c1 p0 p1 := by
  refine ⟨g.path.quiet, by rw [g.path.same.cfg]; exact w.mode, ?_⟩
  have := w.win
  unfold State.windowHeld at *
  rw [g.keeps.minC, g.keeps.maxC, g.keeps.minP, g.keeps.maxP, g.path.same.cfg]; exact this

theorem a8_one {s : State} {c0 c1 p0 p1 : Byte} (w : InWindow s c0 c1 p0 p1) (e : s.seq = .a8)
    {p c : BitVec 9} (hp : s.p = .holds p) (hc : s.c = .holds c)
   (hpl : p.toNat ≤ p1.toNat) (hcl : c.toNat ≤ c1.toNat) :
   ∃ t, Segment s t [xferOf s.fb (s.cfg.idx p.toNat c.toNat)] ∧ t.seq =
       (if c.toNat + 1 ≤ c1.toNat then .a8 else .a9) ∧ t.p = .holds p ∧ t.c = .holds (c + 1#9) := by
  have h := w.quiet
  obtain ⟨w1, w2, w3, w4, w5, w6, w7, w8⟩ := w.win
  have hlt := idx_lt (shape_of_inv h.inv w.mode) (show p.toNat < _ by omega) (show c.toNat < _ by omega)
  obtain ⟨f, hf, hfr⟩ := fbRead_total h.inv.fbShape hlt
  have hx := xfer_ok (b := f) (ready_dirs (h.inv.readyOk h.conn)).2.2.2.1
  have hds : displayStep s = nextColumn (s.sent f) := by
    simp only [displayStep, e, windowByte, hp, hc, Reg.get_holds, Res.ok_bind, hfr, sendData, hx]
  have hev : xferOf s.fb (s.cfg.idx p.toNat c.toNat) = .xfer f := by simp [xferOf, hf]
  rw [nextColumn_spec (s := s.sent f) (c := c) (m := c1) hc w2 hcl] at hds
  have g1 : Segment s _ [.xfer f] :=
      ⟨disp_one h (by rw [e]; exact .inl rfl) hds, ⟨rfl, rfl, rfl, rfl, rfl⟩, rfl⟩
  rw [hev]
  exact ⟨_, g1, rfl, hp, rfl⟩

theorem a8_row (n : Nat) : ∀ {s : State} {c0 c1 p0 p1 : Byte} {p c : BitVec 9}, InWindow s c0 c1 p0 p1 →
    s.seq = .a8 → s.p = .holds p → s.c = .holds c →
   p.toNat ≤ p1.toNat → c.toNat + n = c1.toNat →
   ∃ t, Segment s t ((List.range' c.toNat (n+1)).map (fun x => xferOf s.fb (s.cfg.idx p.toNat x))) ∧ t.seq =
       .a9 ∧ t.p = .holds p := by
  induction n with
  | zero =>
    intro s c0 c1 p0 p1 p c w e hp hc hpl hn
    obtain ⟨t, g, hs, hp', _⟩ := a8_one w e hp hc hpl (by omega)
    rw [if_neg (by omega)] at hs
    exact ⟨t, by simpa using g, hs, hp'⟩
  | succ n ih =>
    intro s c0 c1 p0 p1 p c w e hp hc hpl hn
    obtain ⟨t, g, hs, hp', hc'⟩ := a8_one w e hp hc hpl (by omega)
    rw [if_pos (by omega)] at hs
    have hcs : (c + 1#9).toNat = c.toNat + 1 := by simp; omega
    obtain ⟨u, g2, hu, hup⟩ := ih (w.seg g) hs hp' hc' hpl (by omega)
    rw [hcs, g.path.same.cfg, g.path.same.fb] at g2
    refine ⟨u, ?_, hu, hup⟩
    rw [List.range'_succ, List.map_cons]
    exact g.trans g2

def rowEvents (cfg : Config) (fb : Memory) (c0 c1 : Nat) (p : Nat) : List Event :=
    (fromTo c0 c1).map (fun c => xferOf fb (cfg.idx p c)) ++ [.yield]

theorem row_run {s : State} {c0 c1 p0 p1 : Byte} (w : InWindow s c0 c1 p0 p1) (e : s.seq = .a8)
    {p : BitVec 9} (hp : s.p = .holds p) (hc : s.c = .holds (c0.setWidth 9))
   (hpl : p.toNat ≤ p1.toNat) : ∃ t, Segment s t (rowEvents s.cfg s.fb c0.toNat c1.toNat p.toNat) ∧ t.p =
       .holds (p + 1#9) ∧
     ((p.toNat + 1 ≤ p1.toNat ∧ t.seq = .a8 ∧ t.c = .holds (c0.setWidth 9)) ∨
         (p.toNat = p1.toNat ∧ t.seq = .dclose .tracked .deselect)) := by
  obtain ⟨w1, w2, w3, w4, w5, w6, w7, w8⟩ := w.win
  have w5' : c0.toNat ≤ c1.toNat := w5
  have hc0 : (c0.setWidth 9).toNat = c0.toNat := by simp; omega
  obtain ⟨t, g, et, hpt⟩ := a8_row (c1.toNat - c0.toNat) w e hp hc hpl (by rw [hc0]; omega)
  have wt := w.seg g
  have hps : (p + 1#9).toNat = p.toNat + 1 := by simp; omega
  have hds : displayStep t =
      .ok (if (p + 1#9).toNat ≤ p1.toNat then { ({ t.emit .yield with p := .holds (p + 1#9) } : State) with
      c := .holds (c0.setWidth 9), seq :=
      .a8 } else { ({ t.emit .yield with p := .holds (p + 1#9) } : State) with
      seq := .dclose .tracked .deselect }) := by
    simp only [displayStep, et, yieldPoint, Res.ok_bind, nextPage, State.emit_p, hpt, Reg.get_holds]
    exact pageTest_spec (p := p + 1#9) (c0 := c0) (c1 := c1) (p0 := p0) (p1 := p1) rfl
        (by simpa [State.windowHeld] using wt.win)
  have hr : rowEvents s.cfg s.fb c0.toNat c1.toNat p.toNat =
      (List.range' c0.toNat (c1.toNat - c0.toNat + 1)).map (fun x => xferOf s.fb (s.cfg.idx p.toNat x)) ++
      [.yield] := by
    have : c1.toNat + 1 - c0.toNat = c1.toNat - c0.toNat + 1 := by omega
    rw [rowEvents, fromTo, this]
  rw [hr]
  rw [hc0] at g
  by_cases hle : p.toNat + 1 ≤ p1.toNat
  · rw [hps, if_pos hle] at hds
    exact ⟨_, g.trans ⟨disp_one wt.quiet (by rw [et]; exact .inl rfl) hds, ⟨rfl, rfl, rfl, rfl, rfl⟩, rfl⟩,
        rfl, .inl ⟨hle, rfl, rfl⟩⟩
  · rw [hps, if_neg hle] at hds
    exact ⟨_, g.trans ⟨disp_one wt.quiet (by rw [et]; exact .inl rfl) hds, ⟨rfl, rfl, rfl, rfl, rfl⟩, rfl⟩,
        rfl, .inr ⟨by omega, rfl⟩⟩

theorem rows_run (n : Nat) : ∀ {s : State} {c0 c1 p0 p1 : Byte} {p : BitVec 9}, InWindow s c0 c1 p0 p1 →
    s.seq = .a8 → s.p = .holds p → s.c = .holds (c0.setWidth 9) →
   p.toNat + n = p1.toNat → ∃ t,
       Segment s t ((List.range' p.toNat (n+1)).flatMap (rowEvents s.cfg s.fb c0.toNat c1.toNat)) ∧ t.seq =
       .dclose .tracked .deselect := by
  induction n with
  | zero =>
    intro s c0 c1 p0 p1 p w e hp hc hn
    obtain ⟨t, g, _, h | h⟩ := row_run w e hp hc (by omega)
    · omega
    · exact ⟨t, by simpa using g, h.2⟩
  | succ n ih =>
    intro s c0 c1 p0 p1 p w e hp hc hn
    obtain ⟨t, g, hp', h | h⟩ := row_run w e hp hc (by omega)
    · have hps : (p + 1#9).toNat = p.toNat + 1 := by simp; omega
      obtain ⟨u, g2, hu⟩ := ih (w.seg g) h.2.1 hp' h.2.2 (by omega)
      rw [hps, g.path.same.cfg, g.path.same.fb] at g2
      refine ⟨u, ?_, hu⟩
      rw [List.range'_succ, List.flatMap_cons]
      exact g.trans g2
    · omega

/-- from A5 to the end -/
theorem send_run {s : State} {c0 c1 p0 p1 : Byte} (w : InWindow s c0 c1 p0 p1)
    (e : s.seq = .cmd .tracked .colOp .deselect) :
   ∃ t, Segment s t (Event.setwindow s.cfg c0 c1 p0 p1 ++ Event.dopen ++
       windowRun s.cfg s.fb c0.toNat c1.toNat p0.toNat p1.toNat ++ Event.dclose s.cfg ++ [.done .display])
    ∧ t.atRest ∧ t.csN = .known .high ∧ (t.dc = if s.cfg.dcRestore then .known .low else .known .high) := by
  obtain ⟨w1, w2, w3, w4, w5, w6, w7, w8⟩ := w.win
  have w5' : c0.toNat ≤ c1.toNat := w5
  have w7' : p0.toNat ≤ p1.toNat := w7
  have h := w.quiet
  obtain ⟨t1, g1, e1⟩ := window_run h e (c0 := c0) (c1 := c1) (p0 := p0) (p1 := p1) (by simp [slotByte, w1])
      (by simp [slotByte, w2]) (by simp [slotByte, w3]) (by simp [slotByte, w4])
  obtain ⟨t2, g2, e2⟩ := dopen_run2 g1.path.quiet e1
  have hd := dir_out (g2.path.quiet.inv.readyOk g2.path.quiet.conn)
  have g12 := g1.trans g2
  have w2' := w.seg g12
  have hp0 : (p0.setWidth 9).toNat = p0.toNat := by simp; omega
  have hds : displayStep t2 = .ok { (t2.setLvl .cs .low).emit (.lvl .cs .low) with
      p := .holds (p0.setWidth 9), c := .holds (c0.setWidth 9), seq := .a8 } := by
    have h3 : ((t2.setLvl .cs .low).emit (.lvl .cs .low)).minP.get = .ok p0 := by simp [w2'.win.2.2.1]
    simp only [displayStep, e2, dopenStep, line_ok (hd .cs), Res.ok_bind, enterTrackedRun, h3]
    rw [pageTest_spec (p := p0.setWidth 9) (c0 := c0) (c1 := c1) (p0 := p0) (p1 := p1) rfl
        (by simpa [State.windowHeld] using w2'.win), if_pos (by omega)]
  have g3 : Segment t2 _ [.lvl .cs .low] :=
      ⟨disp_one g2.path.quiet (by rw [e2]; exact .inl rfl) hds, ⟨rfl, rfl, rfl, rfl, rfl⟩, rfl⟩
  have g123 := g12.trans g3
  obtain ⟨t4, g4, e4⟩ := rows_run (p1.toNat - p0.toNat) (w.seg g123) rfl rfl rfl (by rw [hp0]; omega)
  have g14 := g123.trans g4
  obtain ⟨t5, g5, r, a1, a2⟩ := dclose_run g4.path.quiet e4
  refine ⟨t5, ?_, r, a1, ?_⟩
  · have hh := g14.trans g5
    rw [g123.path.same.cfg, g123.path.same.fb, g14.path.same.cfg, hp0] at hh
    have hr : windowRun s.cfg s.fb c0.toNat c1.toNat p0.toNat p1.toNat =
        (List.range' p0.toNat (p1.toNat - p0.toNat + 1)).flatMap (rowEvents s.cfg s.fb c0.toNat c1.toNat) :=
        by
      have : p1.toNat + 1 - p0.toNat = p1.toNat - p0.toNat + 1 := by omega
      have : fromTo p0.toNat p1.toNat = List.range' p0.toNat (p1.toNat - p0.toNat + 1) := by
          rw [fromTo, this]
      unfold windowRun; rw [this]; rfl
    rw [hr]
    simpa [Event.dopen] using hh
  · rw [a2, g14.path.same.cfg]
    have hl := g4.path.quiet.inv.linesOk
    simp only [State.linesAtSeq, e4] at hl
    rw [hl.2]

end Sys2Proof.Machine
end

