-- ==== Sys2Proof/Laws/Receiver.lean ====
section
/-! SUPPORT. The reference receiver: a window and its data run, and the controller stream of each part of a trace. -/

namespace Sys2Proof.Machine

def dataFrames (bs : List Byte) : List Frame := bs.map (Frame.of true)
def receiveAll (cfg : Config) (rx : Rx) (fs : List Frame) : Rx := fs.foldl (Rx.receive cfg) rx

theorem receive_data (cfg : Config) (r : Receiver) (b : Byte) : Rx.receive cfg (.tracking r)
    (Frame.of true b) = .tracking (r.onData b) := by
  simp [Rx.receive, frame_isData, frame_byte]
theorem receive_cmd (cfg : Config) (r : Receiver) (b : Byte) : Rx.receive cfg (.tracking r)
    (Frame.of false b) = r.onCommand cfg b := by
  simp [Rx.receive, frame_isData, frame_byte]

/-- window frames at an idle receiver -/
theorem rx_window (cfg : Config) (hne : cfg.opColumnaddr ≠ cfg.opPageaddr) (r : Receiver)
    (hi : r.ps = .idle) (c0 c1 p0 p1 : Byte) (hc : c0 ≤ c1) (hp : p0 ≤ p1) :
   receiveAll cfg (.tracking r) [Frame.of false cfg.opColumnaddr, Frame.of false c0, Frame.of false c1,
       Frame.of false cfg.opPageaddr, Frame.of false p0, Frame.of false p1]
    = .tracking {
        ram := r.ram, ca0 := c0, ca1 := c1, pa0 := p0, pa1 := p1, cp := c0, pp := p0, ps := .idle } := by
  simp [receiveAll, receive_cmd, Receiver.onCommand, hi, hc, hp, hne.symm]

/-- A receiver between sequences, with a window and its pointers at a cell of it. -/
structure Windowed (r : Receiver) (c0 c1 p0 p1 : Byte) (p c : Byte) : Prop where
  ca0 : r.ca0 = c0
  ca1 : r.ca1 = c1
  pa0 : r.pa0 = p0
  pa1 : r.pa1 = p1
  cp : r.cp = c
  pp : r.pp = p
  ps : r.ps = .idle

theorem rx_row (cfg : Config) (g : Nat → Byte) (n : Nat) : ∀ {r : Receiver} {c0 c1 p0 p1 p c : Byte},
    Windowed r c0 c1 p0 p1 p c → c.toNat + n = c1.toNat →
   ∃ r', receiveAll cfg (.tracking r) (dataFrames ((List.range' c.toNat (n+1)).map g)) = .tracking r' ∧
       Windowed r' c0 c1 p0 p1 (if p = p1 then p0 else p + 1#8) c0 ∧
     ∀ x, r'.ram.read x = if p.toNat * 256 + c.toNat ≤ x ∧ x ≤ p.toNat * 256 + c1.toNat then some
         (g (x - p.toNat * 256)) else r.ram.read x := by
  induction n with
  | zero =>
    intro r c0 c1 p0 p1 p c w hn
    have hcc : c = c1 := BitVec.eq_of_toNat_eq (by omega)
    refine ⟨{ r with
      ram := r.ram.write (Receiver.cell p c) (g c.toNat)
      cp := c0
      pp := if p = p1 then p0 else p + 1#8 }, ?_, ⟨w.ca0, w.ca1, w.pa0, w.pa1, rfl, rfl, w.ps⟩, ?_⟩
    · simp [receiveAll, dataFrames, receive_data, Receiver.onData, w.ca0, w.ca1, w.pa0, w.pa1, w.cp, w.pp,
        hcc]
    · intro x
      by_cases hx : x = Receiver.cell p c
      · subst hx
        rw [Memory.read_write_same, if_pos (by simp only [Receiver.cell]; omega)]; congr 2; simp only
            [Receiver.cell]; omega
      · simp only
        rw [Memory.read_write_other _ hx, if_neg (by simp only [Receiver.cell] at hx; omega)]
  | succ n ih =>
    intro r c0 c1 p0 p1 p c w hn
    have hcc : c ≠ c1 := by intro h; subst h; omega
    have hcs : (c + 1#8).toNat = c.toNat + 1 := by have := c1.isLt; simp; omega
    have hstep : Rx.receive cfg (.tracking r) (Frame.of true (g c.toNat)) = .tracking { r with
        ram := r.ram.write (Receiver.cell p c) (g c.toNat), cp := c + 1#8 } := by
      simp [receive_data, Receiver.onData, w.ca0, w.ca1, w.pa0, w.pa1, w.cp, w.pp, hcc]
    obtain ⟨r', h1, h2, h3⟩ :=
        ih (r := { r with ram := r.ram.write (Receiver.cell p c) (g c.toNat), cp := c + 1#8 })
        (c := c + 1#8)
      ⟨w.ca0, w.ca1, w.pa0, w.pa1, rfl, w.pp, w.ps⟩ (by omega)
    refine ⟨r', ?_, h2, ?_⟩
    · rw [hcs] at h1
      rw [List.range'_succ, List.map_cons]
      simp only [dataFrames, receiveAll, List.map_cons, List.foldl_cons, hstep] at h1 ⊢
      exact h1
    · intro x
      rw [h3 x, hcs]
      by_cases hx : x = Receiver.cell p c
      · subst hx
        rw [if_neg (by simp only [Receiver.cell]; omega), if_pos (by simp only [Receiver.cell]; omega)]
        simp only; rw [Memory.read_write_same]; congr 2; simp only [Receiver.cell]; omega
      · simp only [Receiver.cell] at hx
        have : (p.toNat * 256 + (c.toNat + 1) ≤ x ∧ x ≤ p.toNat * 256 + c1.toNat) ↔
            (p.toNat * 256 + c.toNat ≤ x ∧ x ≤ p.toNat * 256 + c1.toNat) := by omega
        simp only [this]
        rw [Memory.read_write_other _ (by simpa only [Receiver.cell] using hx)]

theorem rx_rows (cfg : Config) (g : Nat → Nat → Byte) (n : Nat) : ∀ {r : Receiver} {c0 c1 p0 p1 p : Byte},
    Windowed r c0 c1 p0 p1 p c0 → c0 ≤ c1 → p.toNat + n = p1.toNat →
   ∃ r', receiveAll cfg (.tracking r)
       (dataFrames ((List.range' p.toNat (n+1)).flatMap (fun q => (fromTo c0.toNat c1.toNat).map (g q)))) =
       .tracking r' ∧ Windowed r' c0 c1 p0 p1 p0 c0 ∧
     ∀ q c : Byte, r'.ram.read (Receiver.cell q c) = if p ≤ q ∧ q ≤ p1 ∧ c0 ≤ c ∧
         c ≤ c1 then some (g q.toNat c.toNat) else r.ram.read (Receiver.cell q c) := by
  have row : ∀ {r : Receiver} {c0 c1 p0 p1 p : Byte}, Windowed r c0 c1 p0 p1 p c0 → c0 ≤ c1 →
     ∃ r', receiveAll cfg (.tracking r) (dataFrames ((fromTo c0.toNat c1.toNat).map (g p.toNat))) =
         .tracking r' ∧ Windowed r' c0 c1 p0 p1 (if p = p1 then p0 else p + 1#8) c0 ∧
     ∀ q c : Byte, r'.ram.read (Receiver.cell q c) = if q = p ∧ c0 ≤ c ∧
         c ≤ c1 then some (g p.toNat c.toNat) else r.ram.read (Receiver.cell q c) := by
    intro r c0 c1 p0 p1 p w hc
    have hc' : c0.toNat ≤ c1.toNat := hc
    obtain ⟨r', h1, h2, h3⟩ := rx_row cfg (g p.toNat) (c1.toNat - c0.toNat) w (by omega)
    refine ⟨r', ?_, h2, ?_⟩
    · have : c1.toNat + 1 - c0.toNat = c1.toNat - c0.toNat + 1 := by omega
      rw [fromTo, this]; exact h1
    · intro q c
      rw [h3]
      have hq := q.isLt; have hcl := c.isLt; have hpl := p.isLt; have hc1 := c1.isLt
      simp only [Receiver.cell, BitVec.le_def]
      by_cases hqp : q = p
      · subst hqp
        have : (q.toNat * 256 + c0.toNat ≤ q.toNat * 256 + c.toNat ∧
            q.toNat * 256 + c.toNat ≤ q.toNat * 256 + c1.toNat) ↔
            (q = q ∧ c0.toNat ≤ c.toNat ∧ c.toNat ≤ c1.toNat) := by
          constructor
          · rintro ⟨a, b⟩; exact ⟨rfl, by omega, by omega⟩
          · rintro ⟨_, a, b⟩; omega
        simp only [this]
        have e : q.toNat * 256 + c.toNat - q.toNat * 256 = c.toNat := by omega
        rw [e]
      · have hne : q.toNat ≠ p.toNat := fun h => hqp (BitVec.eq_of_toNat_eq h)
        have ha : ¬ (p.toNat * 256 + c0.toNat ≤ q.toNat * 256 + c.toNat ∧
            q.toNat * 256 + c.toNat ≤ p.toNat * 256 + c1.toNat) := by omega
        have hb : ¬ (q = p ∧ c0.toNat ≤ c.toNat ∧ c.toNat ≤ c1.toNat) := fun h => hqp h.1
        simp only [ha, hb, if_false]
  induction n with
  | zero =>
    intro r c0 c1 p0 p1 p w hc hn
    obtain ⟨r', h1, h2, h3⟩ := row w hc
    have hpp : p = p1 := BitVec.eq_of_toNat_eq (by omega)
    subst hpp
    refine ⟨r', by simpa using h1, by simpa using h2, ?_⟩
    intro q c; rw [h3]
    have : (q = p ∧ c0 ≤ c ∧ c ≤ c1) ↔ (p ≤ q ∧ q ≤ p ∧ c0 ≤ c ∧ c ≤ c1) := by
      constructor
      · rintro ⟨rfl, a⟩; exact ⟨BitVec.le_refl _, BitVec.le_refl _, a⟩
      · rintro ⟨a, b, c⟩; exact ⟨BitVec.le_antisymm b a, c⟩
    simp only [this]
    split
    · rename_i hh; rw [BitVec.le_antisymm hh.1 hh.2.1]
    · rfl
  | succ n ih =>
    intro r c0 c1 p0 p1 p w hc hn
    obtain ⟨r1, h1, h2, h3⟩ := row w hc
    have hpp : p ≠ p1 := by intro h; subst h; omega
    rw [if_neg hpp] at h2
    have hps : (p + 1#8).toNat = p.toNat + 1 := by have := p1.isLt; simp; omega
    obtain ⟨r2, k1, k2, k3⟩ := ih h2 hc (by omega)
    rw [hps] at k1
    refine ⟨r2, ?_, k2, ?_⟩
    · rw [List.range'_succ, List.flatMap_cons]
      simp only [dataFrames, List.map_append, receiveAll, List.foldl_append] at h1 k1 ⊢
      rw [h1, k1]
    · intro q c; rw [k3, h3]
      simp only [BitVec.le_def, hps]
      by_cases hq : q = p
      · subst hq
        rw [if_neg (by omega)]
        by_cases hcc : c0.toNat ≤ c.toNat ∧ c.toNat ≤ c1.toNat
        · rw [if_pos ⟨rfl, hcc⟩, if_pos ⟨by omega, by omega, hcc⟩]
        · rw [if_neg (by rintro ⟨_, h⟩; exact hcc h), if_neg (by rintro ⟨_, _, h⟩; exact hcc h)]
      · have hne : q.toNat ≠ p.toNat := fun h => hq (BitVec.eq_of_toNat_eq h)
        have : (p.toNat + 1 ≤ q.toNat ∧ q.toNat ≤ p1.toNat ∧ c0.toNat ≤ c.toNat ∧ c.toNat ≤ c1.toNat) ↔
            (p.toNat ≤ q.toNat ∧ q.toNat ≤ p1.toNat ∧ c0.toNat ≤ c.toNat ∧ c.toNat ≤ c1.toNat) := by omega
        simp only [this]
        have h2 : ¬ (q = p ∧ c0.toNat ≤ c.toNat ∧ c.toNat ≤ c1.toNat) := by rintro ⟨h, _⟩; exact hq h
        rw [if_neg h2]

/-- streams -/
theorem stream_sendcmd (v : BusView) (b : Byte) (rest : List Event) :
   streamFrom v (Event.sendcmd b ++ rest) = Frame.of false b :: streamFrom { v with
       csN := .known .high, dc := .known .low } rest := by
  simp [Event.sendcmd, streamFrom, BusView.after, frameOnLines, Level.isHigh]

theorem stream_setwindow (cfg : Config) (v : BusView) (c0 c1 p0 p1 : Byte) (rest : List Event) :
   streamFrom v (Event.setwindow cfg c0 c1 p0 p1 ++ rest) =
       [Frame.of false cfg.opColumnaddr, Frame.of false c0, Frame.of false c1,
       Frame.of false cfg.opPageaddr, Frame.of false p0, Frame.of false p1]
     ++ streamFrom { v with csN := .known .high, dc := .known .low } rest := by
  simp [Event.setwindow, stream_sendcmd]

/-- events that touch no line -/
def DataEvents (es : List Event) : Prop := ∀ e ∈ es, e.isXfer = true ∨ e.isYield = true
def bytesOf (es : List Event) : List Byte := es.flatMap fun | .xfer b => [b] | _ => []
theorem bytesOf_append (a b : List Event) : bytesOf (a ++ b) = bytesOf a ++ bytesOf b := by simp [bytesOf]

theorem stream_data (v : BusView) (hc : v.csN = .known .low) (hd : v.dc = .known .high) :
    ∀ (es rest : List Event), DataEvents es →
   streamFrom v (es ++ rest) = dataFrames (bytesOf es) ++ streamFrom v rest
  | [], rest, _ => rfl
  | e :: es, rest, h => by
    have ih := stream_data v hc hd es rest (fun x hx => h x (List.mem_cons_of_mem _ hx))
    have he := h e List.mem_cons_self
    cases e <;> simp [Event.isXfer, Event.isYield] at he
    · simp only [List.cons_append, streamFrom, hc, hd, ih]
      simp [frameOnLines, Level.isHigh, dataFrames, bytesOf]
    · simp only [List.cons_append, streamFrom, BusView.after, ih]
      simp [dataFrames, bytesOf]

theorem stream_replicate (v : BusView) (n : Nat) (rest : List Event) :
    streamFrom v (List.replicate n .yield ++ rest) = streamFrom v rest := by
  induction n with
  | zero => rfl
  | succ n ih => simp [List.replicate_succ, streamFrom, BusView.after, ih]

theorem stream_close (cfg : Config) (v : BusView) : streamFrom v (Event.dclose cfg ++ [.done .display]) =
    [] := by
  unfold Event.dclose; split <;> simp [streamFrom]

theorem stream_tail (cfg : Config) (v : BusView) (c0 c1 p0 p1 : Byte) (run : List Event)
    (hq : DataEvents run) :
  streamFrom v (Event.setwindow cfg c0 c1 p0 p1 ++ Event.dopen ++ run ++ Event.dclose cfg ++
      [.done .display]) =
   [Frame.of false cfg.opColumnaddr, Frame.of false c0, Frame.of false c1, Frame.of false cfg.opPageaddr,
       Frame.of false p0, Frame.of false p1] ++ dataFrames (bytesOf run) := by
  simp only [List.append_assoc]
  rw [stream_setwindow]
  simp only [Event.dopen, List.cons_append, List.nil_append, streamFrom, BusView.after]
  rw [stream_data _ rfl rfl _ _ hq, stream_close]; simp

theorem bytes_window (cfg : Config) (fb : Memory) (c0 c1 p0 p1 : Nat) :
    bytesOf (windowRun cfg fb c0 c1 p0 p1) =
    (fromTo p0 p1).flatMap (fun q => (fromTo c0 c1).map (fun c => (fb.read (cfg.idx q c)).getD 0#8)) := by
  simp only [windowRun, bytesOf, List.flatMap_assoc]
  congr 1; funext q
  simp [xferOf, List.flatMap_map, List.flatMap_append]
  induction fromTo c0 c1 with
  | nil => rfl
  | cons a l ih => simp [ih]

theorem quietly_window (cfg : Config) (fb : Memory) (c0 c1 p0 p1 : Nat) :
    DataEvents (windowRun cfg fb c0 c1 p0 p1) := by
  intro e he
  simp only [windowRun, List.mem_flatMap, List.mem_append, List.mem_map, List.mem_singleton] at he
  obtain ⟨_, _, ⟨c, _, rfl⟩ | rfl⟩ := he
  · exact .inl rfl
  · exact .inr rfl

theorem rx_of_trace {s t : State} (hs : s.Inv) (ht : t.Inv) (hc : t.cfg = s.cfg) {es}
    (htr : t.trace = s.trace ++ es) :
   t.rx = receiveAll s.cfg s.rx (streamFrom s.bus es) := by
  rw [ht.receiverOk, hs.receiverOk, htr, hc]
  simp only [controllerStream, streamFrom_append, receiverAfter, List.foldl_append, receiveAll]
  congr 2
  have := hs.busTraced
  simp only [busAfter] at this
  rw [this]

end Sys2Proof.Machine
end

