-- ==== Sys2Proof/Tests/Slice0.lean ====
section
/-! SUPPORT. Tests: each check refuses an ill-formed term; words written out from the encodings decode; single
steps give what spec/95_test_vectors.md says; and for every obligation that has hypotheses, values that meet
them. -/

namespace Sys2Proof.Tests

open Sys2Proof.Machine

/-! Configurations and states. -/

/-- `CFG_A` of spec/95_test_vectors.md, with a divider of 8. -/
def cfgA : Config :=
  { Config.standard with
    w := 4, h := 16, np := 2, fbSize := 8, clkdiv := 8, fbBase := 0, bitOrder := 0, spiMode := 0,
    yieldPeriodB := 4 }

/-- A small Mode B configuration: one column, four pages, a yield after every two bytes. -/
def cfgB : Config :=
  { cfgA with w := 1, h := 32, np := 4, fbSize := 4, mode := .full, geom := .g128x32, yieldPeriodB := 2 }

/-- A framebuffer or shadow buffer from its bytes. -/
def bytes (l : List Nat) (i : Nat) : Byte := BitVec.ofNat 8 (l.getD i 0)

/-- Block reset, all bytes 0. -/
def fresh (cfg : Config) : State := State.blockReset cfg (bytes []) (bytes [])

/-- Where CONNECT leaves a state (vector V7). -/
def connected (cfg : Config) (fb sh : List Nat) : State :=
  { State.blockReset cfg (bytes fb) (bytes sh) with
    connected := true, result := .holds 1#1, dirCs := .output, dirDc := .output, dirRst := .output,
    busBegun := true, busClkdiv := .known cfg.clkdiv, rstN := .known .high,
    trace := connectTrace cfg }

/-- A DISPLAY at a position, no data bracket open. -/
def displaying (s : State) (q : Seq) : State := { s with busy := true, seq := q }

/-- A DISPLAY at a position inside the data bracket. -/
def inBracket (s : State) (q : Seq) : State :=
  { s with
    busy := true, seq := q, csN := .known .low, dc := .known .high, trace := s.trace ++ Event.dopen }

/-- The bounds and counters of a window. -/
def withWindow (s : State) (c0 c1 p0 p1 : Byte) (p c : BitVec 9) : State :=
  { s with
    minC := .holds c0, maxC := .holds c1, minP := .holds p0, maxP := .holds p1, p := .holds p,
    c := .holds c }

/-- The sentinel bounds, at page row `p`. -/
def withSentinel (s : State) (p : BitVec 9) : State :=
  { s with
    minC := .holds 0xFF#8, maxC := .holds 0x00#8, minP := .holds 0xFF#8, maxP := .holds 0x00#8,
    p := .holds p }

/-- Mode A at rest with cells (0, 2) and (1, 1) changed (program P2). -/
def restA : State := connected cfgA [0, 0, 0xAA, 0, 0, 1, 0, 0] []

/-- Mode A at rest, nothing changed (program P1). -/
def sameA : State := connected cfgA [] []

/-- Mode A at rest, cell (1, 2) changed in one bit (vector V16). -/
def oneA : State := connected cfgA [0, 0, 0, 0, 0, 0, 0x80, 0] []

/-- Mode B at rest. -/
def restB : State := connected cfgB [0x01, 0, 0, 0x80] []

/-- DISPLAY presented. -/
def asked (s : State) : State := { s with opreq := 0b10#2 }

/-! Ill-formed terms: each check refuses its own. -/

theorem test_chk_width : ({ cfgA with w := 0, fbSize := 0 } : Config).firstFailure = some .chkWidth := by decide
theorem test_chk_width_high :
    ({ cfgA with w := 257, fbSize := 514 } : Config).firstFailure = some .chkWidth := by decide
theorem test_chk_pages : ({ cfgA with h := 15 } : Config).firstFailure = some .chkPages := by decide
theorem test_chk_size : ({ cfgA with fbSize := 9 } : Config).firstFailure = some .chkSize := by decide
/-- V24. -/
theorem test_chk_geom_full :
    ({ cfgB with geom := .g128x64 } : Config).firstFailure = some .chkGeomFull := by decide
theorem test_chk_hold : ({ cfgA with tRstHold := 9 } : Config).firstFailure = some .chkHold := by decide
theorem test_chk_yield : ({ cfgB with yieldPeriodB := 5 } : Config).firstFailure = some .chkYield := by decide
theorem test_chk_lines : ({ cfgA with lineDc := 2 } : Config).firstFailure = some .chkLines := by decide
theorem test_chk_tracked_row : Instr.displayTracked.failure cfgB = some .chkTrackedRow := by decide
theorem test_chk_full_row : Instr.displayFull.failure cfgA = some .chkFullRow := by decide
theorem test_chk_host_index : HostStmt.wellFormed cfgA (.fbw 8 0#8) = false := by decide
theorem test_chk_host_pixel : HostStmt.wellFormed cfgA (.pix 3 16 true) = false := by decide
theorem test_cfgs_well_formed : cfgA.WellFormed ∧ cfgB.WellFormed ∧ Config.standard.WellFormed := by decide

/-! Decoding: words from spec/30_encoding.md R70, R76 to R81. -/

theorem test_decode_requests :
    decodeTableWord 8 0b01 = some .connect ∧ decodeTableWord 8 0b10 = some .displayTracked
      ∧ decodeTableWord 8 0b11 = some .reservedOp ∧ decodeTableWord 8 0b00 = none
      ∧ decodeWord cfgB .opreq2 0b10 = .ok .displayFull := by decide
theorem test_decode_frames :
    decodeTableWord 16 0b000100001 = some .cmdColumnaddr ∧ decodeTableWord 16 0b000100010 = some .cmdPageaddr
      ∧ decodeTableWord 16 0b000110010 = some (.cmdArg 50#8) ∧ decodeTableWord 16 0b101010101 = some (.data 0x55#8)
      ∧ decodeTableWord 16 0x200 = none := by decide
/-- V19: a column argument equal to a command byte. -/
theorem test_decode_by_position :
    decodeFrame cfgA .argument 0b000100001#9 = .ok (.cmdArg 33#8)
      ∧ decodeFrame cfgA .opcode 0b000100001#9 = .ok .cmdColumnaddr
      ∧ decodeFrame cfgA .opcode 0b010101110#9 = .error .otherCommand := by decide

/-! One word placed where the next step runs it. -/

theorem test_placed_requests :
    step ((fresh cfgA).withFetchWord 8 0b01) = exec .connect ((fresh cfgA).withFetchWord 8 0b01)
      ∧ step (sameA.withFetchWord 8 0b10) = exec .displayTracked (sameA.withFetchWord 8 0b10)
      ∧ step (restB.withFetchWord 8 0b10) = exec .displayFull (restB.withFetchWord 8 0b10)
      ∧ step ((fresh cfgA).withFetchWord 8 0b11) = exec .reservedOp ((fresh cfgA).withFetchWord 8 0b11) := by
  refine ⟨?_, ?_, ?_, ?_⟩ <;> rfl
theorem test_placed_frames :
    step ((fresh cfgA).withFetchWord 16 0x021) = exec .cmdColumnaddr ((fresh cfgA).withFetchWord 16 0x021)
      ∧ step ((fresh cfgA).withFetchWord 16 0x022) = exec .cmdPageaddr ((fresh cfgA).withFetchWord 16 0x022)
      ∧ step ((fresh cfgA).withFetchWord 16 0x032) = exec (.cmdArg 50#8) ((fresh cfgA).withFetchWord 16 0x032)
      ∧ step ((fresh cfgA).withFetchWord 16 0x1AB) = exec (.data 0xAB#8) ((fresh cfgA).withFetchWord 16 0x1AB) := by
  refine ⟨?_, ?_, ?_, ?_⟩ <;> rfl
/-- R102, R134: a placed page command is followed by its first argument, with the registers it reads written. -/
theorem test_placed_frame_goes_on :
    (match Host.Core.run Sys2Proof.core 3 ((fresh cfgA).withFetchWord 16 0x022) with
      | .next t => decide (t.fault = none ∧ t.seq = .cmd .tracked .pageFirst .command)
      | .fault _ | .refused _ => false) = true := by decide
theorem test_placed_at_reset :
    step (State.reset.withFetchWord 16 0x1AB) = exec (.data 0xAB#8) (State.reset.withFetchWord 16 0x1AB) := by rfl

/-! Single steps, against spec/95_test_vectors.md. -/

/-- The state a step answers, for tests that look at a few of its fields. -/
def after (o : Host.Outcome State Fault Refusal) : Option State :=
  match o with
  | .next t => some t
  | .fault _ | .refused _ => none

/-- One field of the state a step answers. -/
def gives {α : Type} [DecidableEq α] (o : Host.Outcome State Fault Refusal) (f : State → α) (v : α) : Bool :=
  (after o).any fun t => decide (f t = v)

/-- V7: the fourth event is `Begin`. -/
theorem test_connect_begins :
    gives (exec .connect { fresh cfgA with busy := true, seq := .connect .k4 })
      (fun t => (t.trace, t.busBegun, t.seq)) ([.begin], true, .connect .k5) = true := by decide
/-- V9. -/
theorem test_connect_again :
    gives (exec .connect { sameA with opreq := 0b01#2 })
      (fun t => (t.fault, t.trace)) (some ⟨.reconnect, .idle⟩, connectTrace cfgA) = true := by decide
/-- V25. -/
theorem test_display_not_connected :
    gives (exec .displayTracked (asked (fresh cfgA)))
      (fun t => (t.fault, t.busy, t.trace)) (some ⟨.notConnected, .idle⟩, false, []) = true := by decide
/-- P2, page row 0 of the first scan: cell (0, 2) differs. -/
theorem test_display_tracked_first_row :
    gives (exec .displayTracked (displaying restA .a1))
      (fun t => [t.minC, t.maxC, t.minP, t.maxP]) [.holds 2#8, .holds 2#8, .holds 0#8, .holds 0#8] = true
      ∧ gives (exec .displayTracked (displaying restA .a1))
        (fun t => (t.sh.read 2, t.seq)) (some 0xAA#8, .scan) = true := by decide
/-- V22: with `DC_RESTORE = 0` the data bracket closes with one event and leaves `DC = 1`. -/
theorem test_display_full_close :
    gives (exec .displayFull (inBracket (connected { cfgB with dcRestore := false } [] [])
        (.dclose .full .deselect)))
      (fun t => (t.csN, t.dc, t.seq)) (.known .high, .known .high, .finish .full) = true := by decide
/-- V20: after the second byte of two a yield follows, as `(I + 1) mod 2 = 0`. -/
theorem test_display_full_transfer :
    gives (exec .displayFull { inBracket restB .b4 with i := .holds 1#17 })
      (fun t => (t.seq, t.i)) (.b4Yield, .holds 1#17) = true := by decide
/-- V26. -/
theorem test_reserved_op :
    gives (exec .reservedOp { sameA with opreq := 0b11#2 })
      (fun t => t.fault) (some ⟨.reservedOp, .idle⟩) = true := by decide
/-- V29. -/
theorem test_reserved_op_busy :
    gives (exec .reservedOp { displaying sameA .a1 with opreq := 0b11#2 })
      (fun t => t.fault) (some ⟨.busy, .a1⟩) = true := by decide
/-- V1: the first event comes though `CS_N` held nothing. -/
theorem test_columnaddr_deselect :
    gives (exec .cmdColumnaddr (displaying sameA (.cmd .tracked .colOp .deselect)))
      (fun t => (t.csN, t.trace.getLast?)) (.known .high, some (.lvl .cs .high)) = true := by decide
/-- V1: the transfer, and the frame it carries. -/
theorem test_columnaddr_transfer :
    gives (exec .cmdColumnaddr { displaying sameA (.cmd .tracked .colOp .transfer) with
        csN := .known .low, dc := .known .low })
      (fun t => (t.trace.getLast?, t.rx))
      (some (.xfer 0x21#8), .tracking { Receiver.initial with ps := .col1 }) = true := by decide
/-- V4. -/
theorem test_pageaddr_bus_not_begun :
    gives (exec .cmdPageaddr { displaying sameA (.cmd .tracked .pageOp .transfer) with busBegun := false })
      (fun t => (t.fault.map FaultRecord.reason, t.trace)) (some .busNotBegun, connectTrace cfgA) = true := by
  decide
/-- V2: `DC` goes from data to command mode. -/
theorem test_arg_command_mode :
    gives (exec (.cmdArg 0x00#8) { displaying sameA (.cmd .tracked .colFirst .command) with
        csN := .known .high, dc := .known .high })
      (fun t => (t.dc, t.trace.getLast?)) (.known .low, some (.lvl .dc .low)) = true := by decide
/-- V3. -/
theorem test_arg_line_not_output :
    gives (exec (.cmdArg 0x00#8) { displaying sameA (.cmd .tracked .colFirst .deselect) with dirCs := .input })
      (fun t => (t.fault.map FaultRecord.reason, t.csN)) (some .lineNotOutput, .unk) = true := by decide
/-- V5: one data byte; the window's row ends after it. -/
theorem test_data_transfer :
    gives (exec (.data 0xAB#8) (withWindow (inBracket sameA .a8) 1#8 2#8 0#8 1#8 0#9 2#9))
      (fun t => (t.trace.getLast?, t.seq, t.c)) (some (.xfer 0xAB#8), .a9, .holds 3#9) = true := by decide
/-- V28. -/
theorem test_host_write_while_busy :
    gives (step { displaying sameA .scan with host := [.fbw 0 0x01#8] })
      (fun t => (t.fault.map FaultRecord.reason, t.fb.read 0)) (some .fbWriteBusy, some 0x00#8) = true := by decide
/-- P5: `PIX 3, 9, 1` sets bit 1 of byte 7. -/
theorem test_host_pixel :
    gives (step { restA with host := [.pix 3 9 true] })
      (fun t => (t.fb.read 7, t.fb.read 5)) (some 0x02#8, some 0x01#8) = true := by decide

/-- R101: the transfer of a stalled bus does not complete, the row of the scan before it does. -/
theorem test_stalled_bus :
    gives (step { displaying sameA .a8 with host := [.never .transfer] })
      (fun t => (t.seq, t.trace, t.host)) (.a8, connectTrace cfgA, [.never .transfer]) = true
    ∧ gives (step { displaying sameA .a1 with host := [.never .transfer] })
      (fun t => (t.seq, t.trace.getLast?)) (.scan, some .yield) = true := by decide
/-- R63: a data byte is stored at `RAM[pp][cp]` before any window too, at the start values of
notes/assumptions/16.md. -/
theorem test_data_before_window :
    (Receiver.initial.onData 0xAB#8).ram.read 0 = some 0xAB#8 ∧ Receiver.initial.ram.read 0 = none := by decide
/-- R192: no run is over before a request has completed, nor while one is still to come; what else the host
has still to do does not matter. -/
theorem test_run_over :
    State.reset.runOver = false ∧ restA.runOver = true
      ∧ ({ restA with host := [.wait, .fbw 0 1#8, .readResult] } : State).runOver = true
      ∧ ({ restA with host := [.hold, .present 0b10#2] } : State).runOver = false := by decide

/-! States that meet the invariant. -/

/-- Every state CONNECT leaves meets the invariant. -/
theorem inv_connected {cfg : Config} (h : cfg.WellFormed) (fb sh : List Nat) : (connected cfg fb sh).Inv where
  configOk := h
  fbShape := by simp [connected, State.blockReset]
  shShape := by
    simp only [connected, State.blockReset]
    split <;> rename_i hm <;> simp [hm]
    simp [Memory.addresses]
  busyIff := by simp [connected, State.blockReset]
  modeOk := trivial
  ownerOk := nofun
  connectOk := nofun
  readyOk := fun _ => ⟨⟨fun _ => rfl, fun _ => rfl, fun _ => rfl, fun _ => rfl, fun _ => rfl,
    fun h => absurd h (by decide), fun h => absurd h (by decide), fun _ => rfl⟩, rfl⟩
  linesOk := trivial
  registersOk := trivial
  busTraced := rfl
  traceOk := rfl
  receiverOk := rfl

theorem inv_restA : restA.Inv := inv_connected (by decide) _ _
theorem inv_sameA : sameA.Inv := inv_connected (by decide) _ _
theorem inv_oneA : oneA.Inv := inv_connected (by decide) _ _
theorem inv_restB : restB.Inv := inv_connected (by decide) _ _

/-- Mode A at A1. -/
def atA1 : State := displaying restA .a1

/-- Mode A at the scan of the last page row, nothing found so far. -/
def atScan : State := withSentinel (displaying restA .scan) 1#9

/-- Mode A at the scan of the last page row, cell (0, 2) found. -/
def atScanFound : State := withWindow (displaying restA .scan) 2#8 2#8 0#8 0#8 1#9 4#9

/-- Mode A at the first column bracket. -/
def atColFirst : State := withWindow (displaying restA (.cmd .tracked .colFirst .deselect)) 1#8 2#8 0#8 1#8 2#9 4#9

/-- Mode A at the last cell of the window's first row. -/
def atA8 : State := withWindow (inBracket restA .a8) 1#8 2#8 0#8 1#8 0#9 2#9

/-- Mode A after the window's first row. -/
def atA9 : State := withWindow (inBracket restA .a9) 1#8 2#8 0#8 1#8 0#9 3#9

/-- Mode B at the last byte. -/
def atB4 : State := { inBracket restB .b4 with i := .holds 3#17 }

/-- Mode B at its first bracket. -/
def atB1 : State := displaying restB (.cmd .full .colOp .deselect)

theorem inv_atA1 : atA1.Inv :=
  display_inv inv_restA rfl ⟨rfl, rfl, rfl, rfl, rfl, rfl, rfl, rfl, rfl, rfl, rfl, rfl, rfl, rfl⟩ (by decide)
    (.inr rfl) trivial trivial ⟨rfl, rfl, rfl⟩
theorem inv_atScan : atScan.Inv :=
  display_inv inv_restA rfl ⟨rfl, rfl, rfl, rfl, rfl, rfl, rfl, rfl, rfl, rfl, rfl, rfl, rfl, rfl⟩ (by decide)
    (.inr rfl) trivial ⟨⟨1#9, rfl, by decide⟩, .inl ⟨rfl, rfl, rfl, rfl⟩⟩ ⟨rfl, rfl, rfl⟩
theorem inv_atScanFound : atScanFound.Inv :=
  display_inv inv_restA rfl ⟨rfl, rfl, rfl, rfl, rfl, rfl, rfl, rfl, rfl, rfl, rfl, rfl, rfl, rfl⟩ (by decide)
    (.inr rfl) trivial ⟨⟨1#9, rfl, by decide⟩, .inr ⟨_, _, _, _, rfl, rfl, rfl, rfl, by decide⟩⟩
    ⟨rfl, rfl, rfl⟩
theorem inv_atColFirst : atColFirst.Inv :=
  display_inv inv_restA rfl ⟨rfl, rfl, rfl, rfl, rfl, rfl, rfl, rfl, rfl, rfl, rfl, rfl, rfl, rfl⟩ (by decide)
    (.inr rfl) trivial ⟨_, _, _, _, rfl, rfl, rfl, rfl, by decide⟩ ⟨rfl, rfl, rfl⟩
theorem inv_atA8 : atA8.Inv :=
  display_inv inv_restA rfl ⟨rfl, rfl, rfl, rfl, rfl, rfl, rfl, rfl, rfl, rfl, rfl, rfl, rfl, rfl⟩ (by decide)
    (.inr rfl) ⟨rfl, rfl⟩ ⟨1#8, 2#8, 0#8, 1#8, ⟨rfl, rfl, rfl, rfl, by decide⟩, _, _, rfl, rfl, by decide⟩
    ⟨rfl, rfl, rfl⟩
theorem inv_atB4 : atB4.Inv :=
  display_inv inv_restB rfl ⟨rfl, rfl, rfl, rfl, rfl, rfl, rfl, rfl, rfl, rfl, rfl, rfl, rfl, rfl⟩ (by decide)
    (.inr rfl) ⟨rfl, rfl⟩ ⟨_, rfl, by decide⟩ ⟨rfl, rfl, rfl⟩
theorem inv_atB1 : atB1.Inv :=
  display_inv inv_restB rfl ⟨rfl, rfl, rfl, rfl, rfl, rfl, rfl, rfl, rfl, rfl, rfl, rfl, rfl, rfl⟩ (by decide)
    (.inr rfl) trivial trivial ⟨rfl, rfl, rfl⟩

/-! Values that meet the hypotheses of each obligation, one theorem an obligation, a part for each clause. -/

/-- CONNECT in progress at a label. -/
def connecting (k : ConnectStep) : State :=
  { fresh cfgA with busy := true, seq := .connect k, dirDc := .output, dirCs := .output, dirRst := .output }

/-- A command bracket at a statement. -/
def atBracket (slot : CmdSlot) (st : BracketStep) : State :=
  displaying (connected cfgA [] []) (.cmd .tracked slot st)

theorem next_of_after {o : Host.Outcome State Fault Refusal} {f : State → Bool} (h : (after o).any f = true) :
    ∃ t, o = .next t ∧ f t = true := by
  cases o with
  | next t => exact ⟨t, rfl, h⟩
  | fault r => cases h
  | refused q => cases h

theorem witness_BadConfigurationHasNoStep :
    ¬ ({ cfgA with tRstHold := 9 } : Config).WellFormed
      ∧ ¬ (fresh { cfgB with yieldPeriodB := 0 }).cfg.WellFormed := by decide
theorem witness_BlockResetValues :
    fresh cfgA = State.blockReset cfgA (bytes []) (bytes []) ∧ cfgA.mode = .tracked ∧ cfgB.mode = .full
      ∧ cfgA.WellFormed := ⟨rfl, rfl, rfl, by decide⟩
theorem witness_StepRunsTheFetchedInstruction :
    (cfgA.WellFormed ∧ (asked restA).fault = none
      ∧ decodeRequest (asked restA).cfg.mode (asked restA).opreq = .ok .displayTracked)
    ∧ (atA8.opreq = 0#2 ∧ frameInProgress atA8 = .ok (some (.argument, 0x1AA#9))
      ∧ decodeFrame cfgA .argument 0x1AA#9 = .ok (.data 0xAA#8) ∧ atA8.host = [])
    ∧ (frameInProgress atA1 = .ok none ∧ atA1.seq.owner = some .displayTracked)
    ∧ ({ atA1 with host := [.resume] } : State).host = .resume :: []
    ∧ (({ atA1 with host := [.wait] } : State).host = .wait :: [] ∧ atA1.busy = true)
    ∧ ({ atA1 with host := [.never .transfer] } : State).waitsAt .transfer = false
    ∧ (restA.opreq = 0#2 ∧ restA.host = [] ∧ restA.seq = .idle) := by decide
theorem witness_DecodeEncodeAgree :
    (cfgA.opColumnaddr ≠ cfgA.opPageaddr ∧ (Instr.cmdArg 0x21#8).WellFormed cfgA
      ∧ Instr.displayFull.WellFormed cfgB)
    ∧ decodeRequest .full 0b10#2 = .ok .displayFull
    ∧ decodeFrame cfgA .argument 0x022#9 = .ok (.cmdArg 0x22#8) := by decide
theorem witness_AcceptanceStep :
    cfgA.WellFormed ∧ restA.fault = none ∧ (asked restA).opreq ≠ 0#2 ∧ (asked atA1).busy = true
      ∧ ({ restA with opreq := 0b11#2 } : State).opreq = 0b11#2
      ∧ (({ restA with opreq := 0b01#2 } : State).opreq = 0b01#2 ∧ restA.connected = true)
      ∧ ((asked (fresh cfgA)).opreq = 0b10#2 ∧ (fresh cfgA).connected = false)
      ∧ ((asked restA).opreq = 0b10#2 ∧ restA.busy = false) := by decide
theorem witness_OperationsAreAccepted :
    (∃ s : State, s.fault = none ∧ s.opreq = 0b01#2 ∧ s.busy = false ∧ s.connected = false)
    ∧ ((asked restA).fault = none ∧ (asked restA).opreq = 0b10#2 ∧ (asked restA).busy = false
      ∧ (asked restA).connected = true ∧ (asked restA).cfg.mode = .tracked)
    ∧ ((asked restB).fault = none ∧ (asked restB).opreq = 0b10#2 ∧ (asked restB).busy = false
      ∧ (asked restB).connected = true ∧ (asked restB).cfg.mode = .full) :=
  ⟨⟨{ fresh cfgA with opreq := 0b01#2 }, by decide⟩, by decide, by decide⟩
theorem witness_ReservedOpRaises :
    (restA.fault = none ∧ restA.busy = false) ∧ atA1.fault = none ∧ atA1.busy = true := by decide
theorem witness_RaisingChangesOnlyFault :
    (∃ t f, step (asked (fresh cfgA)) = .next t ∧ t.fault = some f)
    ∧ (∃ t f, exec .reservedOp restA = .next t ∧ t.fault = some f)
    ∧ ∃ f, (restA.raise .busy).fault = some f :=
  ⟨⟨_, _, rfl, rfl⟩, ⟨_, _, rfl, rfl⟩, _, rfl⟩
theorem witness_FaultedTakesNoStep :
    (restA.raise .busy).fault = some ⟨.busy, .idle⟩ ∧ (restA.raise .busy).cfg.WellFormed := by decide
theorem witness_UnwrittenRegisterFaults :
    (restA.cfg.WellFormed ∧ restA.fault = none ∧ restA.opreq = 0#2 ∧ restA.host = [])
    ∧ (∀ slot st, (atBracket slot st).seq = .cmd .tracked slot st ∧ (atBracket slot st).minC = .unwritten
      ∧ (atBracket slot st).maxC = .unwritten ∧ (atBracket slot st).minP = .unwritten
      ∧ (atBracket slot st).maxP = .unwritten)
    ∧ ((inBracket restA .a8).seq = .a8 ∧ (inBracket restA .a8).p = .unwritten)
    ∧ ({ inBracket restA .a8 with p := .holds 0#9 } : State).c = .unwritten
    ∧ ((inBracket restB .b4).seq = .b4 ∧ (inBracket restB .b4).i = .unwritten) :=
  ⟨by decide, fun _ _ => ⟨rfl, rfl, rfl, rfl, rfl⟩, by decide, by decide, by decide⟩
theorem witness_LineWrite : restA.dir .cs = .output ∧ (fresh cfgA).dir .cs ≠ .output := by decide
theorem witness_GuardsOfTheBus :
    Instr.cmdColumnaddr.commandByte cfgA = some 0x21#8 ∧ (Instr.cmdArg 0xFF#8).commandByte cfgA = some 0xFF#8
    ∧ (∀ st, ∃ s : State, s.fault = none ∧ s.cfg = cfgA ∧ s.dirCs = .input ∧ s.dirDc = .input
      ∧ s.busBegun = false ∧ s.seq = .cmd .tracked .colOp st)
    ∧ (∃ s : State, s.fault = none ∧ s.busBegun = false ∧ s.seq = .a8)
    ∧ ∃ s : State, s.fault = none ∧ s.busBegun = false ∧ s.seq = .b4 :=
  ⟨rfl, rfl, fun st => ⟨displaying (fresh cfgA) (.cmd .tracked .colOp st), rfl, rfl, rfl, rfl, rfl, rfl⟩,
    ⟨displaying (fresh cfgA) .a8, rfl, rfl, rfl⟩, ⟨displaying (fresh cfgB) .b4, rfl, rfl, rfl⟩⟩
theorem witness_RowsWithNoMeaningHere :
    (restA.fault = none ∧ Instr.cmdPageaddr.commandByte cfgA = some 0x22#8
      ∧ (∀ m slot st, restA.seq ≠ .cmd m slot st) ∧ restA.seq ≠ .a8 ∧ restA.seq ≠ .b4)
    ∧ (∀ m slot st, atA8.seq ≠ .cmd m slot st)
    ∧ restA.cfg.mode ≠ .full ∧ restB.cfg.mode ≠ .tracked :=
  ⟨⟨rfl, rfl, nofun, by decide, by decide⟩, nofun, by decide, by decide⟩
theorem witness_ConnectLabels :
    ∀ k, (connecting k).fault = none ∧ (connecting k).opreq = 0#2 ∧ (connecting k).seq = .connect k
      ∧ (connecting k).dirRst = .output := fun _ => ⟨rfl, rfl, rfl, rfl⟩
theorem witness_ConnectCompletes :
    ∃ s : State, s.cfg.WellFormed ∧ s.fault = none ∧ s.busy = false ∧ s.connected = false ∧ s.opreq = 0b01#2
      ∧ s.host = [] := ⟨{ fresh cfgB with opreq := 0b01#2 }, by decide⟩
theorem witness_ConnectFromBlockReset : cfgB.WellFormed ∧ cfgB.tSettle = 1 ∧ cfgB.tRstHold = 10 := by decide
theorem witness_ConnectedOnlyByConnect :
    ∃ t, step (connecting .k11) = .next t
      ∧ decide (t.connected ≠ (connecting .k11).connected ∧ t.result ≠ (connecting .k11).result) = true :=
  next_of_after (by decide)
theorem witness_BusSetUpOnlyByConnect :
    (∃ t, step (connecting .k4) = .next t ∧ decide (t.busBegun ≠ (connecting .k4).busBegun) = true)
    ∧ (∃ t, step (connecting .k5) = .next t ∧ decide (t.busClkdiv ≠ (connecting .k5).busClkdiv) = true)
    ∧ (∃ t, step { fresh cfgA with busy := true, seq := .connect .k1 } = .next t
        ∧ decide (t.dirDc ≠ .input) = true)
    ∧ (∃ t, step { fresh cfgA with busy := true, seq := .connect .k2 } = .next t
        ∧ decide (t.dirCs ≠ .input) = true)
    ∧ (∃ t, step { fresh cfgA with busy := true, seq := .connect .k3 } = .next t
        ∧ decide (t.dirRst ≠ .input) = true)
    ∧ (∃ t, step (connecting .k6) = .next t ∧ decide (t.rstN ≠ (connecting .k6).rstN) = true)
    ∧ (∃ t, step (connecting .k8) = .next t ∧ decide (t.rstN ≠ (connecting .k8).rstN) = true)
    ∧ (∃ t, step (connecting .k10) = .next t ∧ decide (t.rstN ≠ (connecting .k10).rstN) = true) := by
  refine ⟨?_, ?_, ?_, ?_, ?_, ?_, ?_, ?_⟩ <;> exact next_of_after (by decide)
theorem witness_CommandBracketStatements :
    Instr.cmdColumnaddr.commandByte cfgA = some 0x21#8 ∧ Instr.cmdPageaddr.commandByte cfgA = some 0x22#8
    ∧ (Instr.cmdArg 0x00#8).commandByte cfgA = some 0x00#8 ∧ (Instr.cmdArg 0xFF#8).commandByte cfgA = some 0xFF#8
    ∧ ∀ slot st, (atBracket slot st).fault = none ∧ (atBracket slot st).cfg = cfgA
      ∧ (atBracket slot st).seq = .cmd .tracked slot st ∧ (atBracket slot st).dirCs = .output
      ∧ (atBracket slot st).dirDc = .output ∧ (atBracket slot st).busBegun = true :=
  ⟨rfl, rfl, rfl, rfl, fun _ _ => ⟨rfl, rfl, rfl, rfl, rfl, rfl⟩⟩
theorem witness_CommandBracketSendsOneFrame :
    (atColFirst.Inv ∧ atColFirst.fault = none ∧ atColFirst.opreq = 0#2 ∧ atColFirst.host = []
      ∧ atColFirst.seq = .cmd .tracked .colFirst .deselect ∧ slotByte .tracked .colFirst atColFirst = .ok 1#8)
    ∧ (atB1.Inv ∧ atB1.fault = none ∧ atB1.opreq = 0#2 ∧ atB1.host = []
      ∧ atB1.seq = .cmd .full .colOp .deselect ∧ slotByte .full .colOp atB1 = .ok 0x21#8) :=
  ⟨⟨inv_atColFirst, rfl, rfl, rfl, rfl, rfl⟩, inv_atB1, rfl, rfl, rfl, rfl, rfl⟩
theorem witness_DataFrameInTrackedRun :
    atA8.fault = none ∧ atA8.seq = .a8 ∧ atA8.busBegun = true ∧ atA8.c = .holds 2#9 ∧ atA8.maxC = .holds 2#8 := by
  decide
theorem witness_DataFrameInFullRun :
    atB4.fault = none ∧ atB4.seq = .b4 ∧ atB4.busBegun = true ∧ atB4.i = .holds 3#17 := by decide
theorem witness_DataRunSendsFramebufferBytes :
    (atA8.Inv ∧ atA8.fault = none ∧ atA8.opreq = 0#2 ∧ atA8.host = [] ∧ atA8.seq = .a8)
    ∧ (atB4.Inv ∧ atB4.fault = none ∧ atB4.opreq = 0#2 ∧ atB4.host = [] ∧ atB4.seq = .b4) :=
  ⟨⟨inv_atA8, rfl, rfl, rfl, rfl⟩, inv_atB4, rfl, rfl, rfl, rfl⟩
theorem witness_DataBracketStatements :
    (∀ st, ∃ s : State, s.fault = none ∧ s.opreq = 0#2 ∧ s.cfg.mode = .tracked ∧ s.dirCs = .output
      ∧ s.dirDc = .output ∧ s.seq = .dopen .tracked st ∧ s.windowHeld 1#8 2#8 0#8 1#8)
    ∧ (∀ st, ∃ s : State, s.fault = none ∧ s.opreq = 0#2 ∧ s.cfg.mode = .full ∧ s.dirCs = .output
      ∧ s.dirDc = .output ∧ s.seq = .dopen .full st ∧ 0 < s.cfg.fbSize)
    ∧ (∀ m st, ∃ s : State, s.fault = none ∧ s.opreq = 0#2 ∧ s.cfg.mode = m ∧ s.dirCs = .output
      ∧ s.dirDc = .output ∧ s.seq = .dclose m st) :=
  ⟨fun st => ⟨withWindow (displaying restA (.dopen .tracked st)) 1#8 2#8 0#8 1#8 0#9 0#9, rfl, rfl, rfl, rfl,
      rfl, rfl, rfl, rfl, rfl, rfl, by simp, by show 2 < 4; decide, by simp, by show 1 < 2; decide⟩,
    fun st => ⟨displaying restB (.dopen .full st), rfl, rfl, rfl, rfl, rfl, rfl, by show 0 < 4; decide⟩,
    fun m st => by
      cases m
      · exact ⟨displaying restA (.dclose .tracked st), rfl, rfl, rfl, rfl, rfl, rfl⟩
      · exact ⟨displaying restB (.dclose .full st), rfl, rfl, rfl, rfl, rfl, rfl⟩⟩
theorem witness_BoundsStartAtTheSentinel :
    atA1.Inv ∧ atA1.fault = none ∧ atA1.opreq = 0#2 ∧ atA1.seq = .a1 := ⟨inv_atA1, rfl, rfl, rfl⟩
theorem witness_ScanOfOnePageRow :
    (atScan.Inv ∧ atScan.fault = none ∧ atScan.opreq = 0#2 ∧ atScan.seq = .scan ∧ atScan.p = .holds 1#9
      ∧ atScan.minP = .holds 0xFF#8 ∧ atScan.maxP = .holds 0x00#8 ∧ atScan.minC = .holds 0xFF#8
      ∧ atScan.maxC = .holds 0x00#8
      ∧ atScan.changed 1 1 ∧ ∀ c, c < 4 → atScan.changed 1 c → 1 ≤ c ∧ c ≤ 1)
    ∧ (atScanFound.Inv ∧ atScanFound.seq = .scan ∧ atScanFound.p = .holds 1#9
      ∧ atScanFound.minP = .holds 0#8 ∧ atScanFound.maxP = .holds 0#8 ∧ 1 + 1 = atScanFound.cfg.np)
    ∧ (∀ c, c < 4 → ¬ (withSentinel (displaying sameA .scan) 0#9).changed 0 c)
    ∧ 0 + 1 < (withSentinel (displaying sameA .scan) 0#9).cfg.np := by
  refine ⟨⟨inv_atScan, ?_⟩, ⟨inv_atScanFound, ?_⟩, ?_, ?_⟩ <;> (try unfold State.changed) <;> decide
theorem witness_YieldsOfTheDataRuns :
    (atA9.fault = none ∧ atA9.opreq = 0#2 ∧ atA9.cfg.mode = .tracked ∧ atA9.seq = .a9
      ∧ atA9.windowHeld 1#8 2#8 0#8 1#8 ∧ atA9.p = .holds 0#9)
    ∧ ∃ s : State, s.fault = none ∧ s.opreq = 0#2 ∧ s.cfg.mode = .full ∧ s.seq = .b4Yield ∧ s.i = .holds 3#17 :=
  ⟨⟨rfl, rfl, rfl, rfl, ⟨rfl, rfl, rfl, rfl, by decide⟩, rfl⟩,
    { inBracket restB .b4Yield with i := .holds 3#17 }, rfl, rfl, rfl, rfl, rfl⟩
theorem witness_CompletionStep :
    ((displaying restA (.finish .tracked)).fault = none ∧ (displaying restA (.finish .tracked)).opreq = 0#2
      ∧ (displaying restA (.finish .tracked)).cfg.mode = .tracked)
    ∧ (displaying restA .a4).seq = .a4
    ∧ ((displaying restB (.finish .full)).cfg.mode = .full)
    ∧ ((connecting .k11).fault = none ∧ (connecting .k11).opreq = 0#2 ∧ (connecting .k11).seq = .connect .k11) := by
  decide
theorem witness_FrameOfConnect : ∃ t, exec .connect (connecting .k4) = .next t := ⟨_, rfl⟩
theorem witness_FrameOfDisplayTracked :
    (∃ t, exec .displayTracked (asked restA) = .next t) ∧ (asked restA).seq ≠ .a1 ∧ (asked restA).seq ≠ .scan
    ∧ (∃ t, exec .displayTracked atA1 = .next t) ∧ atA1.seq = .a1
    ∧ (∃ t, exec .displayTracked atScan = .next t) ∧ atScan.seq = .scan ∧ atScan.p = .holds 1#9 :=
  ⟨⟨_, rfl⟩, by decide, by decide, ⟨_, rfl⟩, rfl, ⟨_, rfl⟩, rfl, rfl⟩
theorem witness_FrameOfDisplayFull : ∃ t, exec .displayFull atB4 = .next t := ⟨_, rfl⟩
theorem witness_FrameOfTheOtherRows :
    (Instr.cmdColumnaddr.commandByte cfgA = some 0x21#8
      ∧ ∃ t, exec .cmdColumnaddr (atBracket .colOp .command) = .next t)
    ∧ (∃ t, exec (.data 0x55#8) atA8 = .next t) ∧ atA8.seq ≠ .b4 ∧ (∃ t, exec (.data 0x55#8) atB4 = .next t)
    ∧ atB4.seq ≠ .a8 ∧ ∃ t, exec .reservedOp restA = .next t :=
  ⟨⟨rfl, _, rfl⟩, ⟨_, rfl⟩, by decide, ⟨_, rfl⟩, by decide, _, rfl⟩
theorem witness_ConfigurationNeverChanges : ∃ t, step (asked restA) = .next t := ⟨_, rfl⟩
theorem witness_MemoryOwnership :
    (∃ t, exec .displayTracked atA1 = .next t)
    ∧ (∃ body t, hostMove (.fbw 7 0xFF#8) restA = .hostActs body ∧ body = .ok t)
    ∧ (∃ w, hostMove .wait atA1 = w ∧ w = .fbtxRuns)
    ∧ ∃ t, step { restA with host := [.fbw 7 0xFF#8] } = .next t
      ∧ decide (t.fb.read 7 ≠ restA.fb.read 7) = true :=
  ⟨⟨_, rfl⟩, ⟨_, _, rfl, rfl⟩, ⟨_, rfl, rfl⟩, next_of_after (by decide)⟩
theorem witness_BusyWhileAnOperationRuns :
    (atA1.busy = true ↔ atA1.seq ≠ .idle) ∧ ∃ t, step atA1 = .next t := ⟨by decide, _, rfl⟩
theorem witness_TraceGrowsByOneEvent :
    (∃ t, step atA1 = .next t) ∧ ∃ body t, hostMove (.present 0b01#2) restA = .hostActs body ∧ body = .ok t :=
  ⟨⟨_, rfl⟩, _, _, rfl, rfl⟩
theorem witness_ReceiverIsNeverRead :
    (∃ t, step atA8 = .next t) ∧ (∃ f, step (restA.raise .busy) = .fault f)
    ∧ ∃ q, step (fresh { cfgA with tRstHold := 9 }) = .refused q := ⟨⟨_, rfl⟩, ⟨_, rfl⟩, _, rfl⟩
theorem witness_MemoriesStayCanonical :
    (∃ t, step atA1 = .next t) ∧ atA1.fb.wf = true ∧ atA1.sh.wf = true
    ∧ ∀ r, atA1.rx = .tracking r → r.ram.wf = true :=
  ⟨⟨_, rfl⟩, by decide, by decide, fun r h => by cases h; rfl⟩
theorem witness_InvariantAtBlockReset : cfgA.WellFormed ∧ cfgB.WellFormed := by decide
theorem witness_InvariantKeptByEveryStep : atA8.Inv ∧ ∃ t, step atA8 = .next t := ⟨inv_atA8, _, rfl⟩
theorem witness_OperationsRaiseNothing :
    atA8.Inv ∧ atA8.fault = none ∧ atA8.opreq = 0#2 ∧ atA8.host = [] := ⟨inv_atA8, rfl, rfl, rfl⟩
theorem witness_FaultsComeFromTheHost :
    (asked atA1).Inv ∧ (asked atA1).fault = none ∧ ∃ t, step (asked atA1) = .next t ∧ t.fault = some ⟨.busy, .a1⟩ :=
  ⟨inv_congr inv_atA1 rfl, rfl, _, rfl, rfl⟩
theorem witness_OperationsTerminate :
    atA1.Inv ∧ atA1.fault = none ∧ atA1.opreq = 0#2 ∧ atA1.host = [] ∧ atA1.busy = true :=
  ⟨inv_atA1, rfl, rfl, rfl, rfl⟩

/-- A state whose trace holds a transfer: the data bracket with one byte sent. -/
theorem witness_TransfersOnlyWhileSelected :
    (∃ s : State, s.Inv ∧ ∃ before b, s.trace = before ++ Event.xfer b :: [])
    ∧ (atA8.Inv ∧ atA8.trace = (connectTrace cfgA ++ [.lvl .cs .high]) ++ Event.lvl .dc .high :: [.lvl .cs .low]) := by
  refine ⟨?_, inv_atA8, rfl⟩
  obtain ⟨t, ht, hi, _⟩ := a8_progress inv_atA8 rfl 0xAA#8
  refine ⟨t, hi, atA8.trace, 0xAA#8, ?_⟩
  have h : sendData 0xAA#8 atA8 = .ok { atA8.sent 0xAA#8 with c := .holds 3#9, seq := .a9 } := rfl
  rw [h] at ht
  cases ht
  rfl
theorem witness_WindowBytesInRange :
    (atColFirst.Inv ∧ atColFirst.seq = .cmd .tracked .colFirst .deselect)
    ∧ (atB1.Inv ∧ atB1.seq = .cmd .full .colOp .deselect) := ⟨⟨inv_atColFirst, rfl⟩, inv_atB1, rfl⟩
theorem witness_HostWritesOneByte :
    (restA.cfg.WellFormed ∧ restA.fault = none ∧ restA.opreq = 0#2
      ∧ ({ restA with host := [.fbw 7 0xFF#8] } : State).host = .fbw 7 0xFF#8 :: [] ∧ restA.busy = false
      ∧ 7 < restA.cfg.fbSize)
    ∧ atA1.busy = true := by decide
theorem witness_PixelWriteSetsOneBit :
    restA.cfg.WellFormed ∧ restA.fault = none ∧ restA.opreq = 0#2 ∧ restA.busy = false
      ∧ ({ restA with host := [.pix 3 15 true] } : State).host = .pix 3 15 true :: []
      ∧ 3 < restA.cfg.w ∧ 15 < restA.cfg.h ∧ restA.fb.read (15 / 8 * restA.cfg.w + 3) = some 0x00#8 := by decide

theorem asked_inv {s : State} (h : s.Inv) : (asked s).Inv := inv_congr h rfl

theorem witness_UnchangedFrameSendsNothing :
    (asked sameA).Inv ∧ (asked sameA).displayRequested ∧ (asked sameA).cfg.mode = .tracked
      ∧ (asked sameA).changedExactly (fun _ _ => False) := by
  refine ⟨asked_inv inv_sameA, ⟨rfl, rfl, rfl, rfl, rfl⟩, rfl, ?_⟩
  have key : ∀ p, p < 2 → ∀ c, c < 4 → ((asked sameA).changed p c ↔ False) := by unfold State.changed; decide
  exact fun p c hp hc => key p hp c hc
theorem rect_restA : (asked restA).dirtyRect 1 2 0 1 := by
  refine ⟨?_, ⟨2, ?_⟩, ⟨1, ?_⟩, ⟨1, ?_⟩, ⟨0, ?_⟩, by decide, by decide, by decide, by decide⟩
  · have key : ∀ p, p < 2 → ∀ c, c < 4 → (asked restA).changed p c → 0 ≤ p ∧ p ≤ 1 ∧ 1 ≤ c ∧ c ≤ 2 := by
      unfold State.changed; decide
    exact fun p c hp hc => key p hp c hc
  all_goals unfold State.changed; decide
theorem witness_TrackedDisplayTrace :
    (asked restA).Inv ∧ (asked restA).displayRequested ∧ (asked restA).cfg.mode = .tracked
      ∧ (asked restA).dirtyRect 1 2 0 1 := ⟨asked_inv inv_restA, ⟨rfl, rfl, rfl, rfl, rfl⟩, rfl, rect_restA⟩
theorem witness_BoundsAreTheLeastBox :
    ((asked restA).Inv ∧ (asked restA).displayRequested ∧ (asked restA).cfg.mode = .tracked
      ∧ ¬ (asked restA).changedExactly (fun _ _ => False))
    ∧ (asked sameA).changedExactly (fun _ _ => False) := by
  refine ⟨⟨asked_inv inv_restA, ⟨rfl, rfl, rfl, rfl, rfl⟩, rfl, fun h => ?_⟩,
    witness_UnchangedFrameSendsNothing.2.2.2⟩
  exact (h 0 2 (by decide) (by decide)).1 (by unfold State.changed; decide)
theorem witness_ShadowConverges :
    (asked restA).Inv ∧ (asked restA).displayRequested ∧ (asked restA).cfg.mode = .tracked :=
  ⟨asked_inv inv_restA, ⟨rfl, rfl, rfl, rfl, rfl⟩, rfl⟩
theorem witness_OneCellWindow :
    (asked oneA).Inv ∧ (asked oneA).displayRequested ∧ (asked oneA).cfg.mode = .tracked ∧ 1 < (asked oneA).cfg.np
      ∧ 2 < (asked oneA).cfg.w ∧ (asked oneA).changedExactly (fun p c => p = 1 ∧ c = 2) := by
  refine ⟨asked_inv inv_oneA, ⟨rfl, rfl, rfl, rfl, rfl⟩, rfl, by decide, by decide, ?_⟩
  have key : ∀ p, p < 2 → ∀ c, c < 4 → ((asked oneA).changed p c ↔ p = 1 ∧ c = 2) := by
    unfold State.changed; decide
  exact fun p c hp hc => key p hp c hc
theorem witness_TwoCellsWindow :
    (asked restA).Inv ∧ (asked restA).displayRequested ∧ (asked restA).cfg.mode = .tracked
      ∧ 0 < (asked restA).cfg.np ∧ 2 < (asked restA).cfg.w ∧ 1 < (asked restA).cfg.np ∧ 1 < (asked restA).cfg.w
      ∧ (asked restA).changedExactly (fun p c => (p = 0 ∧ c = 2) ∨ (p = 1 ∧ c = 1)) := by
  refine ⟨asked_inv inv_restA, ⟨rfl, rfl, rfl, rfl, rfl⟩, rfl, by decide, by decide, by decide, by decide, ?_⟩
  have key : ∀ p, p < 2 → ∀ c, c < 4 → ((asked restA).changed p c ↔ (p = 0 ∧ c = 2) ∨ (p = 1 ∧ c = 1)) := by
    unfold State.changed; decide
  exact fun p c hp hc => key p hp c hc
theorem witness_SecondDisplaySendsNothing :
    (asked restA).Inv ∧ (asked restA).displayRequested ∧ (asked restA).cfg.mode = .tracked :=
  witness_ShadowConverges
theorem witness_FullDisplayTrace :
    (asked restB).Inv ∧ (asked restB).displayRequested ∧ (asked restB).cfg.mode = .full :=
  ⟨asked_inv inv_restB, ⟨rfl, rfl, rfl, rfl, rfl⟩, rfl⟩
theorem witness_DisplayCost :
    (asked restA).dirtyRect 1 2 0 1 ∧ (asked sameA).changedExactly (fun _ _ => False)
      ∧ (asked restB).displayRequested ∧ (asked restB).Inv ∧ (asked restA).Inv ∧ (asked sameA).Inv
      ∧ (asked restA).displayRequested ∧ (asked sameA).displayRequested :=
  ⟨rect_restA, witness_UnchangedFrameSendsNothing.2.2.2, ⟨rfl, rfl, rfl, rfl, rfl⟩, asked_inv inv_restB,
    asked_inv inv_restA, asked_inv inv_sameA, ⟨rfl, rfl, rfl, rfl, rfl⟩, rfl, rfl, rfl, rfl, rfl⟩
theorem witness_ReceiverShowsTheWindow :
    (asked restA).Inv ∧ (asked restA).displayRequested ∧ cfgA.opColumnaddr ≠ cfgA.opPageaddr
      ∧ (asked restA).rx = .tracking Receiver.initial ∧ Receiver.initial.ps = .idle
      ∧ (asked restA).dirtyRect (1#8).toNat (2#8).toNat (0#8).toNat (1#8).toNat
      ∧ (asked restB).Inv ∧ (asked restB).displayRequested ∧ (asked restB).cfg.mode = .full
      ∧ (asked restB).rx = .tracking Receiver.initial :=
  ⟨asked_inv inv_restA, ⟨rfl, rfl, rfl, rfl, rfl⟩, by decide, rfl, rfl, rect_restA, asked_inv inv_restB,
    ⟨rfl, rfl, rfl, rfl, rfl⟩, rfl, rfl⟩
theorem witness_HostProgramsRun : cfgA.WellFormed ∧ cfgB.WellFormed := by decide
theorem witness_StalledWaitsNeverEnd :
    (({ atA8 with host := [.never .transfer] } : State).waitsAt .transfer = true ∧ atA8.busy = true)
    ∧ ({ displaying sameA (.connect .k7) with host := [.never .delay] } : State).waitsAt .delay = true
    ∧ ({ displaying sameA .scan with trace := [.yield] } : State).waitsAt .yield = true
    ∧ (({ atB1 with host := [.never .transfer] } : State).Inv ∧ atB1.fault = none ∧ atB1.opreq = 0#2
      ∧ atB1.seq = .cmd .full .colOp .deselect) :=
  ⟨by decide, by decide, by decide, inv_congr inv_atB1 rfl, rfl, rfl, rfl⟩

end Sys2Proof.Tests
end

section
/-! PROOFS. Configuration checks (spec/00_scope.md R7): well-formedness is passing each named check, and the
first failed check is the one that construction and `step` refuse with. -/

namespace Sys2Proof.Machine

theorem ConfigCheck.mem_all (k : ConfigCheck) : k ∈ ConfigCheck.all := by cases k <;> decide

/-- `ConfigCheck.all` leaves no check out, so the search in it for a failed one decides them all. -/
theorem wellFormed_iff_passes {cfg : Config} : cfg.WellFormed ↔ ∀ k, cfg.passes k = true := by
  simp [Config.WellFormed, Config.firstFailure, List.find?_eq_none, ConfigCheck.mem_all]

theorem passes_eq_false_of_firstFailure {cfg : Config} {k : ConfigCheck} (h : cfg.firstFailure = some k) :
    cfg.passes k = false := by
  simpa using List.find?_some h

theorem exists_firstFailure {cfg : Config} (h : ¬ cfg.WellFormed) : ∃ k, cfg.firstFailure = some k :=
  Option.ne_none_iff_exists'.1 h

theorem construct_of_firstFailure {cfg : Config} {k : ConfigCheck} (frame draw : Nat → Byte)
    (h : cfg.firstFailure = some k) : State.construct cfg frame draw = .error (.badConfig k) := by
  simp [State.construct, h]

theorem step_of_firstFailure {s : State} {k : ConfigCheck} (h : s.cfg.firstFailure = some k) :
    step s = .refused (.badConfig k) := by
  simp [step, h]

/-- Settles O1: passing all checks is the seven conditions of R7, check by check, and a configuration that is not
well formed has a first failed check, which both construction and `step` name. -/
theorem badConfigurationHasNoStep : Obligations.BadConfigurationHasNoStep := by
  refine ⟨fun cfg => ?conditions, fun cfg frame draw bad => ?construction, fun s bad => ?step⟩
  case conditions =>
    rw [wellFormed_iff_passes]
    constructor
    · intro ok
      exact ⟨of_decide_eq_true (ok .chkWidth), of_decide_eq_true (ok .chkPages), of_decide_eq_true (ok .chkSize),
        of_decide_eq_true (ok .chkGeomFull), of_decide_eq_true (ok .chkHold), of_decide_eq_true (ok .chkYield),
        of_decide_eq_true (ok .chkLines)⟩
    · rintro ⟨width, pages, size, geom, hold, yield, lines⟩ k
      cases k with
      | chkWidth => exact decide_eq_true width
      | chkPages => exact decide_eq_true pages
      | chkSize => exact decide_eq_true size
      | chkGeomFull => exact decide_eq_true geom
      | chkHold => exact decide_eq_true hold
      | chkYield => exact decide_eq_true yield
      | chkLines => exact decide_eq_true lines
  case construction =>
    obtain ⟨k, hk⟩ := exists_firstFailure bad
    exact ⟨k, passes_eq_false_of_firstFailure hk, construct_of_firstFailure frame draw hk⟩
  case step =>
    obtain ⟨k, hk⟩ := exists_firstFailure bad
    exact ⟨k, passes_eq_false_of_firstFailure hk, step_of_firstFailure hk⟩

end Sys2Proof.Machine
end

section
/-! PROOFS. The state at rest: block reset has every element at its value and meets the invariant
(spec/10_state.md R40, spec/70_reset_and_hazards.md R180), and with nothing asked FBTX waits. -/

namespace Sys2Proof.Machine

theorem Memory.read_fill_from (f : Nat → Byte) (x n : Nat) : ∀ a,
    Memory.read ((List.range' a n).map fun i => (i, f i)) x = if a ≤ x ∧ x < a + n then some (f x) else none := by
  induction n with
  | zero => intro a; rw [if_neg (by omega)]; rfl
  | succ n ih =>
    intro a
    simp only [List.range'_succ, List.map_cons, Memory.read, ih]
    by_cases hx : x = a
    · subst hx; rw [if_pos rfl, if_pos (by omega)]
    · have inside : a + 1 ≤ x ∧ x < a + 1 + n ↔ a ≤ x ∧ x < a + (n + 1) := by omega
      simp only [if_neg hx, inside]

/-- A filled memory holds its bytes, and nothing past its end. -/
theorem Memory.read_fill (n : Nat) (f : Nat → Byte) (x : Nat) :
    (Memory.fill n f).read x = if x < n then some (f x) else none := by
  simpa [Memory.fill] using Memory.read_fill_from f x n 0

/-- At `IDLE` with no request FBTX waits and all its state survives (spec/60_exceptions.md R174). -/
theorem fbtxStep_idle {s : State} (hf : s.fault = none) (hq : s.opreq = 0#2) (hs : s.seq = .idle) :
    fbtxStep s = .next s := by
  simp [fbtxStep, fetch, hq, frameInProgress, hs, Seq.owner, settle_ok hf]

theorem step_at_rest {s : State} (hw : s.cfg.WellFormed) (hf : s.fault = none) (hq : s.opreq = 0#2)
    (hh : s.host = []) (hs : s.seq = .idle) : step s = .next s := by
  rw [step_eq hw hf, if_pos hq, hh]
  exact fbtxStep_idle hf hq hs

theorem Config.standard_wellFormed : Config.standard.WellFormed := by decide

theorem construct_of_wellFormed {cfg : Config} (frame draw : Nat → Byte) (h : cfg.WellFormed) :
    State.construct cfg frame draw = .ok (State.blockReset cfg frame draw) := by
  have none_fails : cfg.firstFailure = none := h
  simp [State.construct, none_fails]

theorem blockReset_sh_addresses (cfg : Config) (frame draw : Nat → Byte) :
    (State.blockReset cfg frame draw).sh.addresses
      = if cfg.mode = .tracked then List.range cfg.fbSize else [] := by
  cases hm : cfg.mode with
  | tracked => simp [State.blockReset, hm]
  | full => simp [State.blockReset, hm, Memory.addresses]

/-- Block reset of a well-formed configuration meets the invariant, whatever the draws. -/
theorem blockReset_inv {cfg : Config} (frame draw : Nat → Byte) (h : cfg.WellFormed) :
    (State.blockReset cfg frame draw).Inv where
  configOk := h
  fbShape := Memory.addresses_fill _ _
  shShape := blockReset_sh_addresses cfg frame draw
  busyIff := by simp [State.blockReset]
  modeOk := trivial
  ownerOk := fun _ hi => by cases hi
  connectOk := fun _ hk => by cases hk
  readyOk := fun hc => by cases hc
  linesOk := trivial
  registersOk := trivial
  busTraced := rfl
  traceOk := rfl
  receiverOk := rfl

/-- Settles O2: the elements are those of `State.blockReset`, the shadow buffer reads as its draw, and a state at
rest stays as it is. -/
theorem blockResetValues : Obligations.BlockResetValues := by
  refine ⟨?elements, Config.standard, Config.hostFrame, Config.shadowDraw, Config.standard_wellFormed,
    construct_of_wellFormed _ _ Config.standard_wellFormed⟩
  rintro cfg frame draw s rfl
  refine ⟨rfl, ⟨rfl, rfl, rfl, rfl⟩, ⟨rfl, rfl, rfl⟩, ⟨rfl, rfl, rfl, rfl⟩, ⟨rfl, rfl, rfl⟩, ⟨rfl, rfl, rfl⟩,
    ⟨rfl, rfl⟩, fun hm x => ?shadowA, fun hm => ?shadowB, rfl, rfl, fun t ht => ?wait⟩
  case shadowA => simp only [State.blockReset, hm]; exact Memory.read_fill _ _ _
  case shadowB => simp only [State.blockReset, hm]
  case wait =>
    obtain ⟨hw, hf⟩ := step_next ht
    rw [step_at_rest hw hf rfl rfl rfl] at ht
    cases ht
    rfl

/-- Settles O40: `blockReset_inv`, of which `State.reset` is one case. -/
theorem invariantAtBlockReset : Obligations.InvariantAtBlockReset :=
  ⟨fun _ frame draw h => blockReset_inv frame draw h, blockReset_inv _ _ Config.standard_wellFormed⟩

end Sys2Proof.Machine
end

section
/-! PROOFS. Every step keeps the invariant: the steps of FBTX, with a request and without, and the host's moves. -/

namespace Sys2Proof.Machine

/-- Only the four request rows have a code on the port (spec/30_encoding.md R70). -/
theorem decodeRequest_ok {mode : Mode} {code : OpReq} {i : Instr} (h : decodeRequest mode code = .ok i) :
    i = .connect ∨ i = .displayTracked ∨ i = .displayFull ∨ i = .reservedOp := by
  unfold decodeRequest at h
  split at h
  · cases h
  · cases h; exact .inl rfl
  · cases mode <;> cases h
    · exact .inr (.inl rfl)
    · exact .inr (.inr (.inl rfl))
  · cases h; exact .inr (.inr (.inr rfl))

/-- The reserved request is never accepted (spec/60_exceptions.md R162). -/
theorem accept_reserved_ne_ok {first : Seq} {s t : State} : accept .reserved first s ≠ .ok t := by
  intro h
  have none_raised := (accept_eq_ok.1 h).1
  cases hb : s.busy <;> simp [acceptFault, hb] at none_raised

theorem displayBody_requested {s : State} {m : Mode} {i : Instr} {first : Seq} {t : State} (hq : s.opreq ≠ 0#2)
    (h : displayBody m i first s = .ok t) : s.cfg.mode = m ∧ accept (.op .display) first s = .ok t := by
  unfold displayBody at h
  split at h
  · next hm => simp only [inProgress_req hq] at h; exact ⟨hm, h⟩
  · cases h

theorem connectBody_requested {s : State} (hq : s.opreq ≠ 0#2) :
    connectBody s = accept (.op .connect) (.connect .k1) s := by
  simp [connectBody, inProgress_req hq]

/-- A request row run on a presented request keeps the invariant: it is an acceptance, or raises. -/
theorem exec_request_keeps_inv {s t : State} {i : Instr} (h : s.Inv) (hq : s.opreq ≠ 0#2)
    (hi : i = .connect ∨ i = .displayTracked ∨ i = .displayFull ∨ i = .reservedOp)
    (ht : exec i s = .next t) : t.Inv := by
  rcases hi with rfl | rfl | rfl | rfl
  · refine settle_inv h (body := connectBody s) ht fun u hu => ?_
    rw [connectBody_requested hq] at hu
    exact accept_inv h hu (.inl ⟨rfl, rfl⟩)
  · refine settle_inv h ht fun u hu => ?_
    obtain ⟨hm, hu⟩ := displayBody_requested hq hu
    exact accept_inv h hu (.inr (.inl ⟨rfl, hm, rfl⟩))
  · refine settle_inv h ht fun u hu => ?_
    obtain ⟨hm, hu⟩ := displayBody_requested hq hu
    exact accept_inv h hu (.inr (.inr ⟨rfl, hm, rfl⟩))
  · exact settle_inv h ht fun u hu => absurd hu accept_reserved_ne_ok

theorem fbtxStep_keeps_inv {s t : State} (h : s.Inv) (hf : s.fault = none) (ht : fbtxStep s = .next t) : t.Inv := by
  by_cases hq : s.opreq = 0#2
  · obtain ⟨u, hu, inv_u, -⟩ := fbtx_progress h hf hq
    rw [hu] at ht
    cases ht
    exact inv_u
  · cases hd : decodeRequest s.cfg.mode s.opreq with
    | ok i =>
      have runs : fbtxStep s = exec i s := by simp [fbtxStep, fetch, hq, hd]
      exact exec_request_keeps_inv h hq (decodeRequest_ok hd) (runs ▸ ht)
    | error e =>
      have waits : fbtxStep s = settle s (.ok s) := by simp [fbtxStep, fetch, hq, hd]
      rw [waits] at ht
      exact settle_inv h ht fun u hu => by cases hu; exact h

/-- Settles O41: with no request on the port the head of the host's list decides whether the host acts or FBTX
steps; each keeps the invariant, which does not speak of that list. -/
theorem invariantKeptByEveryStep : Obligations.InvariantKeptByEveryStep := by
  intro s t h ht
  obtain ⟨hw, hf⟩ := step_next ht
  rw [step_eq hw hf] at ht
  split at ht
  case isFalse => exact fbtxStep_keeps_inv h hf ht
  case isTrue =>
    split at ht
    · exact fbtxStep_keeps_inv h hf ht
    · next m rest _ =>
      have h' : ({ s with host := movesAfter s m rest } : State).Inv := inv_congr h rfl
      split at ht
      · next body hacts => exact settle_inv h' ht fun u hu => hostMove_keeps_inv h' hacts hu
      · exact fbtxStep_keeps_inv h' hf ht

end Sys2Proof.Machine
end

section
/-! PROOFS. What a step can do, said once, and the rules of spec/10_state.md about every step that follow from it: the
configuration, `CONNECTED` and `RESULT`, the bus, the directions and `RST`, `seq` and `BUSY`, and the trace. -/

namespace Sys2Proof.Machine

/-! The loop control of the data runs never goes to `IDLE`. -/

/-- A sequence of statements ends off `IDLE` where its last statement does. -/
theorem bind_seq_ne {α : Type} {x : Res α} {f : α → Res State} {t : State}
    (hf : ∀ a u, f a = .ok u → u.seq ≠ .idle) (h : (x >>= f) = .ok t) : t.seq ≠ .idle := by
  obtain ⟨a, -, hu⟩ := Res.bind_eq_ok.1 h
  exact hf a t hu

theorem columnTest_seq_ne {s t : State} (h : columnTest s = .ok t) : t.seq ≠ .idle := by
  refine bind_seq_ne (fun c t h => ?_) h
  refine bind_seq_ne (fun m t h => ?_) h
  cases h
  simp only [State.goto_seq]
  split <;> simp

theorem pageTest_seq_ne {s t : State} (h : pageTest s = .ok t) : t.seq ≠ .idle := by
  refine bind_seq_ne (fun p t h => ?_) h
  refine bind_seq_ne (fun m t h => ?_) h
  split at h
  · exact bind_seq_ne (fun _ _ h => columnTest_seq_ne h) h
  · cases h; simp

theorem byteTest_seq_ne {s t : State} (h : byteTest s = .ok t) : t.seq ≠ .idle := by
  refine bind_seq_ne (fun i t h => ?_) h
  cases h
  simp only [State.goto_seq]
  split <;> simp

theorem nextByte_seq_ne {s t : State} (h : nextByte s = .ok t) : t.seq ≠ .idle :=
  bind_seq_ne (fun _ _ h => byteTest_seq_ne h) h

theorem nextPage_seq_ne {s t : State} (h : nextPage s = .ok t) : t.seq ≠ .idle :=
  bind_seq_ne (fun _ _ h => pageTest_seq_ne h) h

theorem afterByte_seq_ne {s t : State} (h : afterByte s = .ok t) : t.seq ≠ .idle := by
  refine bind_seq_ne (fun i t h => ?_) h
  split at h
  · cases h; simp
  · exact nextByte_seq_ne h

theorem sendData_seq_ne {d : Byte} {s t : State} (h : sendData d s = .ok t) : t.seq ≠ .idle := by
  unfold sendData at h
  split at h
  · refine bind_seq_ne (fun u t h => ?_) h
    exact bind_seq_ne (fun _ _ h => columnTest_seq_ne h) h
  · exact bind_seq_ne (fun _ _ h => afterByte_seq_ne h) h
  · cases h

theorem dopenStep_seq_ne {m : Mode} {st : OpenStep} {s t : State} (h : dopenStep m st s = .ok t) :
    t.seq ≠ .idle := by
  cases st with
  | deselect => exact bind_seq_ne (fun _ _ h => by cases h; simp) h
  | dataMode => exact bind_seq_ne (fun _ _ h => by cases h; simp) h
  | select =>
    refine bind_seq_ne (fun u t h => ?_) h
    cases m with
    | tracked =>
      exact bind_seq_ne (fun _ _ h => pageTest_seq_ne h) h
    | full => exact byteTest_seq_ne h

theorem dcloseStep_seq_ne {m : Mode} {st : CloseStep} {s t : State} (h : dcloseStep m st s = .ok t) :
    t.seq ≠ .idle := by
  cases st with
  | deselect =>
    refine bind_seq_ne (fun u t h => ?_) h
    cases h
    simp only [State.goto_seq]
    split <;> simp
  | dcLow => exact bind_seq_ne (fun _ _ h => by cases h; simp) h

theorem afterStatement_ne (m : Mode) (slot : CmdSlot) (st : BracketStep) :
    Seq.afterStatement m slot st ≠ .idle := by
  cases st with
  | release => exact after_ne m slot
  | _ => simp [Seq.afterStatement]

/-! What a step can do. -/

/-- What a labelled line of CONNECT does to the elements that only CONNECT writes, and to `BUSY`, `seq` and the
trace (spec/41_connect.md R121). -/
structure ConnectWrites (k : ConnectStep) (s t : State) : Prop where
  cfg : t.cfg = s.cfg
  connected : t.connected = if k = .k11 then true else s.connected
  result : t.result = if k = .k11 then .holds 1#1 else s.result
  dirDc : t.dirDc = if k = .k1 then .output else s.dirDc
  dirCs : t.dirCs = if k = .k2 then .output else s.dirCs
  dirRst : t.dirRst = if k = .k3 then .output else s.dirRst
  begun : t.busBegun = if k = .k4 then true else s.busBegun
  clkdiv : t.busClkdiv = if k = .k5 then .known s.cfg.clkdiv else s.busClkdiv
  rstN : t.rstN = if k = .k6 ∨ k = .k10 then .known .high else if k = .k8 then .known .low else s.rstN
  busy : t.busy = if k = .k11 then false else s.busy
  seq : t.seq = .idle ↔ k = .k11
  trace : ∃ e, t.trace = s.trace ++ [e]

theorem connectStep_writes {k : ConnectStep} {s t : State} (h : connectStep k s = .ok t) : ConnectWrites k s t := by
  have level : ∀ {v q}, (do .ok ((← line .rst v s).goto q)) = (.ok t : Res State) →
      t = ((s.setLvl .rst v).emit (.lvl .rst v)).goto q := by
    intro v q h
    obtain ⟨u, hu, h⟩ := Res.bind_eq_ok.1 h
    obtain ⟨-, rfl⟩ := line_eq_ok.1 hu
    cases h
    rfl
  cases k with
  | k6 | k8 | k10 => obtain rfl := level h; constructor <;> simp
  | _ => cases h; constructor <;> simp

/-- The elements that only CONNECT writes stay as they are. -/
structure KeepsSetUp (s t : State) : Prop where
  cfg : t.cfg = s.cfg
  connected : t.connected = s.connected
  result : t.result = s.result
  dirDc : t.dirDc = s.dirDc
  dirCs : t.dirCs = s.dirCs
  dirRst : t.dirRst = s.dirRst
  begun : t.busBegun = s.busBegun
  clkdiv : t.busClkdiv = s.busClkdiv
  rstN : t.rstN = s.rstN

/-- What a step can do, the host's list of moves aside. -/
inductive StepEffect (s t : State) : Prop
  /-- The host acts, or nothing happens. -/
  | host (h : t = { s with opreq := t.opreq, fb := t.fb })
  /-- Something raises. -/
  | raised (r : Fault) (h : t = s.raise r)
  /-- A request is accepted. -/
  | accepted (first : Seq) (hfirst : first ≠ .idle)
      (h : t = { s with busy := true, seq := first, opreq := 0#2 })
  /-- CONNECT makes a line. -/
  | connects (k : ConnectStep) (hk : s.seq = .connect k) (writes : ConnectWrites k s t)
  /-- DISPLAY makes a statement that is not its last. -/
  | displays (e : Event) (hs : s.seq ≠ .idle) (ht : t.seq ≠ .idle) (h : t = { s with
      minP := t.minP, maxP := t.maxP, minC := t.minC, maxC := t.maxC, p := t.p, c := t.c, i := t.i, sh := t.sh,
      csN := t.csN, dc := t.dc, rx := t.rx, trace := s.trace ++ [e], seq := t.seq })
  /-- DISPLAY completes. -/
  | completes (h : t = complete .display s)

theorem settle_effect {s t : State} {body : Res State} (hb : ∀ u, body = .ok u → StepEffect s u)
    (h : settle s body = .next t) : StepEffect s t := by
  obtain ⟨-, h | ⟨r, -, rfl⟩⟩ := settle_eq_next.1 h
  · exact hb t h
  · exact .raised r rfl

theorem accept_effect {q : Request} {first : Seq} {s t : State} (hfirst : first ≠ .idle)
    (h : accept q first s = .ok t) : StepEffect s t :=
  .accepted first hfirst (accept_eq_ok.1 h).2

theorem sendCommand_effect {b : Byte} {s t : State} (h : sendCommand b s = .ok t) : StepEffect s t := by
  obtain ⟨m, slot, st, hs, ht⟩ := sendCommand_inv h
  exact .displays (st.event b) (by simp [hs]) (by rw [ht]; exact afterStatement_ne m slot st) (by rw [ht])

theorem sendData_effect {d : Byte} {s t : State} (h : sendData d s = .ok t) : StepEffect s t := by
  have ht := sendData_seq_ne h
  obtain ⟨hs, c, q, rfl⟩ | ⟨hs, i, q, rfl⟩ := sendData_inv h
  · exact .displays (.xfer d) (by simp [hs]) ht rfl
  · exact .displays (.xfer d) (by simp [hs]) ht rfl

/-- A row of the scan, from the state `u` in which A1 may have set the bounds and `P`. -/
theorem scanRow_effect {s u t : State} (hs : s.seq ≠ .idle)
    (hu : u = { s with minP := u.minP, maxP := u.maxP, minC := u.minC, maxC := u.maxC, p := u.p })
    (h : scanRow u = .ok t) : StepEffect s t := by
  obtain ⟨ht, -, hseq⟩ := scanRow_inv h
  exact .displays .yield hs hseq (by rw [ht, hu])

/-- The statement of a DISPLAY at each position of `seq`. -/
theorem displayStep_effect {s t : State} (h : displayStep s = .ok t) : StepEffect s t := by
  revert h
  unfold displayStep
  cases e : s.seq with
  | idle | connect k => intro h; cases h
  | a1 | scan => exact scanRow_effect (by simp [e]) rfl
  | a4 | finish m => intro h; cases h; exact .completes rfl
  | cmd m slot st =>
    intro h
    obtain ⟨b, -, h⟩ := Res.bind_eq_ok.1 h
    exact sendCommand_effect h
  | a8 | b4 =>
    intro h
    obtain ⟨b, -, h⟩ := Res.bind_eq_ok.1 h
    exact sendData_effect h
  | a9 =>
    intro h
    have hseq := nextPage_seq_ne h
    obtain ⟨p, c, q, rfl⟩ := nextPage_inv h
    exact .displays .yield (by simp [e]) hseq rfl
  | b4Yield =>
    intro h
    have hseq := nextByte_seq_ne h
    obtain ⟨i, q, rfl⟩ := nextByte_inv h
    exact .displays .yield (by simp [e]) hseq rfl
  | dopen m st =>
    intro h
    obtain ⟨⟨ev, ht⟩, -, -⟩ := dopenStep_inv h
    exact .displays ev (by simp [e]) (dopenStep_seq_ne h) (by rw [ht])
  | dclose m st =>
    intro h
    obtain ⟨ev, ht⟩ := dcloseStep_inv h
    exact .displays ev (by simp [e]) (dcloseStep_seq_ne h) (by rw [ht])

theorem connectBody_effect {s t : State} (h : connectBody s = .ok t) : StepEffect s t := by
  unfold connectBody at h
  split at h
  · next k _ hk => exact .connects k hk (connectStep_writes h)
  · exact accept_effect (by simp) h

theorem displayBody_effect {m : Mode} {i : Instr} {first : Seq} {s t : State} (hfirst : first ≠ .idle)
    (h : displayBody m i first s = .ok t) : StepEffect s t := by
  unfold displayBody at h
  split at h
  · split at h
    · exact displayStep_effect h
    · exact accept_effect hfirst h
  · cases h

theorem exec_effect {i : Instr} {s t : State} (h : exec i s = .next t) : StepEffect s t := by
  cases i with
  | connect => exact settle_effect (fun _ => connectBody_effect) h
  | displayTracked => exact settle_effect (fun _ => displayBody_effect (by simp)) h
  | displayFull => exact settle_effect (fun _ => displayBody_effect (by simp)) h
  | reservedOp => exact settle_effect (fun _ hu => absurd hu accept_reserved_ne_ok) h
  | cmdColumnaddr => exact settle_effect (fun _ => sendCommand_effect) h
  | cmdPageaddr => exact settle_effect (fun _ => sendCommand_effect) h
  | cmdArg a => exact settle_effect (fun _ => sendCommand_effect) h
  | data d => exact settle_effect (fun _ => sendData_effect) h

theorem fbtxStep_effect {s t : State} (h : fbtxStep s = .next t) : StepEffect s t := by
  unfold fbtxStep at h
  split at h
  · exact settle_effect (fun _ hu => by cases hu) h
  · exact settle_effect (fun _ hu => by cases hu; exact .host rfl) h
  · exact exec_effect h

/-- Every step has one of the effects of `StepEffect`, once the move it makes is off the host's list. -/
theorem step_effect {s t : State} (h : step s = .next t) : ∃ moves, StepEffect { s with host := moves } t := by
  obtain ⟨hw, hf⟩ := step_next h
  rw [step_eq hw hf] at h
  split at h
  case isFalse => exact ⟨s.host, fbtxStep_effect h⟩
  case isTrue =>
    split at h
    · exact ⟨s.host, fbtxStep_effect h⟩
    · next m rest _ =>
      refine ⟨movesAfter s m rest, ?_⟩
      split at h
      · next body hacts => exact settle_effect (fun u hu => .host (hostMove_inv hacts hu).1) h
      · exact fbtxStep_effect h

/-! The rules about every step. -/

/-- The set-up of the bus is kept, or it is written by a line of CONNECT. -/
theorem step_setUp {s t : State} (h : step s = .next t) :
    KeepsSetUp s t ∨ ∃ k, s.seq = .connect k ∧ ConnectWrites k s t := by
  obtain ⟨moves, h⟩ := step_effect h
  cases h with
  | host h => left; constructor <;> rw [h]
  | raised r h => left; constructor <;> rw [h] <;> rfl
  | accepted first _ h => left; constructor <;> rw [h]
  | connects k hk w => exact .inr ⟨k, hk, { w with }⟩
  | displays e _ _ h => left; constructor <;> rw [h]
  | completes h => left; constructor <;> rw [h] <;> rfl

/-- Settles O34: no effect of a step writes the configuration. -/
theorem configurationNeverChanges : Obligations.ConfigurationNeverChanges := by
  intro s t h
  obtain keeps | ⟨k, -, writes⟩ := step_setUp h
  · exact keeps.cfg
  · exact writes.cfg

/-- An element that one label of CONNECT writes has changed only in the step at that label, and by its value. -/
theorem changed_of_write {α : Type} {new old v : α} {k k' : ConnectStep} {q : Seq} (hq : q = .connect k)
    (h : new = if k = k' then v else old) (hne : new ≠ old) : q = .connect k' ∧ new = v := by
  by_cases hk : k = k'
  · subst hk; exact ⟨hq, by simpa using h⟩
  · rw [if_neg hk] at h; exact absurd h hne

/-- Settles O18: both elements are written at K11 only. -/
theorem connectedOnlyByConnect : Obligations.ConnectedOnlyByConnect := by
  intro s t h
  obtain keeps | ⟨k, hk, writes⟩ := step_setUp h
  · exact ⟨absurd keeps.connected, absurd keeps.result⟩
  · exact ⟨changed_of_write hk writes.connected, changed_of_write hk writes.result⟩

/-- Settles O19: each element but `RST_N` is written at one label, and `RST_N` at K6, K8 and K10. -/
theorem busSetUpOnlyByConnect : Obligations.BusSetUpOnlyByConnect := by
  intro s t h
  obtain keeps | ⟨k, hk, writes⟩ := step_setUp h
  · exact ⟨absurd keeps.begun, absurd keeps.clkdiv, absurd keeps.dirDc, absurd keeps.dirCs, absurd keeps.dirRst,
      absurd keeps.rstN⟩
  · refine ⟨changed_of_write hk writes.begun, changed_of_write hk writes.clkdiv, changed_of_write hk writes.dirDc,
      changed_of_write hk writes.dirCs, changed_of_write hk writes.dirRst, fun hne => ?rst⟩
    have hrst := writes.rstN
    split at hrst
    · next high => exact .inl ⟨by rcases high with rfl | rfl <;> simp [hk], hrst⟩
    · split at hrst
      · next low => exact .inr ⟨by rw [hk, low], hrst⟩
      · exact absurd hrst hne

/-- Settles O36: an acceptance leaves `IDLE` and sets `BUSY`, a completion does the reverse, and every other step
leaves `BUSY` as it is and stays on its side of `IDLE`. -/
theorem busyWhileAnOperationRuns : Obligations.BusyWhileAnOperationRuns := by
  refine ⟨fun s t agree h => ?_, fun cfg frame draw => by simp [State.blockReset]⟩
  obtain ⟨moves, h⟩ := step_effect h
  cases h with
  | host h => rw [h]; exact agree
  | raised r h => rw [h]; exact agree
  | accepted first hfirst h => rw [h]; simp [hfirst]
  | connects k hk w =>
    have hs : s.seq = .connect k := hk
    have busy : s.busy = true := agree.2 (by simp [hs])
    rw [w.busy, Ne, w.seq]
    simp [busy]
  | displays e hs ht h =>
    have busy : t.busy = true := by rw [h]; exact agree.2 hs
    simp [busy, ht]
  | completes h => rw [h]; simp

/-- Settles O37: one event for a statement of an operation, none for any other step; a host move writes the request
port and the framebuffer only. -/
theorem traceGrowsByOneEvent : Obligations.TraceGrowsByOneEvent := by
  refine ⟨fun s t h => ?step, fun s t m body hacts hb => by rw [(hostMove_inv hacts hb).1]⟩
  obtain ⟨moves, h⟩ := step_effect h
  have adds_none : t.trace = s.trace → ∃ es, t.trace = s.trace ++ es ∧ es.length ≤ 1 :=
    fun ht => ⟨[], by simp [ht], by simp⟩
  have adds_one : (∃ e, t.trace = s.trace ++ [e]) → ∃ es, t.trace = s.trace ++ es ∧ es.length ≤ 1 :=
    fun ⟨e, ht⟩ => ⟨[e], ht, by simp⟩
  cases h with
  | host h => exact adds_none (by rw [h])
  | raised r h => exact adds_none (by rw [h]; rfl)
  | accepted first _ h => exact adds_none (by rw [h])
  | connects k _ w => exact adds_one w.trace
  | displays e _ _ h => exact adds_one ⟨e, by rw [h]⟩
  | completes h => exact adds_one ⟨.done .display, by rw [h]; rfl⟩

end Sys2Proof.Machine
end

section
/-! PROOFS. A whole DISPLAY as one run, in each mode, from its request to rest with the trace it adds; and what that
trace leaves at the reference receiver (spec/20_memory.md R63, R64). -/

namespace Sys2Proof.Machine

/-! Where FBTX steps at once. -/

theorem step_of_request {s : State} (hw : s.cfg.WellFormed) (hf : s.fault = none) (hq : s.opreq ≠ 0#2) :
    step s = fbtxStep s := by
  rw [step_eq hw hf, if_neg hq]

theorem step_of_noMoves {s : State} (hw : s.cfg.WellFormed) (hf : s.fault = none) (hq : s.opreq = 0#2)
    (hh : s.host = []) : step s = fbtxStep s := by
  rw [step_eq hw hf, if_pos hq, hh]

/-! From the request to rest. -/

/-- DISPLAY has been taken off the port and stands at its first label (spec/30_encoding.md R71). -/
def State.displayAccepted (s : State) : State :=
  { s with busy := true, seq := firstLabel s.cfg.mode 0b10#2, opreq := 0#2 }

/-- A DISPLAY request at rest is accepted by the next step. -/
theorem step_displayRequested {s : State} (h : s.Inv) (hr : s.displayRequested) :
    step s = .next s.displayAccepted := by
  obtain ⟨hf, hs, hc, hq, hh⟩ := hr
  have idle : s.busy = false := by
    cases hb : s.busy with
    | false => rfl
    | true => exact absurd hs (h.busyIff.1 hb)
  have taken : acceptFault s (.op .display) = none := acceptFault_op_eq_none.2 ⟨idle, by simp [hc]⟩
  have accepted : accept (.op .display) (firstLabel s.cfg.mode 0b10#2) s = .ok s.displayAccepted :=
    accept_eq_ok.2 ⟨taken, rfl⟩
  have present : s.opreq ≠ 0#2 := by rw [hq]; decide
  rw [step_of_request h.configOk hf present]
  cases hm : s.cfg.mode with
  | tracked =>
    have body : displayBody .tracked .displayTracked .a1 s = .ok s.displayAccepted := by
      rw [displayBody, if_pos hm, inProgress_req present]
      simpa [hm, firstLabel] using accepted
    simp [fbtxStep, fetch, hq, hm, decodeRequest, exec, execDisplayTracked, body, settle_ok hf]
  | full =>
    have body : displayBody .full .displayFull (.cmd .full .colOp .deselect) s = .ok s.displayAccepted := by
      rw [displayBody, if_pos hm, inProgress_req present]
      simpa [hm, firstLabel] using accepted
    simp [fbtxStep, fetch, hq, hm, decodeRequest, exec, execDisplayFull, body, settle_ok hf]

theorem displayAccepted_cooperates {s : State} (h : s.Inv) (hr : s.displayRequested) :
    Cooperating s.displayAccepted where
  inv := invariantKeptByEveryStep s _ h (step_displayRequested h hr)
  fault := hr.1
  opreq := rfl
  host := hr.2.2.2.2
  conn := hr.2.2.1

/-- A DISPLAY run from its request to rest: the events it adds, and what it leaves alone. -/
structure DisplayRun (s t : State) (es : List Event) : Prop where
  reach : Reaches s t
  rest : t.atRest
  inv : t.Inv
  same : Steady s.displayAccepted t
  trace : t.trace = s.trace ++ es

theorem DisplayRun.of_path {s t : State} {es : List Event} (h : s.Inv) (hr : s.displayRequested)
    (path : PathTo s.displayAccepted t) (rest : t.atRest) (trace : t.trace = s.trace ++ es) : DisplayRun s t es :=
  ⟨reaches_trans (reaches_one (step_displayRequested h hr)) path.reach, rest, path.quiet.inv, path.same, trace⟩

/-! Mode A. -/

theorem BoundingBox.unique {S : Nat → Nat → Prop} {c0 c1 p0 p1 d0 d1 q0 q1 : Nat} (h : BoundingBox S c0 c1 p0 p1)
    (h' : BoundingBox S d0 d1 q0 q1) : c0 = d0 ∧ c1 = d1 ∧ p0 = q0 ∧ p1 = q1 := by
  obtain ⟨inside, ⟨x1, top⟩, ⟨x2, bottom⟩, ⟨x3, left⟩, ⟨x4, right⟩⟩ := h
  obtain ⟨inside', ⟨y1, top'⟩, ⟨y2, bottom'⟩, ⟨y3, left'⟩, ⟨y4, right'⟩⟩ := h'
  have := inside' _ _ top
  have := inside' _ _ bottom
  have := inside' _ _ left
  have := inside' _ _ right
  have := inside _ _ top'
  have := inside _ _ bottom'
  have := inside _ _ left'
  have := inside _ _ right'
  omega

theorem State.dirtyRect.boundingBox {s : State} {c0 c1 p0 p1 : Nat} (h : s.dirtyRect c0 c1 p0 p1) :
    BoundingBox (fun p c => p < s.cfg.np ∧ c < s.cfg.w ∧ s.changed p c) c0 c1 p0 p1 := by
  obtain ⟨inside, ⟨x1, hx1, top⟩, ⟨x2, hx2, bottom⟩, ⟨x3, hx3, left⟩, ⟨x4, hx4, right⟩, hp0, hp1, hc0, hc1⟩ := h
  exact ⟨fun p c ⟨hp, hc, changed⟩ => inside p c hp hc changed, ⟨x1, hp0, hx1, top⟩, ⟨x2, hp1, hx2, bottom⟩,
    ⟨x3, hx3, hc0, left⟩, ⟨x4, hx4, hc1, right⟩⟩

/-- A Mode A DISPLAY of a frame whose changed cells have a bounding box sends that box as its window
(spec/42_display_tracked.md R130, R141). -/
theorem tracked_display_run {s : State} {c0 c1 p0 p1 : Byte} (h : s.Inv) (hr : s.displayRequested)
    (hm : s.cfg.mode = .tracked) (hd : s.dirtyRect c0.toNat c1.toNat p0.toNat p1.toNat) :
    ∃ t, DisplayRun s t (trackedTrace s.cfg s.fb c0.toNat c1.toNat p0.toNat p1.toNat) ∧ t.windowHeld c0 c1 p0 p1 := by
  have first : s.displayAccepted.seq = .a1 := by simp [State.displayAccepted, firstLabel, hm]
  obtain ⟨u, scanned⟩ := scan_run (displayAccepted_cooperates h hr) hm first
  have ucfg : u.cfg = s.cfg := scanned.path.same.cfg
  have ufb : u.fb = s.fb := scanned.path.same.fb
  have utrace : u.trace = s.trace ++ List.replicate s.cfg.np .yield := scanned.trace
  rcases scanned.rect with ⟨-, -, unchanged⟩ | ⟨atA5, d0, d1, q0, q1, held, box⟩
  · obtain ⟨-, ⟨c, hc, changed⟩, -, -, -, hp, -⟩ := hd
    exact absurd changed (unchanged _ _ hp hc)
  · obtain ⟨e0, e1, e2, e3⟩ := box.unique hd.boundingBox
    obtain rfl := BitVec.eq_of_toNat_eq e0
    obtain rfl := BitVec.eq_of_toNat_eq e1
    obtain rfl := BitVec.eq_of_toNat_eq e2
    obtain rfl := BitVec.eq_of_toNat_eq e3
    have window : InWindow u d0 d1 q0 q1 := ⟨scanned.path.quiet, by rw [ucfg, hm], held⟩
    obtain ⟨t, sent, rest, -, -⟩ := send_run window atA5
    refine ⟨t, .of_path h hr (scanned.path.trans sent.path) rest ?_, (window.seg sent).win⟩
    rw [sent.trace, utrace, ucfg, ufb]
    simp [trackedTrace]

/-! Mode B. -/

/-- The window of Mode B covers the whole frame (spec/43_display_full.md R151). -/
theorem fullWindow_bounds {cfg : Config} (h : cfg.WellFormed) (hm : cfg.mode = .full) :
    (BitVec.ofNat 8 (cfg.w - 1)).toNat = cfg.w - 1 ∧ (BitVec.ofNat 8 cfg.geom.lastPage).toNat = cfg.np - 1 := by
  obtain ⟨w1, w2, n1, n2, -, -, geom, -, -⟩ := wf_facts h
  have last := geom hm
  simp only [BitVec.toNat_ofNat]
  omega

theorem full_display_run {s : State} (h : s.Inv) (hr : s.displayRequested) (hm : s.cfg.mode = .full) :
    ∃ t, DisplayRun s t (fullTrace s.cfg s.fb) := by
  have first : s.displayAccepted.seq = .cmd .full .colOp .deselect := by simp [State.displayAccepted, firstLabel, hm]
  have nonempty : 1 ≤ s.cfg.fbSize := by
    obtain ⟨w1, -, n1, -, -, size, -⟩ := wf_facts h.configOk
    rw [size]
    exact Nat.mul_pos w1 n1
  have last : s.cfg.fbSize - 1 + 1 = s.cfg.fbSize := Nat.sub_add_cancel nonempty
  obtain ⟨u, window, atB3⟩ := window_run (displayAccepted_cooperates h hr) first (c0 := 0#8) (p0 := 0#8) rfl rfl rfl rfl
  obtain ⟨v, opening, atSelect⟩ := dopen_run2 window.path.quiet atB3
  have opened := window.trans opening
  have select : displayStep v
      = .ok { (v.setLvl .cs .low).emit (.lvl .cs .low) with i := .holds 0#17, seq := .b4 } := by
    have vcfg : v.cfg = s.cfg := opened.path.same.cfg
    have out := line_ok (v := .low) (dir_out (opened.path.quiet.inv.readyOk opened.path.quiet.conn) .cs)
    have some_byte : 0 < s.cfg.fbSize := nonempty
    simp [displayStep, atSelect, dopenStep, out, enterFullRun, byteTest, vcfg, some_byte, State.goto]
  have selected := opened.trans (b := [.lvl .cs .low])
    ⟨disp_one opened.path.quiet (by rw [atSelect]; exact .inr rfl) select, ⟨rfl, rfl, rfl, rfl, rfl⟩, rfl⟩
  obtain ⟨x, bytes, atB5⟩ := b4_loop (s.cfg.fbSize - 1) selected.path.quiet rfl (i := 0#17) rfl
    (by rw [selected.path.same.cfg]; simpa [State.displayAccepted] using last)
  have sent := selected.trans bytes
  obtain ⟨t, closing, rest, -, -⟩ := dclose_run sent.path.quiet atB5
  have whole := sent.trans closing
  refine ⟨t, .of_path h hr whole.path rest ?_⟩
  have frame : frameRun s.cfg s.fb = (List.range' 0 s.cfg.fbSize).flatMap (byteEvents s.cfg s.fb) := by
    rw [← List.range_eq_range']; rfl
  rw [whole.trace, sent.path.same.cfg, selected.path.same.cfg, selected.path.same.fb]
  simp [State.displayAccepted, last, fullTrace, Event.dopen, frame]

/-! What the receiver makes of it. -/

/-- The bytes of a window, page by page and column by column (spec/42_display_tracked.md R137). -/
def windowBytes (cfg : Config) (fb : Memory) (c0 c1 p0 p1 : Nat) : List Byte :=
  (fromTo p0 p1).flatMap fun q => (fromTo c0 c1).map fun c => (fb.read (cfg.idx q c)).getD 0#8

/-- Index order is page by page and column by column (spec/20_memory.md R54 b). -/
theorem range_mul_eq_flatMap (w n : Nat) :
    List.range (w * n) = (List.range n).flatMap fun q => (List.range w).map fun c => q * w + c := by
  induction n with
  | zero => simp
  | succ n ih => rw [Nat.mul_succ, List.range_add, ih, List.range_succ, List.flatMap_append]; simp [Nat.mul_comm]

theorem bytesOf_frameRun {cfg : Config} (fb : Memory) (h : cfg.WellFormed) :
    bytesOf (frameRun cfg fb) = windowBytes cfg fb 0 (cfg.w - 1) 0 (cfg.np - 1) := by
  obtain ⟨w1, -, n1, -, -, size, -⟩ := wf_facts h
  have one : ∀ i, bytesOf (byteEvents cfg fb i) = [(fb.read i).getD 0#8] := by
    intro i
    unfold byteEvents
    split <;> rfl
  have flat : ∀ is : List Nat, bytesOf (is.flatMap (byteEvents cfg fb)) = is.map fun i => (fb.read i).getD 0#8 := by
    intro is
    induction is with
    | nil => rfl
    | cons i is ih => rw [List.flatMap_cons, bytesOf_append, one, ih]; rfl
  have upTo : ∀ n, 1 ≤ n → fromTo 0 (n - 1) = List.range n := by
    intro n hn
    rw [fromTo, List.range_eq_range']
    congr 1
    omega
  have frame : frameRun cfg fb = (List.range cfg.fbSize).flatMap (byteEvents cfg fb) := rfl
  rw [frame, flat, size, range_mul_eq_flatMap, windowBytes, upTo _ n1, upTo _ w1]
  simp [List.map_flatMap, Config.idx, Function.comp_def]

theorem frameRun_dataEvents (cfg : Config) (fb : Memory) : DataEvents (frameRun cfg fb) := by
  intro e he
  obtain ⟨i, -, he⟩ := List.mem_flatMap.1 he
  rcases List.mem_cons.1 he with rfl | he
  · exact .inl rfl
  · split at he
    · rw [List.mem_singleton.1 he]; exact .inr rfl
    · cases he

theorem idx_lt_fbSize {cfg : Config} (h : cfg.WellFormed) {p c : Nat} (hp : p < cfg.np) (hc : c < cfg.w) :
    cfg.idx p c < cfg.fbSize := by
  obtain ⟨-, -, -, -, -, size, -⟩ := wf_facts h
  calc cfg.idx p c < p * cfg.w + cfg.w := Nat.add_lt_add_left hc _
    _ = (p + 1) * cfg.w := (Nat.succ_mul _ _).symm
    _ ≤ cfg.np * cfg.w := Nat.mul_le_mul_right _ hp
    _ = cfg.fbSize := by rw [size, Nat.mul_comm]

/-- What the events of a DISPLAY send: a window of the display and its framebuffer bytes, after any number of yields. -/
structure SendsWindow (s : State) (es : List Event) (c0 c1 p0 p1 : Byte) : Prop where
  columns : c0 ≤ c1
  width : c1.toNat < s.cfg.w
  pages : p0 ≤ p1
  height : p1.toNat < s.cfg.np
  events : ∃ (n : Nat) (run : List Event), DataEvents run
    ∧ bytesOf run = windowBytes s.cfg s.fb c0.toNat c1.toNat p0.toNat p1.toNat
    ∧ es = List.replicate n .yield ++ (Event.setwindow s.cfg c0 c1 p0 p1 ++ Event.dopen ++ run
        ++ Event.dclose s.cfg ++ [.done .display])

theorem trackedTrace_sendsWindow {s t : State} {c0 c1 p0 p1 : Byte} (held : t.windowHeld c0 c1 p0 p1)
    (hcfg : t.cfg = s.cfg) :
    SendsWindow s (trackedTrace s.cfg s.fb c0.toNat c1.toNat p0.toNat p1.toNat) c0 c1 p0 p1 := by
  obtain ⟨-, -, -, -, columns, width, pages, height⟩ := held
  rw [hcfg] at width height
  exact ⟨columns, width, pages, height, s.cfg.np, _, quietly_window _ _ _ _ _ _, bytes_window _ _ _ _ _ _,
    by simp [trackedTrace]⟩

theorem fullTrace_sendsWindow {s : State} (h : s.cfg.WellFormed) (hm : s.cfg.mode = .full) :
    SendsWindow s (fullTrace s.cfg s.fb) 0#8 (BitVec.ofNat 8 (s.cfg.w - 1)) 0#8
      (BitVec.ofNat 8 s.cfg.geom.lastPage) := by
  obtain ⟨hw, hn⟩ := fullWindow_bounds h hm
  obtain ⟨w1, -, n1, -⟩ := wf_facts h
  exact ⟨Nat.zero_le _, by omega, Nat.zero_le _, by omega, 0, _, frameRun_dataEvents _ _,
    by rw [hw, hn]; exact bytesOf_frameRun s.fb h, rfl⟩

/-- A window and its bytes at a receiver between sequences: the pointers step in the order the bytes are sent
(spec/20_memory.md R64). -/
theorem receiveAll_window {cfg : Config} (hne : cfg.opColumnaddr ≠ cfg.opPageaddr) {r : Receiver} (hps : r.ps = .idle)
    (fb : Memory) {c0 c1 p0 p1 : Byte} (hc : c0 ≤ c1) (hp : p0 ≤ p1) :
    ∃ r', receiveAll cfg (.tracking r) (windowFrames cfg c0 c1 p0 p1
          ++ dataFrames (windowBytes cfg fb c0.toNat c1.toNat p0.toNat p1.toNat)) = .tracking r'
      ∧ ∀ p c : Byte, r'.ram.read (Receiver.cell p c) = if p0 ≤ p ∧ p ≤ p1 ∧ c0 ≤ c ∧ c ≤ c1
          then some ((fb.read (cfg.idx p.toNat c.toNat)).getD 0#8) else r.ram.read (Receiver.cell p c) := by
  have hp' : p0.toNat ≤ p1.toNat := hp
  have rows : fromTo p0.toNat p1.toNat = List.range' p0.toNat (p1.toNat - p0.toNat + 1) := by
    rw [fromTo]; congr 1; omega
  obtain ⟨r', filled, -, ram⟩ := rx_rows cfg (fun q c => (fb.read (cfg.idx q c)).getD 0#8)
    (p1.toNat - p0.toNat) (p1 := p1) (r := ⟨r.ram, c0, c1, p0, p1, c0, p0, .idle⟩)
    ⟨rfl, rfl, rfl, rfl, rfl, rfl, rfl⟩ hc (Nat.add_sub_cancel' hp')
  refine ⟨r', ?_, ram⟩
  have opened := rx_window cfg hne r hps c0 c1 p0 p1 hc hp
  rw [receiveAll] at opened filled
  rw [receiveAll, List.foldl_append, windowBytes, rows, ← filled, ← opened]
  rfl

/-- After a DISPLAY that sent a window, the receiver's RAM is the framebuffer inside it and as it was outside. -/
theorem ramByte_after_window {s t : State} {es : List Event} {r : Receiver} {c0 c1 p0 p1 : Byte} (h : s.Inv)
    (run : DisplayRun s t es) (sends : SendsWindow s es c0 c1 p0 p1) (hne : s.cfg.opColumnaddr ≠ s.cfg.opPageaddr)
    (hrx : s.rx = .tracking r) (hps : r.ps = .idle) (p c : Byte) :
    (p0 ≤ p ∧ p ≤ p1 ∧ c0 ≤ c ∧ c ≤ c1 →
        t.rx.ramByte p c = s.fb.read (s.cfg.idx p.toNat c.toNat) ∧ (t.rx.ramByte p c).isSome = true)
      ∧ (¬ (p0 ≤ p ∧ p ≤ p1 ∧ c0 ≤ c ∧ c ≤ c1) → t.rx.ramByte p c = s.rx.ramByte p c) := by
  obtain ⟨n, data, quiet, bytes, hes⟩ := sends.events
  obtain ⟨r', received, ram⟩ := receiveAll_window hne hps s.fb sends.columns sends.pages
  have heard : t.rx = .tracking r' := by
    rw [rx_of_trace h run.inv run.same.cfg run.trace, hes, stream_replicate, stream_tail _ _ _ _ _ _ _ quiet, bytes,
      hrx]
    exact received
  have byte : t.rx.ramByte p c = r'.ram.read (Receiver.cell p c) := by rw [heard]; rfl
  rw [byte, ram]
  constructor
  · intro inside
    obtain ⟨-, hp, -, hc⟩ := id inside
    obtain ⟨v, hv, -⟩ := fbRead_total h.fbShape (idx_lt_fbSize h.configOk
      (Nat.lt_of_le_of_lt hp sends.height) (Nat.lt_of_le_of_lt hc sends.width))
    simp [inside, hv]
  · intro outside
    rw [if_neg outside, hrx]
    rfl

/-- Settles O58: each mode's DISPLAY sends one window and its framebuffer bytes, so `ramByte_after_window` applies; in
Mode B that window is the whole frame. -/
theorem receiverShowsTheWindow : Obligations.ReceiverShowsTheWindow := by
  intro s r h hr hne hrx hps
  refine ⟨fun hm c0 c1 p0 p1 hd => ?tracked, fun hm => ?full⟩
  case tracked =>
    obtain ⟨t, run, held⟩ := tracked_display_run h hr hm hd
    exact ⟨t, run.reach, run.rest,
      ramByte_after_window h run (trackedTrace_sendsWindow held run.same.cfg) hne hrx hps⟩
  case full =>
    obtain ⟨t, run⟩ := full_display_run h hr hm
    refine ⟨t, run.reach, run.rest, fun p c => ?_⟩
    have whole : (0#8 ≤ p ∧ p ≤ BitVec.ofNat 8 s.cfg.geom.lastPage ∧ 0#8 ≤ c ∧ c ≤ BitVec.ofNat 8 (s.cfg.w - 1))
        ↔ (p.toNat < s.cfg.np ∧ c.toNat < s.cfg.w) := by
      obtain ⟨hw, hn⟩ := fullWindow_bounds h.configOk hm
      obtain ⟨w1, -, n1, -⟩ := wf_facts h.configOk
      rw [BitVec.le_def, BitVec.le_def, BitVec.le_def, BitVec.le_def, hw, hn]
      simp
      omega
    rw [← whole]
    exact ramByte_after_window h run (fullTrace_sendsWindow h.configOk hm) hne hrx hps p c

end Sys2Proof.Machine
end

section
/-! PROOFS. The instruction a step runs (spec/20_memory.md R60), the data it sends (R65), and the host's write of one
framebuffer byte (R57). -/

namespace Sys2Proof.Machine

/-! The instruction a step runs. -/

/-- A code that decodes is a request: 0b00 requests nothing (spec/30_encoding.md R70). -/
theorem opreq_ne_of_decodes {mode : Mode} {code : OpReq} {i : Instr} (h : decodeRequest mode code = .ok i) :
    code ≠ 0#2 := by
  rintro rfl
  cases h

theorem fbtxStep_of_fetch {s : State} {i : Instr} (h : fetch s = .ok (some i)) : fbtxStep s = exec i s := by
  rw [fbtxStep, h]

theorem fetch_request {s : State} {i : Instr} (h : decodeRequest s.cfg.mode s.opreq = .ok i) :
    fetch s = .ok (some i) := by
  simp [fetch, opreq_ne_of_decodes h, h]

theorem fetch_frame {s : State} {i : Instr} {pos : FramePos} {f : Frame} (hq : s.opreq = 0#2)
    (hf : frameInProgress s = .ok (some (pos, f))) (hd : decodeFrame s.cfg pos f = .ok i) :
    fetch s = .ok (some i) := by
  simp [fetch, hq, hf, hd]

theorem fetch_operation {s : State} {i : Instr} (hq : s.opreq = 0#2) (hf : frameInProgress s = .ok none)
    (ho : s.seq.owner = some i) : fetch s = .ok (some i) := by
  simp [fetch, hq, hf, ho]

/-- Settles O3: each of the three fixes what `fetch` answers, and `fetch` does not read the host's list. -/
theorem stepRunsTheFetchedInstruction : Obligations.StepRunsTheFetchedInstruction := by
  intro s i hw hf
  refine ⟨fun hd => ?request, fun hq inProgress => ?running, fun hq hh hs => step_at_rest hw hf hq hh hs⟩
  case request =>
    rw [step_of_request hw hf (opreq_ne_of_decodes hd)]
    exact fbtxStep_of_fetch (fetch_request hd)
  case running =>
    have fetched : fetch s = .ok (some i) := by
      obtain ⟨pos, f, frame, hd⟩ | ⟨none_sent, ho⟩ := inProgress
      · exact fetch_frame hq frame hd
      · exact fetch_operation hq none_sent ho
    refine ⟨fun hh => ?none, fun rest hh => ?resume, fun rest hh hb => ?wait, fun w rest hh hb ha => ?never⟩
    case none =>
      rw [step_of_noMoves hw hf hq hh]
      exact fbtxStep_of_fetch fetched
    case resume =>
      rw [step_host hw hf hq hh]
      exact fbtxStep_of_fetch (s := { s with host := rest }) fetched
    case wait =>
      rw [step_host hw hf hq hh, moves_stay hh rfl hb]
      simpa [hostMove, hb] using fbtxStep_of_fetch fetched
    case never =>
      rw [step_unstuck hw hf hq hb hh ha]
      exact fbtxStep_of_fetch fetched

/-! The data run. -/

theorem windowByte_of_inv {s : State} (h : s.Inv) (e : s.seq = .a8) :
    ∃ p c d, s.p = .holds p ∧ s.c = .holds c ∧ s.fb.read (s.cfg.idx p.toNat c.toNat) = some d
      ∧ windowByte s = .ok d := by
  have regs := h.registersOk
  simp only [State.registersAtSeq, e] at regs
  obtain ⟨c0, c1, p0, p1, ⟨-, -, -, -, -, width, -, height⟩, p, c, hp, hc, -, hp1, -, hc1⟩ := regs
  obtain ⟨d, hd, read⟩ := fbRead_total h.fbShape (idx_lt_fbSize h.configOk
    (Nat.lt_of_le_of_lt hp1 height) (Nat.lt_of_le_of_lt hc1 width))
  exact ⟨p, c, d, hp, hc, hd, by simp [windowByte, hp, hc, read]⟩

theorem frameByte_of_inv {s : State} (h : s.Inv) (e : s.seq = .b4) :
    ∃ i d, s.i = .holds i ∧ s.fb.read i.toNat = some d ∧ frameByte s = .ok d := by
  have regs := h.registersOk
  simp only [State.registersAtSeq, e] at regs
  obtain ⟨i, hi, inside⟩ := regs
  obtain ⟨d, hd, read⟩ := fbRead_total h.fbShape inside
  exact ⟨i, d, hi, hd, by simp [frameByte, hi, read]⟩

/-- Settles O24: the statement of DISPLAY at A8 and at B4 is the data row with the byte it reads, from the
framebuffer. -/
theorem dataRunSendsFramebufferBytes : Obligations.DataRunSendsFramebufferBytes := by
  intro s h hf hq hh
  refine ⟨fun e => ?a8, fun e => ?b4⟩
  case a8 =>
    obtain ⟨p, c, d, hp, hc, hd, byte⟩ := windowByte_of_inv h e
    have sends : displayStep s = sendData d s := by simp [displayStep, e, byte]
    exact ⟨p, c, d, hp, hc, hd, by rw [step_display h hf hq hh (by rw [e]; exact .inl rfl), sends]; rfl⟩
  case b4 =>
    obtain ⟨i, d, hi, hd, byte⟩ := frameByte_of_inv h e
    have sends : displayStep s = sendData d s := by simp [displayStep, e, byte]
    exact ⟨i, d, hi, hd, by rw [step_display h hf hq hh (by rw [e]; exact .inr rfl), sends]; rfl⟩

/-! The host's write of one byte. -/

theorem step_fbw {s : State} {x : Nat} {v : Byte} {rest : List HostMove} (hw : s.cfg.WellFormed)
    (hf : s.fault = none) (hq : s.opreq = 0#2) (hh : s.host = .fbw x v :: rest) :
    step s = settle { s with host := rest } (fbWrite { s with host := rest } x v) := by
  rw [step_host hw hf hq hh]
  rfl

/-- Settles O47: the body of the move is `fbWrite`, which raises while `BUSY = 1` and else writes one byte. -/
theorem hostWritesOneByte : Obligations.HostWritesOneByte := by
  intro s x v rest hw hf hq hh
  rw [step_fbw hw hf hq hh]
  refine ⟨fun hb => ?busy, fun hb hx => ?free⟩
  case busy =>
    have raises : fbWrite { s with host := rest } x v = .error (.raises .fbWriteBusy) := by simp [fbWrite, hb]
    rw [raises]
    exact settle_raises (s := { s with host := rest }) hf
  case free =>
    have writes := fbWrite_eq_ok (s := { s with host := rest }) (v := v) |>.2 ⟨hb, hx, rfl⟩
    rw [writes]
    exact ⟨_, settle_ok (s := { s with host := rest }) hf, Memory.read_write_same _ _ _,
      fun y hy => Memory.read_write_other _ hy _, rfl⟩

end Sys2Proof.Machine
end

section
/-! PROOFS. Who may write which memory: the framebuffer is the host's, the shadow buffer the scan's, the receiver's RAM
only a transfer's (spec/20_memory.md R51, R52, R62, R63). -/

namespace Sys2Proof.Machine

/-! Which statement a step of FBTX makes. -/

/-- What a step of FBTX comes to: nothing, a fault, an acceptance, or one statement. -/
inductive FbtxDoes (s t : State) : Prop
  | waits (h : t = s)
  | raises (r : Fault) (h : t = s.raise r)
  | accepts (q : Request) (first : Seq) (h : accept q first s = .ok t)
  | connects (k : ConnectStep) (h : connectStep k s = .ok t)
  | displays (h : displayStep s = .ok t)
  | command (b : Byte) (h : sendCommand b s = .ok t)
  | data (d : Byte) (h : sendData d s = .ok t)

theorem settle_does {s t : State} {body : Res State} (hb : ∀ u, body = .ok u → FbtxDoes s u)
    (h : settle s body = .next t) : FbtxDoes s t := by
  obtain ⟨-, h | ⟨r, -, rfl⟩⟩ := settle_eq_next.1 h
  · exact hb t h
  · exact .raises r rfl

theorem connectBody_does {s t : State} (h : connectBody s = .ok t) : FbtxDoes s t := by
  unfold connectBody at h
  split at h
  · exact .connects _ h
  · exact .accepts _ _ h

theorem displayBody_does {m : Mode} {i : Instr} {first : Seq} {s t : State} (h : displayBody m i first s = .ok t) :
    FbtxDoes s t := by
  unfold displayBody at h
  split at h
  · split at h
    · exact .displays h
    · exact .accepts _ _ h
  · cases h

theorem exec_does {i : Instr} {s t : State} (h : exec i s = .next t) : FbtxDoes s t := by
  cases i with
  | connect => exact settle_does (fun _ => connectBody_does) h
  | displayTracked => exact settle_does (fun _ => displayBody_does) h
  | displayFull => exact settle_does (fun _ => displayBody_does) h
  | reservedOp => exact settle_does (fun _ => .accepts _ _) h
  | cmdColumnaddr => exact settle_does (fun _ => .command _) h
  | cmdPageaddr => exact settle_does (fun _ => .command _) h
  | cmdArg a => exact settle_does (fun _ => .command a) h
  | data d => exact settle_does (fun _ => .data d) h

theorem fbtxStep_does {s t : State} (h : fbtxStep s = .next t) : FbtxDoes s t := by
  unfold fbtxStep at h
  split at h
  · exact settle_does (fun _ hu => by cases hu) h
  · exact settle_does (fun _ hu => by cases hu; exact .waits rfl) h
  · exact exec_does h

/-- A step is one of FBTX, or a move of the host with its body, once that move is off the host's list. -/
theorem step_does {s t : State} (h : step s = .next t) : ∃ moves, FbtxDoes { s with host := moves } t
    ∨ ∃ m, hostMove m { s with host := moves } = .hostActs (.ok t) := by
  obtain ⟨hw, hf⟩ := step_next h
  rw [step_eq hw hf] at h
  split at h
  case isFalse => exact ⟨s.host, .inl (fbtxStep_does h)⟩
  case isTrue =>
    split at h
    · exact ⟨s.host, .inl (fbtxStep_does h)⟩
    · next m rest _ =>
      refine ⟨movesAfter s m rest, ?_⟩
      split at h
      · next body hacts =>
        obtain ⟨-, hb | ⟨r, -, rfl⟩⟩ := settle_eq_next.1 h
        · exact .inr ⟨m, hb ▸ hacts⟩
        · exact .inl (.raises r rfl)
      · exact .inl (fbtxStep_does h)

/-! What a step of FBTX does to the memories. -/

/-- It leaves the framebuffer, keeps the form of the shadow buffer, and the receiver hears at most one transfer. -/
structure FbtxMemories (s t : State) : Prop where
  fb : t.fb = s.fb
  sh : s.sh.wf = true → t.sh.wf = true
  rx : t.rx = s.rx ∨ ∃ b, t.rx = s.rx.hear s.cfg s.csN s.dc b

/-- A statement that touches no memory. -/
theorem FbtxMemories.of_kept {s t : State} (fb : t.fb = s.fb) (sh : t.sh = s.sh) (rx : t.rx = s.rx) :
    FbtxMemories s t := ⟨fb, fun h => by rw [sh, h], .inl rx⟩

theorem line_memories {l : Line} {v : Level} {s u : State} {q : Seq} (h : line l v s = .ok u) :
    FbtxMemories s (u.goto q) := by
  obtain ⟨-, rfl⟩ := line_eq_ok.1 h
  exact .of_kept (by simp) (by simp) (by simp)

theorem sendCommand_memories {b : Byte} {s t : State} (h : sendCommand b s = .ok t) : FbtxMemories s t := by
  unfold sendCommand at h
  split at h
  · next m slot st _ =>
    obtain ⟨u, hu, h⟩ := Res.bind_eq_ok.1 h
    cases h
    cases st with
    | transfer =>
      obtain ⟨-, rfl⟩ := xfer_eq_ok.1 hu
      exact ⟨rfl, id, .inr ⟨b, rfl⟩⟩
    | _ => exact line_memories hu
  · cases h

theorem sendData_memories {d : Byte} {s t : State} (h : sendData d s = .ok t) : FbtxMemories s t := by
  obtain ⟨-, c, q, rfl⟩ | ⟨-, i, q, rfl⟩ := sendData_inv h
  · exact ⟨rfl, id, .inr ⟨d, rfl⟩⟩
  · exact ⟨rfl, id, .inr ⟨d, rfl⟩⟩

/-- The scan writes the shadow buffer cell by cell. -/
theorem scanCells_sh_wf {n : Nat} {s t : State} (h : scanCells n s = .ok t) (hs : s.sh.wf = true) :
    t.sh.wf = true := by
  induction n generalizing s with
  | zero => cases h; exact hs
  | succ n ih =>
    obtain ⟨u, hu, h⟩ := Res.bind_eq_ok.1 h
    obtain ⟨p, c, f, -, -, hue⟩ := scanCell_inv hu
    refine ih h ?_
    rw [hue]
    exact Memory.wf_write _ _ _ hs

theorem scanRow_sh_wf {s t : State} (h : scanRow s = .ok t) (hs : s.sh.wf = true) : t.sh.wf = true := by
  obtain ⟨u, hu, h⟩ := Res.bind_eq_ok.1 h
  have scanned : u.sh.wf = true := scanCells_sh_wf hu hs
  obtain ⟨v, hv, h⟩ := Res.bind_eq_ok.1 h
  cases hv
  obtain ⟨p, -, h⟩ := Res.bind_eq_ok.1 h
  dsimp only at h
  split at h
  · cases h; exact scanned
  · obtain ⟨e, -, h⟩ := Res.bind_eq_ok.1 h
    cases h
    exact scanned

/-- A row of the scan, from the state `u` in which A1 may have set the bounds and `P`. -/
theorem scanRow_memories {s u t : State}
    (hu : u = { s with minP := u.minP, maxP := u.maxP, minC := u.minC, maxC := u.maxC, p := u.p })
    (h : scanRow u = .ok t) : FbtxMemories s t := by
  have ht := (scanRow_inv h).1
  refine ⟨by rw [ht, hu], fun hs => scanRow_sh_wf h (by rw [hu]; exact hs), .inl (by rw [ht, hu])⟩

theorem displayStep_memories {s t : State} (h : displayStep s = .ok t) : FbtxMemories s t := by
  revert h
  unfold displayStep
  cases s.seq with
  | idle | connect k => intro h; cases h
  | a1 | scan => exact scanRow_memories rfl
  | a4 | finish m => intro h; cases h; exact .of_kept rfl rfl rfl
  | cmd m slot st =>
    intro h
    obtain ⟨b, -, h⟩ := Res.bind_eq_ok.1 h
    exact sendCommand_memories h
  | a8 | b4 =>
    intro h
    obtain ⟨b, -, h⟩ := Res.bind_eq_ok.1 h
    exact sendData_memories h
  | a9 =>
    intro h
    obtain ⟨p, c, q, rfl⟩ := nextPage_inv h
    exact .of_kept rfl rfl rfl
  | b4Yield =>
    intro h
    obtain ⟨i, q, rfl⟩ := nextByte_inv h
    exact .of_kept rfl rfl rfl
  | dopen m st =>
    intro h
    obtain ⟨⟨ev, ht⟩, -, -⟩ := dopenStep_inv h
    exact .of_kept (by rw [ht]) (by rw [ht]) (by rw [ht])
  | dclose m st =>
    intro h
    obtain ⟨ev, ht⟩ := dcloseStep_inv h
    exact .of_kept (by rw [ht]) (by rw [ht]) (by rw [ht])

theorem FbtxDoes.memories {s t : State} (h : FbtxDoes s t) : FbtxMemories s t := by
  cases h with
  | waits h => rw [h]; exact .of_kept rfl rfl rfl
  | raises r h => rw [h]; exact .of_kept rfl rfl rfl
  | accepts q first h => rw [(accept_eq_ok.1 h).2]; exact .of_kept rfl rfl rfl
  | connects k h =>
    obtain ⟨ev, ht⟩ := connectStep_inv h
    rw [ht]
    exact .of_kept rfl rfl rfl
  | displays h => exact displayStep_memories h
  | command b h => exact sendCommand_memories h
  | data d h => exact sendData_memories h

/-! The canonical form of every memory. -/

/-- The receiver's RAM is canonical, while the receiver is in its model. -/
def Rx.ramWf (rx : Rx) : Prop := ∀ r, rx = .tracking r → r.ram.wf = true

/-- A command byte stores nothing. -/
theorem onCommand_ram {cfg : Config} {r r' : Receiver} {b : Byte} (h : r.onCommand cfg b = .tracking r') :
    r'.ram = r.ram := by
  cases hps : r.ps with
  | idle =>
    simp only [Receiver.onCommand, hps] at h
    split at h
    · cases h; rfl
    · split at h
      · cases h; rfl
      · cases h
  | col1 | page1 =>
    simp only [Receiver.onCommand, hps] at h
    cases h
    rfl
  | col2 | page2 =>
    simp only [Receiver.onCommand, hps] at h
    split at h
    · cases h; rfl
    · cases h

theorem onData_ram_wf {r : Receiver} (b : Byte) (h : r.ram.wf = true) : (r.onData b).ram.wf = true := by
  have stored := Memory.wf_write r.ram (Receiver.cell r.pp r.cp) b h
  unfold Receiver.onData
  split <;> exact stored

theorem hear_ramWf {cfg : Config} {rx : Rx} (csN dc : Unk Level) (b : Byte) (h : rx.ramWf) :
    (rx.hear cfg csN dc b).ramWf := by
  unfold Rx.hear
  split
  · next f _ =>
    cases rx with
    | outside why => intro r hr; cases hr
    | tracking r =>
      simp only [Rx.receive]
      split
      · rintro _ ⟨⟩; exact onData_ram_wf _ (h r rfl)
      · intro r' hr'; rw [onCommand_ram hr']; exact h r rfl
  · exact h

/-- A host move keeps the framebuffer's form. -/
theorem hostMove_fb_wf {m : HostMove} {s t : State} (h : hostMove m s = .hostActs (.ok t)) (hs : s.fb.wf = true) :
    t.fb.wf = true := by
  by_cases same : t.fb = s.fb
  · rw [same, hs]
  · obtain ⟨-, x, v, -, ht⟩ := (hostMove_inv h rfl).2 same
    rw [ht]
    exact Memory.wf_write _ _ _ hs

/-- Settles O39: every memory changes by `Memory.write` only, which keeps the form. -/
theorem memoriesStayCanonical : Obligations.MemoriesStayCanonical := by
  intro s t h fb sh ram
  obtain ⟨moves, does | ⟨m, acts⟩⟩ := step_does h
  · have mem := does.memories
    refine ⟨by rw [mem.fb]; exact fb, mem.sh sh, ?_⟩
    obtain rx | ⟨b, rx⟩ := mem.rx
    · rw [rx]; exact ram
    · rw [rx]; exact hear_ramWf _ _ b ram
  · have same := (hostMove_inv acts rfl).1
    exact ⟨hostMove_fb_wf acts fb, by rw [same]; exact sh, by rw [same]; exact ram⟩

/-! Ownership. -/

/-- The same effect of a host move, with the state it leaves changed by `φ`. -/
def MoveEffect.map (φ : State → State) : MoveEffect → MoveEffect
  | .hostActs body => .hostActs (body.map φ)
  | .fbtxRuns => .fbtxRuns

/-- `φ` changes nothing that a host move reads or writes. -/
structure HostBlind (φ : State → State) : Prop where
  cfg : ∀ s, (φ s).cfg = s.cfg
  busy : ∀ s, (φ s).busy = s.busy
  result : ∀ s, (φ s).result = s.result
  fb : ∀ s, (φ s).fb = s.fb
  waitsAt : ∀ s w, (φ s).waitsAt w = s.waitsAt w
  write : ∀ s m, { φ s with fb := m } = φ { s with fb := m }
  present : ∀ s code, { φ s with opreq := code } = φ { s with opreq := code }

theorem HostBlind.fbWrite {φ : State → State} (h : HostBlind φ) (s : State) (i : Nat) (v : Byte) :
    fbWrite (φ s) i v = (fbWrite s i v).map φ := by
  have written : ({ φ s with fb := (φ s).fb.write i v } : State) = φ { s with fb := s.fb.write i v } := by
    rw [h.fb]; exact h.write s _
  rw [Machine.fbWrite, written, h.busy, h.cfg, Machine.fbWrite]
  split
  · rfl
  · split <;> rfl

theorem HostBlind.fbRead {φ : State → State} (h : HostBlind φ) (s : State) (i : Nat) :
    fbRead (φ s) i = fbRead s i := by
  simp only [Machine.fbRead, h.cfg, h.fb]

theorem HostBlind.hostMove {φ : State → State} (h : HostBlind φ) (m : HostMove) (s : State) :
    hostMove m (φ s) = (hostMove m s).map φ := by
  cases m with
  | hold | resume => rfl
  | present code => exact congrArg (fun t => MoveEffect.hostActs (.ok t)) (h.present s code)
  | fbw i v => exact congrArg MoveEffect.hostActs (h.fbWrite s i v)
  | pix a b v =>
    simp only [Machine.hostMove, h.busy, h.cfg, h.fbRead, h.fbWrite]
    split
    · rfl
    · cases Machine.fbRead s (s.cfg.pixelIndex a b) <;> rfl
  | readResult =>
    simp only [Machine.hostMove, h.result]
    cases s.result.get <;> rfl
  | wait =>
    simp only [Machine.hostMove, h.busy]
    split <;> rfl
  | never w =>
    simp only [Machine.hostMove, h.busy, h.waitsAt]
    split <;> rfl

/-- The host does not reach the shadow buffer (spec/20_memory.md R52). -/
theorem hostBlind_sh (x : Memory) : HostBlind fun s => { s with sh := x } :=
  ⟨fun _ => rfl, fun _ => rfl, fun _ => rfl, fun _ => rfl, fun _ _ => rfl, fun _ _ => rfl, fun _ _ => rfl⟩

/-- Settles O35: no statement of FBTX writes the framebuffer, the host's moves neither write nor read the shadow buffer,
and a changed framebuffer byte is the one that a host move wrote. -/
theorem memoryOwnership : Obligations.MemoryOwnership := by
  refine ⟨fun s t i h a => by rw [(exec_does h).memories.fb], fun s t m body acts hb a => ?hostWrites,
    fun s m rest x => ⟨rfl, rfl, fun runs => ?runs, fun body acts => ?acts⟩, fun s t a h changed => ?step⟩
  case hostWrites => rw [(hostMove_inv acts hb).1]
  case runs => rw [(hostBlind_sh x).hostMove, runs]; rfl
  case acts => rw [(hostBlind_sh x).hostMove, acts]; rfl
  case step =>
    obtain ⟨moves, does | ⟨m, acts⟩⟩ := step_does h
    · exact absurd (by rw [does.memories.fb]) changed
    · obtain ⟨idle, x, v, inside, ht⟩ := (hostMove_inv acts rfl).2 fun same => changed (by rw [same])
      have written : a = x := by
        by_contra other
        exact changed (by rw [ht]; exact Memory.read_write_other _ other v)
      exact ⟨idle, by rw [written]; exact inside, by rw [ht]⟩

end Sys2Proof.Machine
end

section
/-! PROOFS. No step reads the reference receiver (spec/20_memory.md R63). A receiver outside its model hears nothing, so
a state with such a receiver runs as every state that differs from it only there. -/

namespace Sys2Proof.Machine

/-- The same state with its receiver outside its model. -/
def State.deaf (s : State) : State := { s with rx := .outside .otherCommand }

theorem hear_outside (cfg : Config) (why : RxOutside) (csN dc : Unk Level) (b : Byte) :
    (Rx.outside why).hear cfg csN dc b = .outside why := by
  unfold Rx.hear
  split <;> rfl

/-- The one statement that writes the receiver. -/
theorem sent_deaf (s : State) (b : Byte) : s.deaf.sent b = (s.sent b).deaf := by
  simp [State.deaf, State.sent, hear_outside]

/-! Sequencing. -/

theorem bind_deaf {x y : Res State} {f : State → Res State} (h : y = x.map State.deaf)
    (hf : ∀ t, f t.deaf = (f t).map State.deaf) : (y >>= f) = (x >>= f).map State.deaf := by
  subst h
  cases x with
  | error e => rfl
  | ok t => exact hf t

/-- A value read from the state, the same in both. -/
theorem read_deaf {α : Type} (x : Res α) {f g : α → Res State} (h : ∀ a, g a = (f a).map State.deaf) :
    (x >>= g) = (x >>= f).map State.deaf := by
  cases x with
  | error e => rfl
  | ok a => exact h a

theorem ite_deaf {c : Prop} [Decidable c] {x x' y y' : Res State} (hx : x' = x.map State.deaf)
    (hy : y' = y.map State.deaf) : (if c then x' else y') = (if c then x else y).map State.deaf := by
  split
  · exact hx
  · exact hy

/-! Statements. -/

theorem line_deaf (l : Line) (v : Level) (s : State) : line l v s.deaf = (line l v s).map State.deaf := by
  have dir : s.deaf.dir l = s.dir l := by cases l <;> rfl
  have set : (s.deaf.setLvl l v).emit (.lvl l v) = ((s.setLvl l v).emit (.lvl l v)).deaf := by cases l <;> rfl
  rw [line, line, dir, set]
  split <;> rfl

theorem line_goto_deaf (l : Line) (v : Level) (q : Seq) (s : State) :
    (do .ok ((← line l v s.deaf).goto q)) = (do .ok ((← line l v s).goto q) : Res State).map State.deaf :=
  bind_deaf (f := fun t => .ok (t.goto q)) (line_deaf l v s) fun _ => rfl

theorem xfer_deaf (b : Byte) (s : State) : xfer b s.deaf = (xfer b s).map State.deaf := by
  have begun : s.deaf.busBegun = s.busBegun := rfl
  rw [xfer, xfer, sent_deaf, begun]
  split <;> rfl

theorem columnTest_deaf (s : State) : columnTest s.deaf = (columnTest s).map State.deaf :=
  read_deaf _ fun _ => read_deaf _ fun _ => rfl

theorem pageTest_deaf (s : State) : pageTest s.deaf = (pageTest s).map State.deaf := by
  refine read_deaf s.p.get fun p => read_deaf s.maxP.get fun maxP => ite_deaf ?_ rfl
  exact read_deaf s.minC.get fun minC => columnTest_deaf { s with c := .holds (minC.setWidth 9) }

theorem nextColumn_deaf (s : State) : nextColumn s.deaf = (nextColumn s).map State.deaf :=
  read_deaf _ fun c => columnTest_deaf { s with c := .holds (c + 1#9) }

theorem nextPage_deaf (s : State) : nextPage s.deaf = (nextPage s).map State.deaf :=
  read_deaf _ fun p => pageTest_deaf { s with p := .holds (p + 1#9) }

theorem enterTrackedRun_deaf (s : State) : enterTrackedRun s.deaf = (enterTrackedRun s).map State.deaf :=
  read_deaf _ fun minP => pageTest_deaf { s with p := .holds (minP.setWidth 9) }

theorem byteTest_deaf (s : State) : byteTest s.deaf = (byteTest s).map State.deaf := read_deaf _ fun _ => rfl

theorem nextByte_deaf (s : State) : nextByte s.deaf = (nextByte s).map State.deaf :=
  read_deaf _ fun i => byteTest_deaf { s with i := .holds (i + 1#17) }

theorem afterByte_deaf (s : State) : afterByte s.deaf = (afterByte s).map State.deaf :=
  read_deaf _ fun _ => ite_deaf rfl (nextByte_deaf s)

theorem bracketStatement_deaf (st : BracketStep) (b : Byte) (s : State) :
    bracketStatement st b s.deaf = (bracketStatement st b s).map State.deaf := by
  cases st with
  | transfer => exact xfer_deaf b s
  | _ => exact line_deaf _ _ s

theorem sendCommand_deaf (b : Byte) (s : State) : sendCommand b s.deaf = (sendCommand b s).map State.deaf := by
  have seq : s.deaf.seq = s.seq := rfl
  rw [sendCommand, sendCommand, seq]
  split
  · next m slot st _ =>
    exact bind_deaf (f := fun t => .ok (t.goto (Seq.afterStatement m slot st))) (bracketStatement_deaf st b s)
      fun _ => rfl
  · rfl

theorem sendData_deaf (d : Byte) (s : State) : sendData d s.deaf = (sendData d s).map State.deaf := by
  have seq : s.deaf.seq = s.seq := rfl
  rw [sendData, sendData, seq]
  split
  · exact bind_deaf (xfer_deaf d s) nextColumn_deaf
  · exact bind_deaf (xfer_deaf d s) afterByte_deaf
  · rfl

theorem dopenStep_deaf (m : Mode) (st : OpenStep) (s : State) :
    dopenStep m st s.deaf = (dopenStep m st s).map State.deaf := by
  cases st with
  | deselect | dataMode => exact line_goto_deaf _ _ _ s
  | select =>
    cases m with
    | tracked => exact bind_deaf (line_deaf _ _ s) enterTrackedRun_deaf
    | full => exact bind_deaf (line_deaf _ _ s) fun t => byteTest_deaf { t with i := .holds 0#17 }

theorem dcloseStep_deaf (m : Mode) (st : CloseStep) (s : State) :
    dcloseStep m st s.deaf = (dcloseStep m st s).map State.deaf := by
  cases st with
  | deselect | dcLow => exact line_goto_deaf _ _ _ s

theorem noteCell_deaf (f sh p c : Byte) (s : State) :
    noteCell f sh p c s.deaf = (noteCell f sh p c s).map State.deaf := by
  refine ite_deaf ?_ rfl
  exact read_deaf _ fun _ => read_deaf _ fun _ => read_deaf _ fun _ => read_deaf _ fun _ => rfl

theorem scanCell_deaf (s : State) : scanCell s.deaf = (scanCell s).map State.deaf :=
  read_deaf _ fun p => read_deaf _ fun c => read_deaf _ fun f => read_deaf _ fun sh =>
    bind_deaf (f := fun t => .ok { shWrite t (s.cfg.idx p.toNat c.toNat) f with c := .holds (c + 1#9) })
      (noteCell_deaf f sh _ _ s) fun _ => rfl

theorem scanCells_deaf (n : Nat) : ∀ s : State, scanCells n s.deaf = (scanCells n s).map State.deaf := by
  induction n with
  | zero => exact fun _ => rfl
  | succ n ih => exact fun s => bind_deaf (scanCell_deaf s) ih

theorem scanRow_deaf (s : State) : scanRow s.deaf = (scanRow s).map State.deaf := by
  refine bind_deaf (scanCells_deaf s.cfg.w { s with c := .holds 0#9 }) fun t => ?_
  refine bind_deaf (x := yieldPoint t) rfl fun u => ?_
  refine read_deaf u.p.get fun p => ?_
  refine ite_deaf (c := (p + 1#9).toNat < u.cfg.np) rfl ?_
  exact read_deaf (emptyFrame { u with p := .holds (p + 1#9) }) fun _ => rfl

theorem displayStep_deaf (s : State) : displayStep s.deaf = (displayStep s).map State.deaf := by
  have seq : s.deaf.seq = s.seq := rfl
  rw [displayStep, displayStep, seq]
  cases s.seq with
  | idle | connect k => rfl
  | a1 => exact scanRow_deaf { initBounds s with p := .holds 0#9 }
  | scan => exact scanRow_deaf s
  | a4 | finish m => rfl
  | cmd m slot st => exact read_deaf (slotByte m slot s) fun b => sendCommand_deaf b s
  | dopen m st => exact dopenStep_deaf m st s
  | a8 => exact read_deaf (windowByte s) fun b => sendData_deaf b s
  | a9 => exact bind_deaf (x := yieldPoint s) rfl nextPage_deaf
  | b4 => exact read_deaf (frameByte s) fun b => sendData_deaf b s
  | b4Yield => exact bind_deaf (x := yieldPoint s) rfl nextByte_deaf
  | dclose m st => exact dcloseStep_deaf m st s

theorem connectStep_deaf (k : ConnectStep) (s : State) : connectStep k s.deaf = (connectStep k s).map State.deaf := by
  cases k with
  | k6 | k8 | k10 => exact line_goto_deaf _ _ _ s
  | _ => rfl

theorem accept_deaf (q : Request) (first : Seq) (s : State) :
    accept q first s.deaf = (accept q first s).map State.deaf := by
  have same : acceptFault s.deaf q = acceptFault s q := rfl
  rw [accept, accept, same]
  split <;> rfl

theorem connectBody_deaf (s : State) : connectBody s.deaf = (connectBody s).map State.deaf := by
  have same : inProgress .connect s.deaf = inProgress .connect s := rfl
  have seq : s.deaf.seq = s.seq := rfl
  rw [connectBody, connectBody, same, seq]
  split
  · exact connectStep_deaf _ s
  · exact accept_deaf _ _ s

theorem displayBody_deaf (m : Mode) (i : Instr) (first : Seq) (s : State) :
    displayBody m i first s.deaf = (displayBody m i first s).map State.deaf := by
  have same : inProgress i s.deaf = inProgress i s := rfl
  have cfg : s.deaf.cfg = s.cfg := rfl
  rw [displayBody, displayBody, same, cfg]
  split
  · split
    · exact displayStep_deaf s
    · exact accept_deaf _ _ s
  · rfl

/-! Steps. -/

/-- The outcome of a step, with the receiver of a next state outside its model. -/
def deafOutcome : Host.Outcome State Fault Refusal → Host.Outcome State Fault Refusal
  | .next t => .next t.deaf
  | .fault f => .fault f
  | .refused q => .refused q

theorem settle_deaf {s : State} {body body' : Res State} (h : body' = body.map State.deaf) :
    settle s.deaf body' = deafOutcome (settle s body) := by
  subst h
  cases hf : s.fault with
  | some f => rw [settle_faulted hf]; exact settle_faulted (s := s.deaf) hf
  | none =>
    cases body with
    | ok t => rw [settle_ok hf]; exact settle_ok (s := s.deaf) hf
    | error stop =>
      cases stop with
      | raises r => rw [settle_raises hf]; exact settle_raises (s := s.deaf) hf
      | refuses q => rw [settle_refuses hf]; exact settle_refuses (s := s.deaf) hf

theorem exec_deaf (i : Instr) (s : State) : exec i s.deaf = deafOutcome (exec i s) := by
  cases i with
  | connect => exact settle_deaf (connectBody_deaf s)
  | displayTracked | displayFull => exact settle_deaf (displayBody_deaf _ _ _ s)
  | reservedOp => exact settle_deaf (accept_deaf _ _ s)
  | cmdColumnaddr | cmdPageaddr | cmdArg a => exact settle_deaf (sendCommand_deaf _ s)
  | data d => exact settle_deaf (sendData_deaf d s)

theorem fbtxStep_deaf (s : State) : fbtxStep s.deaf = deafOutcome (fbtxStep s) := by
  have same : fetch s.deaf = fetch s := rfl
  rw [fbtxStep, fbtxStep, same]
  split
  · exact settle_deaf rfl
  · exact settle_deaf rfl
  · exact exec_deaf _ s

/-- The host does not reach the receiver. -/
theorem hostBlind_deaf : HostBlind State.deaf :=
  ⟨fun _ => rfl, fun _ => rfl, fun _ => rfl, fun _ => rfl, fun _ _ => rfl, fun _ _ => rfl, fun _ _ => rfl⟩

theorem step_faulted {s : State} {f : FaultRecord} (hw : s.cfg.WellFormed) (hf : s.fault = some f) :
    step s = .fault f.reason := by
  have passes : s.cfg.firstFailure = none := hw
  simp [step, passes, hf]

/-- A step whose next move is the host's, once the move has its effect. -/
def afterMove (s : State) : MoveEffect → Host.Outcome State Fault Refusal
  | .hostActs body => settle s body
  | .fbtxRuns => fbtxStep s

theorem step_afterMove {s : State} {m : HostMove} {rest : List HostMove} (hw : s.cfg.WellFormed)
    (hf : s.fault = none) (hq : s.opreq = 0#2) (hh : s.host = m :: rest) :
    step s = afterMove { s with host := movesAfter s m rest } (hostMove m { s with host := movesAfter s m rest }) := by
  rw [step_host hw hf hq hh]
  cases hostMove m { s with host := movesAfter s m rest } <;> rfl

theorem afterMove_deaf (s : State) (e : MoveEffect) :
    afterMove s.deaf (e.map State.deaf) = deafOutcome (afterMove s e) := by
  cases e with
  | hostActs body => exact settle_deaf rfl
  | fbtxRuns => exact fbtxStep_deaf s

theorem step_deaf (s : State) : step s.deaf = deafOutcome (step s) := by
  by_cases hw : s.cfg.WellFormed
  case neg =>
    obtain ⟨k, hk⟩ := exists_firstFailure hw
    rw [step_of_firstFailure hk]
    exact step_of_firstFailure (s := s.deaf) hk
  case pos =>
    cases hf : s.fault with
    | some f => rw [step_faulted hw hf]; exact step_faulted (s := s.deaf) hw hf
    | none =>
      by_cases hq : s.opreq = 0#2
      case neg =>
        rw [step_of_request hw hf hq, step_of_request (s := s.deaf) hw hf hq]
        exact fbtxStep_deaf s
      case pos =>
        cases hh : s.host with
        | nil =>
          rw [step_of_noMoves hw hf hq hh, step_of_noMoves (s := s.deaf) hw hf hq hh]
          exact fbtxStep_deaf s
        | cons m rest =>
          rw [step_afterMove hw hf hq hh, ← afterMove_deaf, ← hostBlind_deaf.hostMove]
          exact step_afterMove (s := s.deaf) hw hf hq hh

theorem eq_of_deaf_eq {t u : State} (h : u.deaf = t.deaf) : u = { t with rx := u.rx } :=
  congrArg (fun v : State => { v with rx := u.rx }) h

/-- Outcomes that agree once the receiver is put outside its model differ in the receiver only. -/
theorem agree_of_deafOutcome_eq {o o' : Host.Outcome State Fault Refusal} (h : deafOutcome o' = deafOutcome o) :
    (∀ t, o = .next t → ∃ r, o' = .next { t with rx := r })
      ∧ (∀ f, o = .fault f → o' = .fault f) ∧ (∀ q, o = .refused q → o' = .refused q) := by
  refine ⟨fun t ho => ?next, fun f ho => ?fault, fun q ho => ?refused⟩
  case next =>
    subst ho
    cases o' with
    | next u => exact ⟨u.rx, congrArg _ (eq_of_deaf_eq (Host.Outcome.next.inj h))⟩
    | fault g | refused g => cases h
  case fault =>
    subst ho
    cases o' with
    | fault g => exact h
    | next u | refused g => cases h
  case refused =>
    subst ho
    cases o' with
    | refused g => exact h
    | next u | fault g => cases h

/-- Settles O38: two states that differ only in the receiver are the same once it is put outside its model, and a step
commutes with that. -/
theorem receiverIsNeverRead : Obligations.ReceiverIsNeverRead := by
  intro s r
  have agree : deafOutcome (step { s with rx := r }) = deafOutcome (step s) := by
    rw [← step_deaf, ← step_deaf]; rfl
  exact agree_of_deafOutcome_eq agree

end Sys2Proof.Machine
end

section
/-! PROOFS. Encodings (spec/30_encoding.md R70, R74 to R81): a frame is its `dc` bit and its byte, and what decodes is
what the encoder writes. -/

namespace Sys2Proof.Machine

/-- A frame is rebuilt from its two parts (spec/30_encoding.md R74). -/
theorem frame_of_parts (f : Frame) : Frame.of f.isData f.byte = f := by
  unfold Frame.of Frame.isData Frame.byte
  apply BitVec.eq_of_getLsbD_eq
  intro k hk
  rw [BitVec.getLsbD_append]
  by_cases low : k < 8
  · simp [low]
  · obtain rfl : k = 8 := by omega
    simp

/-- The two DISPLAY rows share one code, told apart by `MODE` (spec/30_encoding.md R70, R85). -/
theorem decodeRequest_display (mode : Mode) : decodeRequest mode 0b10#2 = .ok (Instr.displayOf mode) := by
  cases mode <;> rfl

theorem opReq_cases (code : OpReq) : code = 0b00#2 ∨ code = 0b01#2 ∨ code = 0b10#2 ∨ code = 0b11#2 := by
  revert code; decide

/-- A code that decodes is the one the encoder writes, for a row of this FBTX. -/
theorem encode_of_decodeRequest {cfg : Config} {code : OpReq} {i : Instr} (h : decodeRequest cfg.mode code = .ok i) :
    encode cfg i = .request code ∧ i.WellFormed cfg := by
  obtain rfl | rfl | rfl | rfl := opReq_cases code
  · exact absurd rfl (opreq_ne_of_decodes h)
  · cases h; exact ⟨rfl, rfl⟩
  · rw [decodeRequest_display] at h
    cases h
    cases hm : cfg.mode <;> simp [Instr.displayOf, encode, Instr.WellFormed, Instr.failure, hm]
  · cases h; exact ⟨rfl, rfl⟩

/-- A frame that decodes is the one the encoder writes, a command frame at the position it was read at. -/
theorem encode_of_decodeFrame {cfg : Config} {pos : FramePos} {f : Frame} {i : Instr}
    (h : decodeFrame cfg pos f = .ok i) :
    ∃ pos', encode cfg i = .frame pos' f ∧ (f.isData = false → pos' = pos) := by
  have parts := frame_of_parts f
  unfold decodeFrame at h
  cases hd : f.isData with
  | true =>
    rw [hd] at h parts
    cases h
    exact ⟨.argument, by rw [encode, parts], by simp⟩
  | false =>
    rw [hd] at h parts
    refine ⟨pos, ?_, fun _ => rfl⟩
    cases pos with
    | argument => cases h; rw [encode, parts]
    | opcode =>
      simp only [Bool.false_eq_true, if_false] at h
      split at h
      · next column => cases h; rw [encode, ← column, parts]
      · split at h
        · next page => cases h; rw [encode, ← page, parts]
        · cases h

theorem decode_encode {cfg : Config} {i : Instr} (apart : cfg.opColumnaddr ≠ cfg.opPageaddr)
    (h : i.WellFormed cfg) : decode cfg (encode cfg i) = .ok i := by
  cases i with
  | connect | reservedOp => rfl
  | displayTracked | displayFull =>
    simp only [Instr.WellFormed, Instr.failure, ite_eq_left_iff, reduceCtorEq, imp_false, not_not] at h
    simp only [encode, decode, decodeRequest_display, h, Instr.displayOf]
  | cmdColumnaddr => simp [encode, decode, decodeFrame, frame_isData, frame_byte]
  | cmdPageaddr => simp [encode, decode, decodeFrame, frame_isData, frame_byte, apart.symm]
  | cmdArg a => simp [encode, decode, decodeFrame, frame_isData, frame_byte]
  | data d => simp [encode, decode, decodeFrame, frame_isData, frame_byte]

/-- Settles O5: `decode_encode`, and the two converses by the branches of the decoder. -/
theorem decodeEncodeAgree : Obligations.DecodeEncodeAgree :=
  ⟨fun _ _ apart h => decode_encode apart h, fun _ _ _ h => encode_of_decodeRequest h,
    fun _ _ _ _ h => encode_of_decodeFrame h⟩

/-- Settles O4: each word is a closed term and decodes by computation. -/
theorem writtenWordsDecode : Obligations.WrittenWordsDecode :=
  ⟨rfl, rfl, rfl, rfl, rfl, rfl, rfl, rfl, rfl, rfl⟩

end Sys2Proof.Machine
end

section
/-! PROOFS. The request rows and the frame rows at their edges: where an operation is accepted, where it raises, and
where a row has no meaning (spec/30_encoding.md R71, R75, R76, R82, spec/10_state.md R21, spec/60_exceptions.md
R162). -/

namespace Sys2Proof.Machine

/-! Acceptance. -/

theorem accept_raises {q : Request} {first : Seq} {s : State} {r : Fault} (h : acceptFault s q = some r) :
    accept q first s = .error (.raises r) := by
  simp [accept, h]

theorem exec_connect_requested {s : State} (hq : s.opreq ≠ 0#2) :
    exec .connect s = settle s (accept (.op .connect) (.connect .k1) s) := by
  rw [← connectBody_requested hq]; rfl

/-- The two DISPLAY rows are one operation, which differs by mode in its first label. -/
theorem exec_displayOf (m : Mode) (s : State) :
    exec (Instr.displayOf m) s = settle s (displayBody m (Instr.displayOf m) (firstLabel m 0b10#2) s) := by
  cases m <;> rfl

theorem exec_display_requested {s : State} {m : Mode} (hq : s.opreq ≠ 0#2) (hm : s.cfg.mode = m) :
    exec (Instr.displayOf m) s = settle s (accept (.op .display) (firstLabel m 0b10#2) s) := by
  rw [exec_displayOf, displayBody, if_pos hm, inProgress_req hq]
  rfl

theorem settle_accepts {s : State} {o : HostOp} {first : Seq} (hf : s.fault = none) (hb : s.busy = false)
    (hc : s.connected = false ↔ o = .connect) :
    settle s (accept (.op o) first s) = .next { s with busy := true, seq := first, opreq := 0#2 } := by
  rw [accept_eq_ok.2 ⟨acceptFault_op_eq_none.2 ⟨hb, hc⟩, rfl⟩, settle_ok hf]

/-- Settles O7: each row is a request, and with `BUSY = 0` and the `CONNECTED` it needs no check of acceptance
raises. -/
theorem operationsAreAccepted : Obligations.OperationsAreAccepted := by
  refine ⟨fun s hf hq hb hc => ?connect, fun s hf hq hb hc hm => ?tracked, fun s hf hq hb hc hm => ?full⟩
  case connect =>
    rw [exec_connect_requested (by rw [hq]; decide)]
    exact settle_accepts hf hb (by simp [hc])
  case tracked =>
    exact (exec_display_requested (by rw [hq]; decide) hm).trans (settle_accepts hf hb (by simp [hc]))
  case full =>
    exact (exec_display_requested (by rw [hq]; decide) hm).trans (settle_accepts hf hb (by simp [hc]))

/-- Settles O8: `BUSY` is the first check of the reserved request, and the next one always raises. -/
theorem reservedOpRaises : Obligations.ReservedOpRaises := by
  have raises : ∀ {s : State} {r : Fault}, s.fault = none → acceptFault s .reserved = some r →
      exec .reservedOp s = .next (s.raise r) := by
    intro s r hf hr
    show settle s (accept .reserved .idle s) = _
    rw [accept_raises hr, settle_raises hf]
  intro s hf
  exact ⟨fun hb => raises hf (by simp [acceptFault, hb]), fun hb => raises hf (acceptFault_busy hb)⟩

/-! Where a row has no meaning. -/

theorem sendCommand_outside {s : State} (b : Byte) (h : ∀ m slot st, s.seq ≠ .cmd m slot st) :
    sendCommand b s = .error (.refuses .frameOutsideBracket) := by
  unfold sendCommand
  split
  · next m slot st e => exact absurd e (h m slot st)
  · rfl

theorem sendData_outside {s : State} (d : Byte) (h8 : s.seq ≠ .a8) (h4 : s.seq ≠ .b4) :
    sendData d s = .error (.refuses .frameOutsideBracket) := by
  unfold sendData
  split
  · next e => exact absurd e h8
  · next e => exact absurd e h4
  · rfl

theorem displayBody_otherMode {s : State} {m : Mode} (i : Instr) (first : Seq) (h : s.cfg.mode ≠ m) :
    displayBody m i first s = .error (.refuses .otherMode) := by
  rw [displayBody, if_neg h]

/-- Settles O14: each of the three bodies refuses there, and a refusal is the outcome. -/
theorem rowsWithNoMeaningHere : Obligations.RowsWithNoMeaningHere := by
  refine ⟨fun s i b hf hb outside => ?command, fun s d hf h8 h4 => ?data, fun s m hf hm => ?display⟩
  case command => rw [exec_command hb, sendCommand_outside b outside, settle_refuses hf]
  case data =>
    show settle s (sendData d s) = _
    rw [sendData_outside d h8 h4, settle_refuses hf]
  case display => rw [exec_displayOf, displayBody_otherMode _ _ hm, settle_refuses hf]

end Sys2Proof.Machine
end

section
/-! PROOFS. The command bracket as one run, the six bytes of a window (spec/30_encoding.md R75, R77, R78, R82), and the
host's pixel write (R83). -/

namespace Sys2Proof.Machine

/-! The command bracket. -/

theorem cooperating_of_cmd {s : State} (h : s.Inv) (hf : s.fault = none) (hq : s.opreq = 0#2) (hh : s.host = [])
    {m : Mode} {slot : CmdSlot} {st : BracketStep} (e : s.seq = .cmd m slot st) : Cooperating s where
  inv := h
  fault := hf
  opreq := hq
  host := hh
  conn := by
    obtain ho | ho := owner_cmd m slot st
    · exact ownerConn h (by rw [e, ho]) (by simp)
    · exact ownerConn h (by rw [e, ho]) (by simp)

/-- Within a bracket one step makes one statement, and the bracket's byte stays what it was. -/
theorem step_in_bracket {s : State} (h : Cooperating s) {m : Mode} {slot : CmdSlot} {st : BracketStep} {b : Byte}
    (e : s.seq = .cmd m slot st) (hb : slotByte m slot s = .ok b) :
    ∃ t, step s = .next t ∧ Segment s t [st.event b] ∧ t.seq = Seq.afterStatement m slot st
      ∧ slotByte m slot t = .ok b := by
  obtain ⟨t, ht, seg, seq, -⟩ := bracket_step h e hb
  exact ⟨t, ht, seg, seq, (slotByte_congr m slot seg.keeps seg.path.same.cfg).trans hb⟩

/-- A whole bracket is five steps. -/
theorem run_bracket {s : State} (h : Cooperating s) {m : Mode} {slot : CmdSlot} {b : Byte}
    (e : s.seq = .cmd m slot .deselect) (hb : slotByte m slot s = .ok b) :
    ∃ t, Host.Core.run Sys2Proof.core 5 s = .next t ∧ Segment s t (Event.sendcmd b)
      ∧ t.seq = Seq.afterBracket m slot := by
  obtain ⟨t1, r1, g1, e1, b1⟩ := step_in_bracket h e hb
  obtain ⟨t2, r2, g2, e2, b2⟩ := step_in_bracket g1.path.quiet e1 b1
  obtain ⟨t3, r3, g3, e3, b3⟩ := step_in_bracket g2.path.quiet e2 b2
  obtain ⟨t4, r4, g4, e4, b4⟩ := step_in_bracket g3.path.quiet e3 b3
  obtain ⟨t5, r5, g5, e5, -⟩ := step_in_bracket g4.path.quiet e4 b4
  refine ⟨t5, ?_, (((g1.trans g2).trans g3).trans g4).trans g5, e5⟩
  rw [run_one r1, run_one r2, run_one r3, run_one r4, run_one r5]
  rfl

/-- The bus of a state that meets the invariant is what the events added since an earlier one make of it. -/
theorem bus_after_events {s t : State} (hs : s.Inv) (ht : t.Inv) {es : List Event} (h : t.trace = s.trace ++ es) :
    t.bus = es.foldl BusView.after s.bus := by
  rw [← ht.busTraced, h, ← hs.busTraced, busAfter, List.foldl_append, busAfter]

theorem controllerStream_after_events {s : State} (hs : s.Inv) (es : List Event) :
    controllerStream (s.trace ++ es) = controllerStream s.trace ++ streamFrom s.bus es := by
  rw [← hs.busTraced, controllerStream, streamFrom_append]
  rfl

/-- Settles O21: `run_bracket` gives the five events, from which the stream and the levels follow. -/
theorem commandBracketSendsOneFrame : Obligations.CommandBracketSendsOneFrame := by
  intro s m slot b h hf hq hh e hb
  obtain ⟨t, run, seg, seq⟩ := run_bracket (cooperating_of_cmd h hf hq hh e) e hb
  have bus : t.bus = { s.bus with csN := .known .high, dc := .known .low } :=
    bus_after_events h seg.path.quiet.inv seg.trace
  have sent : streamFrom s.bus (Event.sendcmd b) = [Frame.of false b] := by
    simpa [streamFrom] using stream_sendcmd s.bus b []
  refine ⟨t, run, seg.trace, ?_, congrArg BusView.csN bus, congrArg BusView.dc bus, seq⟩
  rw [seg.trace, controllerStream_after_events h, sent]

/-! The bytes of a window. -/

/-- Settles O46: in Mode A the bounds hold a window of the display; in Mode B the bytes are the whole frame's. -/
theorem windowBytesInRange : Obligations.WindowBytesInRange := by
  intro s m slot st h e
  cases m with
  | tracked =>
    obtain ⟨c0, c1, p0, p1, hc0, hc1, hp0, hp1, columns, width, pages, height⟩ := regs_cmd h e rfl
    refine ⟨c0, c1, p0, p1, by rw [slotByte, hc0]; rfl, by rw [slotByte, hc1]; rfl, by rw [slotByte, hp0]; rfl,
      by rw [slotByte, hp1]; rfl, rfl, rfl, columns, by omega, pages, by omega, by simp⟩
  | full =>
    have mode := cmd_mode h e
    obtain ⟨width, height⟩ := fullWindow_bounds h.configOk mode
    obtain ⟨-, -, -, -, -, -, geom, -⟩ := wf_facts h.configOk
    have last := geom mode
    exact ⟨0#8, _, 0#8, _, rfl, rfl, rfl, rfl, rfl, rfl, Nat.zero_le _, width.le, Nat.zero_le _, height.le,
      fun _ => ⟨rfl, width, rfl, by omega⟩⟩

/-! The pixel write. -/

/-- Setting a pixel sets its bit and keeps the other seven (spec/20_memory.md R54). -/
theorem getLsbD_setPixel (u : Byte) (bit : Nat) (v : Bool) {k : Nat} (hk : k < 8) :
    (setPixel u bit v).getLsbD k = if k = bit then v else u.getLsbD k := by
  have one_bit : (1#8 <<< bit).getLsbD k = decide (k = bit) := by
    rw [← BitVec.twoPow_eq, BitVec.getLsbD_twoPow]
    by_cases h : k = bit
    · subst h; simp [hk]
    · simp [h, Ne.symm h]
  cases v
  case false =>
    rw [setPixel, if_neg (by decide), BitVec.getLsbD_and, BitVec.getLsbD_not, one_bit]
    by_cases h : k = bit
    · simp [h]
    · simp [h, hk]
  case true =>
    rw [setPixel, if_pos rfl, BitVec.getLsbD_or, one_bit]
    by_cases h : k = bit
    · simp [h]
    · simp [h]

/-- A pixel of the display lies in the framebuffer (spec/00_scope.md R11). -/
theorem pixelIndex_lt_fbSize {cfg : Config} (h : cfg.WellFormed) {x y : Nat} (hx : x < cfg.w) (hy : y < cfg.h) :
    cfg.pixelIndex x y < cfg.fbSize := by
  obtain ⟨-, -, -, -, height, -⟩ := wf_facts h
  exact idx_lt_fbSize h (by omega) hx

/-- At rest the pixel write is a read and a write of the pixel's byte (spec/30_encoding.md R83). -/
theorem step_pix {s : State} {x y : Nat} {v : Bool} {u : Byte} {rest : List HostMove} (hw : s.cfg.WellFormed)
    (hf : s.fault = none) (hq : s.opreq = 0#2) (hb : s.busy = false) (hh : s.host = .pix x y v :: rest)
    (inside : s.cfg.pixelIndex x y < s.cfg.fbSize) (hu : s.fb.read (s.cfg.pixelIndex x y) = some u) :
    step s = .next { s with
      fb := s.fb.write (s.cfg.pixelIndex x y) (setPixel u (y % 8) v), host := rest } := by
  have reads : fbRead { s with host := rest } (s.cfg.pixelIndex x y) = .ok u := fbRead_eq_ok.2 ⟨inside, hu⟩
  have writes := fbWrite_eq_ok (s := { s with host := rest }) (v := setPixel u (y % 8) v) |>.2 ⟨hb, inside, rfl⟩
  have body : hostMove (.pix x y v) { s with host := rest }
      = .hostActs (.ok { s with
          fb := s.fb.write (s.cfg.pixelIndex x y) (setPixel u (y % 8) v), host := rest }) := by
    show MoveEffect.hostActs (if s.busy = true then _ else _) = _
    rw [if_neg (by simp [hb]), reads, Res.ok_bind, writes]
  have taken : movesAfter s (.pix x y v) rest = rest := rfl
  rw [step_host hw hf hq hh, taken, body]
  exact settle_ok (s := { s with host := rest }) hf

/-- Settles O48: `step_pix` writes the one byte, and `getLsbD_setPixel` says which of its bits changed. -/
theorem pixelWriteSetsOneBit : Obligations.PixelWriteSetsOneBit := by
  intro s x y v u rest hw hf hq hb hh hx hy hu
  exact ⟨_, setPixel u (y % 8) v, step_pix hw hf hq hb hh (pixelIndex_lt_fbSize hw hx hy) hu,
    Memory.read_write_same _ _ _, fun k hk => getLsbD_setPixel u (y % 8) v hk,
    fun a ha => Memory.read_write_other _ ha _, rfl⟩

end Sys2Proof.Machine
end

section
/-! PROOFS. A host program as one run: CONNECT from its request to rest, DISPLAY from its request to rest in either
mode, and each of them under the host's moves (spec/30_encoding.md R83, spec/70_reset_and_hazards.md R182, R192). -/

namespace Sys2Proof.Machine

/-! CONNECT from its request to rest. -/

/-- The labels of CONNECT in their order (spec/41_connect.md R121). -/
def connectLabels : List ConnectStep := [.k1, .k2, .k3, .k4, .k5, .k6, .k7, .k8, .k9, .k10, .k11]

/-- The line of CONNECT at label `k`, for a machine that stands there; FBTX makes no line at another label. -/
def connectAt (s : State) (k : ConnectStep) : Res State :=
  if s.seq = .connect k then connectStep k s else .error (.refuses .otherMode)

theorem connectAt_eq_ok {s t : State} {k : ConnectStep} :
    connectAt s k = .ok t ↔ s.seq = .connect k ∧ connectStep k s = .ok t := by
  unfold connectAt
  split
  · next h => simp [h]
  · next h => simp [h]

/-- A run makes the lines of CONNECT one after the other. -/
theorem run_connectAt (ks : List ConnectStep) : ∀ {s t : State}, s.cfg.WellFormed → s.fault = none →
    s.opreq = 0#2 → s.host = [] → ks.foldlM connectAt s = .ok t →
    Host.Core.run Sys2Proof.core ks.length s = .next t := by
  induction ks with
  | nil => intro s t _ _ _ _ h; cases h; rfl
  | cons k ks ih =>
    intro s t hw hf hq hh h
    rw [List.foldlM_cons] at h
    obtain ⟨u, hu, h⟩ := Res.bind_eq_ok.1 h
    obtain ⟨hs, hk⟩ := connectAt_eq_ok.1 hu
    have made : step s = .next u := by
      rw [step_of_noMoves hw hf hq hh, fbtx_connect hq hs, hk, settle_ok hf]
    obtain ⟨ev, hu⟩ := connectStep_inv hk
    have ucfg : u.cfg = s.cfg := by rw [hu]
    rw [List.length_cons, run_one made]
    exact ih (ucfg ▸ hw) (by rw [hu]; exact hf) (by rw [hu]; exact hq) (by rw [hu]; exact hh) h

/-- A CONNECT request at rest is accepted by the next step (spec/30_encoding.md R71). -/
theorem step_connectRequested {s : State} (hw : s.cfg.WellFormed) (hf : s.fault = none) (hb : s.busy = false)
    (hc : s.connected = false) (hq : s.opreq = 0b01#2) :
    step s = .next { s with busy := true, seq := .connect .k1, opreq := 0#2 } := by
  have present : s.opreq ≠ 0#2 := by rw [hq]; decide
  have decodes : decodeRequest s.cfg.mode s.opreq = .ok .connect := by rw [hq]; rfl
  rw [step_of_request hw hf present, fbtxStep_of_fetch (fetch_request decodes), exec_connect_requested present]
  exact settle_accepts hf hb (by simp [hc])

/-- The state CONNECT leaves (spec/41_connect.md R122, R125). -/
def State.afterConnect (s : State) : State :=
  { s with
    dirCs := .output, dirDc := .output, dirRst := .output, busBegun := true,
    busClkdiv := .known s.cfg.clkdiv, rstN := .known .high, result := .holds 1#1, connected := true,
    busy := false, seq := .idle, opreq := 0#2, trace := s.trace ++ connectTrace s.cfg }

/-- CONNECT from its request to rest: its acceptance and its eleven lines. -/
theorem connect_run {s : State} (hw : s.cfg.WellFormed) (hf : s.fault = none) (hb : s.busy = false)
    (hc : s.connected = false) (hq : s.opreq = 0b01#2) (hh : s.host = []) :
    Host.Core.run Sys2Proof.core 12 s = .next s.afterConnect := by
  have lines : connectLabels.foldlM connectAt { s with busy := true, seq := .connect .k1, opreq := 0#2 }
      = .ok s.afterConnect := by
    simp [connectLabels, connectAt, connectStep, configureLine, waitMs, line, State.dir, State.setOutput,
      State.setLvl, State.emit, State.goto, complete, State.afterConnect, connectTrace]
  rw [run_one (step_connectRequested hw hf hb hc hq)]
  exact run_connectAt connectLabels hw hf rfl hh lines

/-! DISPLAY from its request to rest. -/

theorem dirtyRect_of_boundingBox {s : State} {c0 c1 p0 p1 : Nat}
    (h : BoundingBox (fun p c => p < s.cfg.np ∧ c < s.cfg.w ∧ s.changed p c) c0 c1 p0 p1) :
    s.dirtyRect c0 c1 p0 p1 := by
  obtain ⟨inside, ⟨x1, hp0, hx1, top⟩, ⟨x2, hp1, hx2, bottom⟩, ⟨x3, hx3, hc0, left⟩, ⟨x4, hx4, hc1, right⟩⟩ := h
  exact ⟨fun p c hp hc changed => inside p c ⟨hp, hc, changed⟩, ⟨x1, hx1, top⟩, ⟨x2, hx2, bottom⟩, ⟨x3, hx3, left⟩,
    ⟨x4, hx4, right⟩, hp0, hp1, hc0, hc1⟩

/-- A Mode A DISPLAY scans the frame, and then either completes at once or sends the window of the changed cells
(spec/42_display_tracked.md R130, R133). -/
theorem tracked_display_completes {s : State} (h : s.Inv) (hr : s.displayRequested) (hm : s.cfg.mode = .tracked) :
    ∃ t, DisplayRun s t (idleTrace s.cfg)
      ∨ ∃ c0 c1 p0 p1 : Nat, DisplayRun s t (trackedTrace s.cfg s.fb c0 c1 p0 p1) := by
  have first : s.displayAccepted.seq = .a1 := by simp [State.displayAccepted, firstLabel, hm]
  obtain ⟨u, scanned⟩ := scan_run (displayAccepted_cooperates h hr) hm first
  obtain ⟨atA4, -, -⟩ | ⟨-, c0, c1, p0, p1, -, box⟩ := scanned.rect
  · have done : displayStep u = .ok (complete .display u) := by rw [displayStep, atA4]
    have path := scanned.path.trans (disp_one scanned.path.quiet (by rw [atA4]; exact .inl rfl) done)
    have rest : (complete .display u).atRest := ⟨path.quiet.fault, rfl, rfl, path.quiet.opreq⟩
    have trace : (complete .display u).trace = s.trace ++ idleTrace s.cfg := by
      rw [complete_trace, scanned.trace, idleTrace, ← List.append_assoc]; rfl
    exact ⟨_, .inl (.of_path h hr path rest trace)⟩
  · obtain ⟨t, run, -⟩ := tracked_display_run h hr hm (dirtyRect_of_boundingBox box)
    exact ⟨t, .inr ⟨_, _, _, _, run⟩⟩

/-- DISPLAY always comes to its end, with `Done(DISPLAY)` last (spec/30_encoding.md R72). -/
theorem display_completes {s : State} (h : s.Inv) (hr : s.displayRequested) :
    ∃ t es, DisplayRun s t (es ++ [.done .display]) := by
  cases hm : s.cfg.mode with
  | tracked =>
    obtain ⟨t, run | ⟨c0, c1, p0, p1, run⟩⟩ := tracked_display_completes h hr hm
    · exact ⟨t, _, run⟩
    · exact ⟨t, _, run⟩
  | full =>
    obtain ⟨t, run⟩ := full_display_run h hr hm
    exact ⟨t, _, run⟩

/-! Under the host's moves. -/

/-- An invariant of every step is one of every run. -/
theorem inv_of_reaches {s t : State} (h : s.Inv) : Reaches s t → t.Inv := by
  rintro ⟨n, run⟩
  induction n generalizing s with
  | zero => cases run; exact h
  | succ n ih =>
    simp only [Host.Core.run] at run
    split at run
    · next u hu => exact ih (invariantKeptByEveryStep s u h hu) run
    · cases run
    · cases run

/-- The host presents a code and waits: the operation runs as it does with no host move pending. -/
theorem host_operation {s t : State} {code : OpReq} {first : Seq} (h : s.Inv) (hf : s.fault = none)
    (hq : s.opreq = 0#2) (hh : s.host = []) (request : code ≠ 0#2)
    (accepted : step { s with opreq := code } = .next { s with busy := true, seq := first, opreq := 0#2 })
    (run : Reaches { s with opreq := code } t) (rest : t.atRest) (moves : List HostMove) :
    Reaches { s with host := .present code :: .wait :: moves } { t with host := moves } := by
  have presented : step { s with host := .present code :: .wait :: moves }
      = .next { s with opreq := code, host := .wait :: moves } :=
    present_step (s := { s with host := .present code :: .wait :: moves }) (inv_congr h rfl) hf hq rfl
  have taken : step { s with opreq := code, host := .wait :: moves }
      = .next { s with busy := true, seq := first, opreq := 0#2, host := .wait :: moves } := by
    rw [step_of_request (s := { s with opreq := code }) h.configOk hf request] at accepted
    rw [step_of_request (s := { s with opreq := code, host := .wait :: moves }) h.configOk hf request]
    exact hostList_fbtx (.wait :: moves) accepted
  have requested_inv : ({ s with opreq := code } : State).Inv := inv_congr h rfl
  obtain ⟨n, run⟩ := run
  cases n with
  | zero =>
    cases run
    obtain ⟨-, -, -, empty⟩ := rest
    exact absurd empty request
  | succ n =>
    rw [run_one accepted] at run
    exact reaches_trans (reaches_one presented) (reaches_trans (reaches_one taken)
      (under_wait moves n (invariantKeptByEveryStep _ _ requested_inv accepted) hf rfl hh run rest))

/-- At rest with its moves made and a completion last in the trace, a run is over. -/
theorem runOver_of_atRest {s : State} (h : s.atRest) (hh : s.host = []) {es : List Event} {o : HostOp}
    (ht : s.trace = es ++ [.done o]) : s.runOver = true := by
  obtain ⟨hf, -, hb, hq⟩ := h
  simp [State.runOver, hf, hb, hq, hh, ht, Event.isDone]

theorem runOver_of_faulted {s : State} {f : FaultRecord} (h : s.fault = some f) : s.runOver = false := by
  simp [State.runOver, h]

/-- A DISPLAY request before CONNECT has completed raises `NOT_CONNECTED` (spec/60_exceptions.md R162). -/
theorem step_display_notConnected {s : State} (hw : s.cfg.WellFormed) (hf : s.fault = none) (hb : s.busy = false)
    (hc : s.connected = false) (hq : s.opreq = 0b10#2) : step s = .next (s.raise .notConnected) := by
  have present : s.opreq ≠ 0#2 := by rw [hq]; decide
  have decodes : decodeRequest s.cfg.mode s.opreq = .ok (Instr.displayOf s.cfg.mode) := by
    rw [hq, decodeRequest_display]
  have raised : acceptFault s (.op .display) = some .notConnected := by simp [acceptFault, hb, hc]
  rw [step_of_request hw hf present, fbtxStep_of_fetch (fetch_request decodes), exec_display_requested present rfl,
    accept_raises raised, settle_raises hf]

/-- The host program `CONNECT`, `DISPLAY` from block reset. -/
theorem connect_display_program {cfg : Config} (frame draw : Nat → Byte) (hw : cfg.WellFormed) :
    ∃ t es, Reaches { State.blockReset cfg frame draw with host := HostStmt.program [.connect, .display] } t
      ∧ t.runOver = true ∧ t.result = .holds 1#1 ∧ t.trace = connectTrace cfg ++ es ++ [.done .display] := by
  let s := State.blockReset cfg frame draw
  let requested : State := { s with opreq := 0b01#2 }
  let connected := requested.afterConnect
  have inv_s : s.Inv := blockReset_inv frame draw hw
  have inv_requested : requested.Inv := inv_congr inv_s rfl
  have connects : Reaches requested connected := ⟨12, connect_run hw rfl rfl rfl rfl rfl⟩
  have first : Reaches { s with host := HostStmt.program [.connect, .display] }
      { connected with host := [.present 0b10#2, .wait] } :=
    host_operation (code := 0b01#2) inv_s rfl rfl rfl (by decide) (step_connectRequested hw rfl rfl rfl rfl) connects
      ⟨rfl, rfl, rfl, rfl⟩ _
  have inv_connected : connected.Inv := inv_of_reaches inv_requested connects
  have inv_display : ({ connected with opreq := 0b10#2 } : State).Inv := inv_congr inv_connected rfl
  have hr : ({ connected with opreq := 0b10#2 } : State).displayRequested := ⟨rfl, rfl, rfl, rfl, rfl⟩
  obtain ⟨t, es, display⟩ := display_completes inv_display hr
  have second : Reaches { connected with host := [.present 0b10#2, .wait] } { t with host := [] } :=
    host_operation (code := 0b10#2) inv_connected rfl rfl rfl (by decide) (step_displayRequested inv_display hr)
      display.reach display.rest []
  have trace : t.trace = connectTrace cfg ++ es ++ [.done .display] := by
    rw [display.trace, List.append_assoc]; rfl
  exact ⟨_, es, reaches_trans first second, runOver_of_atRest (s := { t with host := [] }) display.rest rfl trace,
    display.same.result, trace⟩

/-- The host program `DISPLAY`, `CONNECT` from block reset. -/
theorem display_connect_program {cfg : Config} (frame draw : Nat → Byte) (hw : cfg.WellFormed) :
    ∃ t, Reaches { State.blockReset cfg frame draw with host := HostStmt.program [.display, .connect] } t
      ∧ t.fault = some ⟨.notConnected, .idle⟩ ∧ t.trace = [] ∧ t.busy = false ∧ t.connected = false
      ∧ t.runOver = false ∧ step t = .fault .notConnected := by
  let s : State := { State.blockReset cfg frame draw with host := HostStmt.program [.display, .connect] }
  let requested : State := { s with opreq := 0b10#2, host := .wait :: HostStmt.program [.connect] }
  have presented : step s = .next requested :=
    present_step (inv_congr (blockReset_inv frame draw hw) rfl) rfl rfl rfl
  have raised : step requested = .next (requested.raise .notConnected) :=
    step_display_notConnected hw rfl rfl rfl rfl
  exact ⟨_, reaches_trans (reaches_one presented) (reaches_one raised), rfl, rfl, rfl, rfl, runOver_of_faulted rfl,
    step_faulted (s := requested.raise .notConnected) hw rfl⟩

/-- Settles O59: the two programs, each as a run from block reset. -/
theorem hostProgramsRun : Obligations.HostProgramsRun := fun _ frame draw hw =>
  ⟨connect_display_program frame draw hw, display_connect_program frame draw hw⟩

end Sys2Proof.Machine
end

section
/-! PROOFS. The bus primitives as the rows meet them (spec/40_bus_primitives.md R100 to R104): the line write and its
guard, the statements of the command bracket, the transfer of each data run with the loop control after it, the
statements of the data bracket, and what the frame rows leave alone. -/

namespace Sys2Proof.Machine

/-! The line write. -/

theorem State.emit_lvl (s : State) (e : Event) (l : Line) : (s.emit e).lvl l = s.lvl l := by cases l <;> rfl

theorem State.setLvl_lvl (s : State) (l l' : Line) (v : Level) :
    (s.setLvl l v).lvl l' = if l' = l then .known v else s.lvl l' := by
  cases l <;> cases l' <;> rfl

/-- Settles O12: `line` drives the level of its own line and no other, or raises. -/
theorem lineWrite : Obligations.LineWrite := by
  intro l v s
  refine ⟨fun hd => ⟨_, line_ok hd, ?own, fun l' hne => ?others, by simp, ?frame⟩, line_raises⟩
  case own => rw [State.emit_lvl, State.setLvl_lvl, if_pos rfl]
  case others => rw [State.emit_lvl, State.setLvl_lvl, if_neg hne]
  case frame => cases l <;> rfl

/-! The command bracket. -/

/-- Inside a bracket a command frame row makes the statement at which the sequencer stands. -/
theorem exec_bracket {s : State} {i : Instr} {b : Byte} {m : Mode} {slot : CmdSlot} {st : BracketStep}
    (hb : i.commandByte s.cfg = some b) (e : s.seq = .cmd m slot st) :
    exec i s = settle s (do .ok ((← bracketStatement st b s).goto (Seq.afterStatement m slot st))) := by
  rw [exec_command hb, sendCommand, e]

theorem exec_bracket_ok {s t : State} {i : Instr} {b : Byte} {m : Mode} {slot : CmdSlot} {st : BracketStep}
    (hf : s.fault = none) (hb : i.commandByte s.cfg = some b) (e : s.seq = .cmd m slot st)
    (h : bracketStatement st b s = .ok t) : exec i s = .next (t.goto (Seq.afterStatement m slot st)) := by
  rw [exec_bracket hb e, h, Res.ok_bind, settle_ok hf]

theorem exec_bracket_raises {s : State} {i : Instr} {b : Byte} {m : Mode} {slot : CmdSlot} {st : BracketStep}
    {r : Fault} (hf : s.fault = none) (hb : i.commandByte s.cfg = some b) (e : s.seq = .cmd m slot st)
    (h : bracketStatement st b s = .error (.raises r)) : exec i s = .next (s.raise r) := by
  rw [exec_bracket hb e, h, Res.error_bind, settle_raises hf]

/-- Settles O20: each statement of the bracket is a line write on an output or a transfer on a begun bus. -/
theorem commandBracketStatements : Obligations.CommandBracketStatements := by
  intro s i b m slot st hf hb e hcs hdc hbegun
  cases st with
  | deselect => exact exec_bracket_ok hf hb e (line_ok (l := .cs) hcs)
  | command => exact exec_bracket_ok hf hb e (line_ok (l := .dc) hdc)
  | select => exact exec_bracket_ok hf hb e (line_ok (l := .cs) hcs)
  | transfer => exact exec_bracket_ok hf hb e (xfer_ok hbegun)
  | release => exact exec_bracket_ok hf hb e (line_ok (l := .cs) hcs)

/-! The data row. -/

theorem exec_data (d : Byte) (s : State) : exec (.data d) s = settle s (sendData d s) := rfl

/-- In the Mode A run the data row is a transfer and the step to the next column. -/
theorem sendData_tracked {s : State} (d : Byte) (e : s.seq = .a8) :
    sendData d s = (do nextColumn (← xfer d s)) := by
  rw [sendData, e]

/-- In the Mode B run the data row is a transfer and the step to the yield or the next byte. -/
theorem sendData_full {s : State} (d : Byte) (e : s.seq = .b4) :
    sendData d s = (do afterByte (← xfer d s)) := by
  rw [sendData, e]

/-- Settles O13: the first statement of each row is the guarded primitive, whose guard fails. -/
theorem guardsOfTheBus : Obligations.GuardsOfTheBus := by
  intro s i b d m slot hf
  refine ⟨fun hb => ⟨fun hcs at_cs => ?select, fun hdc e => ?dataMode, fun hbegun e => ?transfer⟩,
    fun hbegun at_data => ?data⟩
  case select =>
    have raises (v : Level) : line .cs v s = .error (.raises .lineNotOutput) := line_raises (by simp [State.dir, hcs])
    obtain e | e | e := at_cs
    · exact exec_bracket_raises hf hb e (raises .high)
    · exact exec_bracket_raises hf hb e (raises .low)
    · exact exec_bracket_raises hf hb e (raises .high)
  case dataMode => exact exec_bracket_raises hf hb e (line_raises (by simp [State.dir, hdc]))
  case transfer => exact exec_bracket_raises hf hb e (xfer_raises hbegun)
  case data =>
    obtain e | e := at_data
    · rw [exec_data, sendData_tracked d e, xfer_raises hbegun, Res.error_bind, settle_raises hf]
    · rw [exec_data, sendData_full d e, xfer_raises hbegun, Res.error_bind, settle_raises hf]

/-- The next column of the Mode A run, in any state. -/
theorem nextColumn_eq {s : State} {c : BitVec 9} {maxC : Byte} (hc : s.c = .holds c) (hm : s.maxC = .holds maxC) :
    nextColumn s = .ok { s with
      c := .holds (c + 1#9), seq := if (c + 1#9).toNat ≤ maxC.toNat then .a8 else .a9 } := by
  rw [nextColumn, hc, Reg.get_holds, Res.ok_bind, columnTest_set hm]

/-- The loop control after a transfer of the Mode B run, in any state. -/
theorem afterByte_eq {s : State} {i : BitVec 17} (hi : s.i = .holds i) :
    afterByte s = .ok (
      if (i.toNat + 1) % s.cfg.yieldPeriodB = 0 then { s with seq := .b4Yield }
      else { s with
        i := .holds (i + 1#17)
        seq := if (i + 1#17).toNat < s.cfg.fbSize then .b4 else .dclose .full .deselect }) := by
  have reads : s.i.get = .ok i := Reg.get_eq_ok.2 hi
  rw [afterByte, reads, Res.ok_bind, nextByte_eq hi]
  split <;> rfl

/-- Settles O22: the transfer, then `nextColumn_eq`. -/
theorem dataFrameInTrackedRun : Obligations.DataFrameInTrackedRun := by
  intro s d c maxC hf e hbegun hc hm
  rw [exec_data, sendData_tracked d e, xfer_ok hbegun, Res.ok_bind,
    nextColumn_eq (s := s.sent d) hc hm, settle_ok hf]
  rfl

/-- Settles O23: the transfer, then `afterByte_eq`. -/
theorem dataFrameInFullRun : Obligations.DataFrameInFullRun := by
  intro s d i hf e hbegun hi
  rw [exec_data, sendData_full d e, xfer_ok hbegun, Res.ok_bind, afterByte_eq (s := s.sent d) hi, settle_ok hf]
  rfl

/-! The statements of DISPLAY around the data run. -/

/-- A DISPLAY in progress whose next statement completes. -/
theorem exec_display_ok {s t : State} {m : Mode} {q : Seq} (hf : s.fault = none) (hq : s.opreq = 0#2)
    (hm : s.cfg.mode = m) (e : s.seq = q) (ho : q.owner = some (Instr.displayOf m))
    (h : displayStep s = .ok t) : exec (Instr.displayOf m) s = .next t := by
  rw [exec_display hm hq (e ▸ ho), h, settle_ok hf]

theorem owner_dopen (m : Mode) (st : OpenStep) : (Seq.dopen m st).owner = some (Instr.displayOf m) := by
  cases m <;> rfl

theorem owner_dclose (m : Mode) (st : CloseStep) : (Seq.dclose m st).owner = some (Instr.displayOf m) := by
  cases m <;> rfl

theorem displayStep_dopen {s : State} {m : Mode} {st : OpenStep} (e : s.seq = .dopen m st) :
    displayStep s = dopenStep m st s := by
  rw [displayStep, e]

theorem displayStep_dclose {s : State} {m : Mode} {st : CloseStep} (e : s.seq = .dclose m st) :
    displayStep s = dcloseStep m st s := by
  rw [displayStep, e]

/-- The entry of the Mode A run goes to the first cell of the window it holds (spec/42_display_tracked.md R137). -/
theorem enterTrackedRun_window {s : State} {c0 c1 p0 p1 : Byte} (w : s.windowHeld c0 c1 p0 p1) :
    enterTrackedRun s = .ok { s with p := .holds (p0.setWidth 9), c := .holds (c0.setWidth 9), seq := .a8 } := by
  have held := w
  obtain ⟨-, -, minP, -, -, -, pages, -⟩ := held
  have inside : (p0.setWidth 9).toNat ≤ p1.toNat := by
    rw [BitVec.toNat_setWidth_of_le (by decide)]; exact pages
  rw [enterTrackedRun_eq minP, pageTest_spec (s := { s with p := .holds (p0.setWidth 9) }) rfl w, if_pos inside]

/-- The entry of the Mode B run goes to byte 0 (spec/43_display_full.md R153). -/
theorem enterFullRun_eq {s : State} (h : 0 < s.cfg.fbSize) :
    enterFullRun s = .ok { s with i := .holds 0#17, seq := .b4 } := by
  rw [enterFullRun, byteTest, Reg.get_holds, Res.ok_bind, if_pos (by simpa using h)]
  rfl

/-- Settles O25: each statement is a line write on an output; after the last one of DOPEN stands the entry of the
mode's data run. -/
theorem dataBracketStatements : Obligations.DataBracketStatements := by
  intro s m hf hq hm hcs hdc
  have cs (v : Level) := line_ok (l := .cs) (v := v) hcs
  have dc (v : Level) := line_ok (l := .dc) (v := v) hdc
  have opens {t : State} {st : OpenStep} (e : s.seq = .dopen m st) (h : dopenStep m st s = .ok t) :
      exec (Instr.displayOf m) s = .next t :=
    exec_display_ok hf hq hm e (owner_dopen m st) (displayStep_dopen e ▸ h)
  have closes {t : State} {st : CloseStep} (e : s.seq = .dclose m st) (h : dcloseStep m st s = .ok t) :
      exec (Instr.displayOf m) s = .next t :=
    exec_display_ok hf hq hm e (owner_dclose m st) (displayStep_dclose e ▸ h)
  refine ⟨fun e => opens e ?deselect, fun e => opens e ?dataMode, fun c0 c1 p0 p1 e tracked w => opens e ?tracked,
    fun e full pos => opens e ?full, fun e => closes e ?close, fun e => closes e ?dcLow⟩
  case deselect => rw [dopenStep, cs]; rfl
  case dataMode => rw [dopenStep, dc]; rfl
  case tracked =>
    subst tracked
    rw [dopenStep, cs, Res.ok_bind]
    exact enterTrackedRun_window (s := (s.setLvl .cs .low).emit (.lvl .cs .low)) w
  case full =>
    subst full
    rw [dopenStep, cs, Res.ok_bind]
    exact enterFullRun_eq (s := (s.setLvl .cs .low).emit (.lvl .cs .low)) pos
  case close => rw [dcloseStep, cs]; rfl
  case dcLow => rw [dcloseStep, dc]; rfl

/-- The next page of the Mode A run, in any state that holds a window. -/
theorem nextPage_eq {s : State} {p : BitVec 9} {c0 c1 p0 p1 : Byte} (hp : s.p = .holds p)
    (w : s.windowHeld c0 c1 p0 p1) :
    nextPage s = .ok (
      if (p + 1#9).toNat ≤ p1.toNat then { s with
        p := .holds (p + 1#9), c := .holds (c0.setWidth 9), seq := .a8 }
      else { s with p := .holds (p + 1#9), seq := .dclose .tracked .deselect }) := by
  rw [nextPage, hp, Reg.get_holds, Res.ok_bind, pageTest_spec (s := { s with p := .holds (p + 1#9) }) rfl w]

/-- Settles O28: the yield, then `nextPage_eq` or `nextByte_eq`. -/
theorem yieldsOfTheDataRuns : Obligations.YieldsOfTheDataRuns := by
  refine ⟨fun s p c0 c1 p0 p1 hf hq hm e w hp => ?tracked, fun s i hf hq hm e hi => ?full⟩
  case tracked =>
    refine exec_display_ok (m := .tracked) hf hq hm e rfl ?_
    rw [displayStep, e]
    exact nextPage_eq (s := s.emit .yield) hp w
  case full =>
    refine exec_display_ok (m := .full) hf hq hm e rfl ?_
    rw [displayStep, e]
    exact nextByte_eq (s := s.emit .yield) hi

/-! What the frame rows leave alone. -/

/-- Settles O33: a row that completes did what `sendCommand_inv` or `sendData_inv` says, and one that raises set
`FAULT`; RESERVED_OP always raises. -/
theorem frameOfTheOtherRows : Obligations.FrameOfTheOtherRows := by
  refine ⟨fun s t i b hb h => ?command, fun s t d h => ?data, fun s t h => ?reserved⟩
  case command =>
    rw [exec_command hb] at h
    obtain ⟨-, ok | ⟨r, -, rfl⟩⟩ := settle_eq_next.1 h
    · obtain ⟨m, slot, st, -, ht⟩ := sendCommand_inv ok
      exact ⟨fun a => by rw [ht], fun a => by rw [ht], by rw [ht]⟩
    · exact ⟨fun _ => rfl, fun _ => rfl, rfl⟩
  case data =>
    obtain ⟨-, ok | ⟨r, -, rfl⟩⟩ := settle_eq_next.1 h
    · obtain ⟨e, c, q, rfl⟩ | ⟨e, i, q, rfl⟩ := sendData_inv ok
      · exact ⟨fun _ => rfl, fun _ => rfl, fun hne => absurd e hne, fun _ => rfl, rfl⟩
      · exact ⟨fun _ => rfl, fun _ => rfl, fun _ => rfl, fun hne => absurd e hne, rfl⟩
    · exact ⟨fun _ => rfl, fun _ => rfl, fun _ => rfl, fun _ => rfl, rfl⟩
  case reserved =>
    obtain ⟨-, ok | ⟨r, -, rfl⟩⟩ := settle_eq_next.1 h
    · exact absurd ok accept_reserved_ne_ok
    · rfl

end Sys2Proof.Machine
end

section
/-! PROOFS. Transfers: each one of a trace stands where the line discipline allows it (spec/40_bus_primitives.md R106),
and a bus that completes none is a hang (R101, spec/60_exceptions.md R175). -/

namespace Sys2Proof.Machine

/-! Where a transfer stands. -/

theorem eventAllowed_of_disciplined {before after : List Event} {e : Event}
    (h : disciplined (before ++ e :: after) = true) : eventAllowed (busAfter before) e = true := by
  rw [disciplined, disciplinedFrom_append, disciplinedFrom, Bool.and_eq_true, Bool.and_eq_true] at h
  obtain ⟨-, here, -⟩ := h
  exact here

/-- With the device selected and `DC` driven, a transfer carries one frame, with the level of `DC`
(spec/30_encoding.md R74). -/
theorem frameOnLines_selected {csN dc : Unk Level} (b : Byte) (hcs : csN = .known .low)
    (hdc : dc = .known .low ∨ dc = .known .high) :
    frameOnLines csN dc b = some (Frame.of (decide (dc = .known .high)) b) := by
  subst hcs
  obtain rfl | rfl := hdc <;> rfl

theorem driven_of_ne_unk {dc : Unk Level} (h : dc ≠ .unk) : dc = .known .low ∨ dc = .known .high := by
  cases dc with
  | unk => exact absurd rfl h
  | known v => cases v <;> simp

/-- Settles O45: the trace keeps the line discipline, which says where a transfer and a write of `DC` may stand. -/
theorem transfersOnlyWhileSelected : Obligations.TransfersOnlyWhileSelected := by
  intro s before after h
  have allowed {e : Event} (ht : s.trace = before ++ e :: after) : eventAllowed (busAfter before) e = true :=
    eventAllowed_of_disciplined (ht ▸ h.traceOk)
  refine ⟨fun b ht => ?transfer, fun e _ he => controllerStream_append_other before he, fun v ht => ?dataMode⟩
  case transfer =>
    obtain ⟨hcs, driven, hrst, hbegun, -⟩ := of_decide_eq_true (allowed ht)
    have hdc := driven_of_ne_unk driven
    refine ⟨hcs, hdc, hrst, hbegun, ?_⟩
    rw [controllerStream_append_xfer, frameOnLines_selected b hcs hdc, Option.toList_some]
  case dataMode =>
    obtain ⟨-, hcs⟩ := of_decide_eq_true (allowed ht)
    exact hcs

/-! Only the statement of a transfer sends. -/

/-- A step from `s` to `t` adds at most one event, and a transfer only from a state that stands at one. -/
def SendsAtTransfer (s t : State) : Prop :=
  t.trace = s.trace ∨ ∃ e, t.trace = s.trace ++ [e] ∧ (e.isXfer = true → s.waitsAt .transfer = true)

theorem SendsAtTransfer.of_silent {s t : State} {e : Event} (ht : t.trace = s.trace ++ [e])
    (he : e.isXfer = false) : SendsAtTransfer s t :=
  .inr ⟨e, ht, fun hx => by rw [he] at hx; cases hx⟩

/-- A step away from the transfers adds no frame to the controller stream. -/
theorem SendsAtTransfer.stream {s t : State} (h : SendsAtTransfer s t) (away : s.waitsAt .transfer = false) :
    controllerStream t.trace = controllerStream s.trace := by
  obtain ht | ⟨e, ht, sends⟩ := h
  · rw [ht]
  · rw [ht]
    refine controllerStream_append_other _ (Bool.eq_false_iff.2 fun hx => ?_)
    rw [sends hx] at away
    cases away

theorem sendCommand_sends {b : Byte} {s t : State} (h : sendCommand b s = .ok t) : SendsAtTransfer s t := by
  obtain ⟨m, slot, st, e, ht⟩ := sendCommand_inv h
  refine .inr ⟨st.event b, by rw [ht], fun hx => ?_⟩
  cases st with
  | transfer => simp [State.waitsAt, e]
  | _ => cases hx

theorem sendData_sends {d : Byte} {s t : State} (h : sendData d s = .ok t) : SendsAtTransfer s t := by
  obtain ⟨e, c, q, rfl⟩ | ⟨e, i, q, rfl⟩ := sendData_inv h
  · exact .inr ⟨.xfer d, rfl, fun _ => by simp [State.waitsAt, e]⟩
  · exact .inr ⟨.xfer d, rfl, fun _ => by simp [State.waitsAt, e]⟩

/-- A line write and what follows it without an event. -/
theorem line_sends {l : Line} {v : Level} {s u t : State} (h : line l v s = .ok u) (ht : t.trace = u.trace) :
    SendsAtTransfer s t := by
  obtain ⟨-, rfl⟩ := line_eq_ok.1 h
  exact .of_silent (by rw [ht]; simp) (e := .lvl l v) rfl

theorem dopenStep_sends {m : Mode} {st : OpenStep} {s t : State} (h : dopenStep m st s = .ok t) :
    SendsAtTransfer s t := by
  cases st with
  | deselect | dataMode =>
    obtain ⟨u, hu, h⟩ := Res.bind_eq_ok.1 h
    cases h
    exact line_sends hu rfl
  | select =>
    obtain ⟨u, hu, h⟩ := Res.bind_eq_ok.1 h
    cases m with
    | tracked => obtain ⟨p, c, q, rfl⟩ := enterTrackedRun_inv h; exact line_sends hu rfl
    | full => obtain ⟨i, q, rfl⟩ := enterFullRun_inv h; exact line_sends hu rfl

theorem dcloseStep_sends {m : Mode} {st : CloseStep} {s t : State} (h : dcloseStep m st s = .ok t) :
    SendsAtTransfer s t := by
  cases st with
  | deselect | dcLow =>
    obtain ⟨u, hu, h⟩ := Res.bind_eq_ok.1 h
    cases h
    exact line_sends hu rfl

theorem connectStep_sends {k : ConnectStep} {s t : State} (h : connectStep k s = .ok t) : SendsAtTransfer s t := by
  cases k with
  | k6 | k8 | k10 =>
    obtain ⟨u, hu, h⟩ := Res.bind_eq_ok.1 h
    cases h
    exact line_sends hu rfl
  | _ => cases h; exact .of_silent rfl rfl

/-- A row of the scan, from the state `u` in which A1 may have set the bounds and `P`. -/
theorem scanRow_sends {s u t : State} (hu : u.trace = s.trace) (h : scanRow u = .ok t) : SendsAtTransfer s t := by
  obtain ⟨ht, -, -⟩ := scanRow_inv h
  exact .of_silent (e := .yield) (by rw [ht, hu]) rfl

theorem displayStep_sends {s t : State} (h : displayStep s = .ok t) : SendsAtTransfer s t := by
  revert h
  unfold displayStep
  cases s.seq with
  | idle | connect k => intro h; cases h
  | a1 | scan => exact scanRow_sends rfl
  | a4 | finish m => intro h; cases h; exact .of_silent rfl rfl
  | cmd m slot st =>
    intro h
    obtain ⟨b, -, h⟩ := Res.bind_eq_ok.1 h
    exact sendCommand_sends h
  | a8 | b4 =>
    intro h
    obtain ⟨b, -, h⟩ := Res.bind_eq_ok.1 h
    exact sendData_sends h
  | a9 =>
    intro h
    obtain ⟨p, c, q, rfl⟩ := nextPage_inv h
    exact .of_silent (e := .yield) rfl rfl
  | b4Yield =>
    intro h
    obtain ⟨i, q, rfl⟩ := nextByte_inv h
    exact .of_silent (e := .yield) rfl rfl
  | dopen m st => exact dopenStep_sends
  | dclose m st => exact dcloseStep_sends

theorem FbtxDoes.sends {s t : State} (h : FbtxDoes s t) : SendsAtTransfer s t := by
  cases h with
  | waits h => exact .inl (by rw [h])
  | raises r h => exact .inl (by rw [h]; rfl)
  | accepts q first h => exact .inl (by rw [(accept_eq_ok.1 h).2])
  | connects k h => exact connectStep_sends h
  | displays h => exact displayStep_sends h
  | command b h => exact sendCommand_sends h
  | data d h => exact sendData_sends h

/-! A bus that completes no transfer. -/

/-- FBTX stands in a command bracket not yet past its transfer. -/
def State.beforeTransfer (s : State) : Prop := ∃ m slot st, s.seq = .cmd m slot st ∧ st ≠ .release

theorem displayStep_bracket {s t : State} {m : Mode} {slot : CmdSlot} {st : BracketStep} (e : s.seq = .cmd m slot st)
    (h : displayStep s = .ok t) : t.seq = Seq.afterStatement m slot st := by
  rw [displayStep, e] at h
  obtain ⟨b, -, h⟩ := Res.bind_eq_ok.1 h
  obtain ⟨m', slot', st', e', ht⟩ := sendCommand_inv h
  cases e.symm.trans e'
  rw [ht]

/-- Away from the transfer itself, a step of FBTX in a bracket before its transfer comes no further than that. -/
theorem fbtxStep_beforeTransfer {s t : State} (h : s.Inv) (hf : s.fault = none) (hq : s.opreq = 0#2)
    (away : s.waitsAt .transfer = false) (ht : fbtxStep s = .next t) (before : s.beforeTransfer) :
    t.beforeTransfer := by
  obtain ⟨m, slot, st, e, hst⟩ := before
  have ho : s.seq.owner = some .displayTracked ∨ s.seq.owner = some .displayFull := by
    rw [e]; exact owner_cmd m slot st
  obtain ⟨u, hu, -⟩ := display_progress h ho
  rw [fbtx_display h hf hq ho, hu, settle_ok hf] at ht
  cases ht
  have seq := displayStep_bracket e hu
  cases st with
  | deselect => exact ⟨m, slot, .command, seq, by simp⟩
  | command => exact ⟨m, slot, .select, seq, by simp⟩
  | select => exact ⟨m, slot, .transfer, seq, by simp⟩
  | transfer => simp [State.waitsAt, e] at away
  | release => exact absurd rfl hst

/-- An environment whose bus completes no transfer: its move stays on the list until the operation is over. -/
structure StalledBus (s : State) : Prop where
  inv : s.Inv
  fault : s.fault = none
  opreq : s.opreq = 0#2
  host : s.host = [.never .transfer] ∨ s.host = [] ∧ s.busy = false

theorem idle_of_not_busy {s : State} (h : s.Inv) (hb : s.busy = false) : s.seq = .idle := by
  by_contra hne
  rw [h.busyIff.2 hne] at hb
  cases hb

/-- On such a bus every step answers a next state without a fault, sends nothing, and passes no transfer. -/
theorem StalledBus.step {s : State} (h : StalledBus s) :
    ∃ t, Machine.step s = .next t ∧ StalledBus t ∧ controllerStream t.trace = controllerStream s.trace
      ∧ (s.beforeTransfer → t.beforeTransfer) := by
  obtain ⟨inv, hf, hq, hh⟩ := h
  obtain hh | ⟨hh, hb⟩ := hh
  case inr =>
    exact ⟨s, step_at_rest inv.configOk hf hq hh (idle_of_not_busy inv hb), ⟨inv, hf, hq, .inr ⟨hh, hb⟩⟩, rfl, id⟩
  case inl =>
    cases hb : s.busy with
    | false =>
      have finished : Machine.step s = .next { s with host := [] } := by
        rw [step_host inv.configOk hf hq hh]
        simp [hostMove, movesAfter, hb, settle, hf]
      exact ⟨_, finished, ⟨inv_congr inv rfl, hf, hq, .inr ⟨rfl, hb⟩⟩, rfl, id⟩
    | true =>
      cases away : s.waitsAt .transfer with
      | true =>
        exact ⟨s, step_stuck inv.configOk hf hq hb hh away, ⟨inv, hf, hq, .inl hh⟩, rfl, id⟩
      | false =>
        obtain ⟨t, ht, inv_t, ft, qt, ht_host, -⟩ := fbtx_progress inv hf hq
        exact ⟨t, (step_unstuck inv.configOk hf hq hb hh away).trans ht, ⟨inv_t, ft, qt, .inl (ht_host.trans hh)⟩,
          (fbtxStep_does ht).sends.stream away, fbtxStep_beforeTransfer inv hf hq away ht⟩

theorem StalledBus.run (n : Nat) : ∀ {s : State}, StalledBus s →
    ∃ t, Host.Core.run Sys2Proof.core n s = .next t ∧ StalledBus t
      ∧ controllerStream t.trace = controllerStream s.trace ∧ (s.beforeTransfer → t.beforeTransfer) := by
  induction n with
  | zero => intro s h; exact ⟨s, rfl, h, rfl, id⟩
  | succ n ih =>
    intro s h
    obtain ⟨u, hu, stalled_u, stream_u, before_u⟩ := h.step
    obtain ⟨t, run, stalled_t, stream_t, before_t⟩ := ih stalled_u
    exact ⟨t, (run_one hu n).trans run, stalled_t, stream_t.trans stream_u, before_t ∘ before_u⟩

/-- A state that a step does not change is where every run from it ends. -/
theorem run_of_step_self {s : State} (h : step s = .next s) (n : Nat) :
    Host.Core.run Sys2Proof.core n s = .next s := by
  induction n with
  | zero => rfl
  | succ n ih => exact (run_one h n).trans ih

/-- Settles O60: a step at a wait that never ends changes nothing, and every run on a stalled bus keeps `StalledBus`
and stays before the transfer of its bracket, where `BUSY = 1`. -/
theorem stalledWaitsNeverEnd : Obligations.StalledWaitsNeverEnd := by
  refine ⟨fun s w rest n hw hf hq hb hh at_wait => run_of_step_self (step_stuck hw hf hq hb hh at_wait) n,
    fun s n inv hf hq hh => ?_⟩
  obtain ⟨t, run, stalled, stream, before⟩ := StalledBus.run n ⟨inv, hf, hq, .inl hh⟩
  refine ⟨t, run, stalled.fault, stream, fun m slot st e hst => ?_⟩
  obtain ⟨m', slot', st', e', -⟩ := before ⟨m, slot, st, e, hst⟩
  exact stalled.inv.busyIff.2 (by simp [e'])

end Sys2Proof.Machine
end

section
/-! PROOFS. CONNECT (spec/41_connect.md): each labelled line with all it does (R121), its completion (R122), its frame
(R124), the example from block reset (R126); and that no operation in progress raises (R123). -/

namespace Sys2Proof.Machine

/-! The labelled lines. -/

/-- The row CONNECT at one of its labels makes the line of that label. -/
theorem exec_connect_ok {s t : State} {k : ConnectStep} (hf : s.fault = none) (hq : s.opreq = 0#2)
    (e : s.seq = .connect k) (h : connectStep k s = .ok t) : exec .connect s = .next t := by
  have body : connectBody s = .ok t := by simp [connectBody, inProgress, hq, e, Seq.owner, h]
  exact (congrArg (settle s) body).trans (settle_ok hf)

/-- The lines K6, K8 and K10: `RST` is driven, once it is an output. -/
theorem line_rst_goto {s : State} (v : Level) (q : Seq) (output : s.dirRst = .output) :
    (do .ok ((← line .rst v s).goto q) : Res State)
      = .ok { s with rstN := .known v, trace := s.trace ++ [.lvl .rst v], seq := q } := by
  rw [line_ok (l := .rst) output]
  rfl

/-- Settles O15: `exec_connect_ok` at each label, where the line is an assignment with its event, or drives `RST`.
(`connectLabels` is the list of the labels.) -/
theorem exec_connectLabels : Obligations.ConnectLabels := fun _ hf hq =>
  ⟨fun k1 => exec_connect_ok hf hq k1 rfl,
    fun k2 => exec_connect_ok hf hq k2 rfl,
    fun k3 => exec_connect_ok hf hq k3 rfl,
    fun k4 => exec_connect_ok hf hq k4 rfl,
    fun k5 => exec_connect_ok hf hq k5 rfl,
    fun k6 output => exec_connect_ok hf hq k6 (line_rst_goto .high (.connect .k7) output),
    fun k7 => exec_connect_ok hf hq k7 rfl,
    fun k8 output => exec_connect_ok hf hq k8 (line_rst_goto .low (.connect .k9) output),
    fun k9 => exec_connect_ok hf hq k9 rfl,
    fun k10 output => exec_connect_ok hf hq k10 (line_rst_goto .high (.connect .k11) output),
    fun k11 => exec_connect_ok hf hq k11 rfl⟩

/-! CONNECT as a whole. -/

/-- Settles O16: the run of `connect_run` ends in `State.afterConnect`, which is that state. -/
theorem connectCompletes : Obligations.ConnectCompletes := fun _ hw hf hb hc hq hh => connect_run hw hf hb hc hq hh

/-- CONNECT transfers no byte (spec/41_connect.md R126). -/
theorem controllerStream_connectTrace (cfg : Config) : controllerStream (connectTrace cfg) = [] := rfl

/-- Settles O17: block reset is a state at rest, so `connect_run` applies, and its trace is all of CONNECT's. -/
theorem connectFromBlockReset : Obligations.ConnectFromBlockReset := by
  intro cfg frame draw hw settle_time hold_time
  let requested : State := { State.blockReset cfg frame draw with opreq := 0b01#2 }
  have trace : requested.afterConnect.trace = connectTrace cfg := rfl
  refine ⟨requested.afterConnect, connect_run hw rfl rfl rfl rfl rfl, ?events, rfl, rfl, rfl, rfl, rfl, rfl, rfl, rfl,
    rfl, rfl, rfl, ?stream⟩
  case events => rw [trace, connectTrace, settle_time, hold_time]
  case stream => rw [trace, controllerStream_connectTrace]

/-! What CONNECT leaves alone. -/

/-- The body of CONNECT makes the line of its label, or accepts a request. -/
theorem connectBody_inv {s t : State} (h : connectBody s = .ok t) :
    (∃ k, s.seq = .connect k ∧ connectStep k s = .ok t) ∨ accept (.op .connect) (.connect .k1) s = .ok t := by
  unfold connectBody at h
  split at h
  · next k _ hk => exact .inl ⟨k, hk, h⟩
  · exact .inr h

/-- Settles O30: a step of CONNECT is a line of it, of which `connectStep_inv` says what it leaves, an acceptance, or a
fault. -/
theorem frameOfConnect : Obligations.FrameOfConnect := by
  intro s t h
  obtain ⟨-, ok | ⟨r, -, rfl⟩⟩ := settle_eq_next.1 h
  · obtain ⟨k, -, line_made⟩ | accepted := connectBody_inv ok
    · obtain ⟨ev, ht⟩ := connectStep_inv line_made
      rw [ht]
      exact ⟨fun _ => rfl, fun _ => rfl, rfl, rfl, rfl⟩
    · obtain ⟨-, rfl⟩ := accept_eq_ok.1 accepted
      exact ⟨fun _ => rfl, fun _ => rfl, rfl, rfl, rfl⟩
  · exact ⟨fun _ => rfl, fun _ => rfl, rfl, rfl, rfl⟩

/-! The operation in progress. -/

/-- Settles O42: with no request and no host move the step is one of FBTX, which under the invariant has its next
state without a fault (`fbtx_progress`). -/
theorem operationsRaiseNothing : Obligations.OperationsRaiseNothing := by
  intro s inv hf hq hh
  obtain ⟨t, ht, -, ft, qt, ht_host, -⟩ := fbtx_progress inv hf hq
  exact ⟨t, (step_of_noMoves inv.configOk hf hq hh).trans ht, ft, qt, ht_host.trans hh⟩

end Sys2Proof.Machine
end

section
/-! PROOFS. The statements of Mode A's DISPLAY, one at a time (spec/42_display_tracked.md R130 to R133, R139): the
completion, the sentinel of A1, the scan of a page row, and what each step leaves alone. -/

namespace Sys2Proof.Machine

/-! Completion. -/

theorem owner_finish (m : Mode) : (Seq.finish m).owner = some (Instr.displayOf m) := by cases m <;> rfl

/-- Settles O29: at A4, A11, B6 and K11 the statement in progress is the completion. -/
theorem completionStep : Obligations.CompletionStep := by
  refine ⟨fun s m hf hq hm at_end => ?display, fun s hf hq e => ⟨_, exec_connect_ok hf hq e rfl, rfl, rfl, rfl⟩⟩
  case display =>
    obtain e | ⟨rfl, e⟩ := at_end
    · exact exec_display_ok hf hq hm e (owner_finish m) (by rw [displayStep, e]; rfl)
    · exact exec_display_ok hf hq hm e rfl (by rw [displayStep, e]; rfl)

/-! The scan does not read `seq`. -/

theorem bind_commutes {φ : State → State} {x y : Res State} {f : State → Res State} (h : y = x.map φ)
    (hf : ∀ t, f (φ t) = (f t).map φ) : (y >>= f) = (x >>= f).map φ := by
  subst h
  cases x with
  | error e => rfl
  | ok t => exact hf t

theorem read_commutes {φ : State → State} {α : Type} (x : Res α) {f g : α → Res State}
    (h : ∀ a, g a = (f a).map φ) : (x >>= g) = (x >>= f).map φ := by
  cases x with
  | error e => rfl
  | ok a => exact h a

theorem noteCell_goto (f sh p c : Byte) (s : State) (q : Seq) :
    noteCell f sh p c (s.goto q) = (noteCell f sh p c s).map (·.goto q) := by
  unfold noteCell
  split
  · exact read_commutes _ fun _ => read_commutes _ fun _ => read_commutes _ fun _ => read_commutes _ fun _ => rfl
  · rfl

theorem scanCell_goto (s : State) (q : Seq) : scanCell (s.goto q) = (scanCell s).map (·.goto q) :=
  read_commutes _ fun p => read_commutes _ fun c => read_commutes _ fun f => read_commutes _ fun sh =>
    bind_commutes (f := fun t => .ok { shWrite t (s.cfg.idx p.toNat c.toNat) f with c := .holds (c + 1#9) })
      (noteCell_goto f sh _ _ s q) fun _ => rfl

theorem scanCells_goto (n : Nat) (q : Seq) : ∀ s : State,
    scanCells n (s.goto q) = (scanCells n s).map (·.goto q) := by
  induction n with
  | zero => exact fun _ => rfl
  | succ n ih => exact fun s => bind_commutes (scanCell_goto s q) ih

/-- A step of the scan ends by setting `seq`, and does not read it before. -/
theorem scanRow_goto (s : State) (q : Seq) : scanRow (s.goto q) = scanRow s := by
  have cells : scanCells s.cfg.w ({ s with c := .holds 0#9 }.goto q)
      = (scanCells s.cfg.w { s with c := .holds 0#9 }).map (·.goto q) := scanCells_goto _ _ _
  show (scanCells s.cfg.w ({ s with c := .holds 0#9 }.goto q) >>= _) = _
  rw [cells, scanRow]
  cases scanCells s.cfg.w { s with c := .holds 0#9 } with
  | error e => rfl
  | ok t => rfl

/-- Settles O26: A1 is the scan of page row 0 from the sentinel, and the scan does not read `seq`. -/
theorem boundsStartAtTheSentinel : Obligations.BoundsStartAtTheSentinel := by
  intro s h hf hq e
  have hm : s.cfg.mode = .tracked := (owner_mode h).1 (by rw [e]; rfl)
  obtain ⟨t, ht, -⟩ := display_progress h (.inl (by rw [e]; rfl))
  refine ⟨t, exec_display_ok (m := .tracked) hf hq hm e rfl ht, ?_⟩
  rw [displayStep, e] at ht
  exact exec_display_ok (m := .tracked) (q := .scan) hf hq hm rfl rfl
    ((scanRow_goto { initBounds s with p := .holds 0#9 } .scan).trans ht)

/-! Bounding boxes. -/

/-- The box of one page row. -/
theorem BoundingBox.row {R : Nat → Prop} {a b : Nat} (p : Nat) (first : R a) (last : R b)
    (between : ∀ c, R c → a ≤ c ∧ c ≤ b) : BoundingBox (fun p' c => p' = p ∧ R c) a b p p :=
  ⟨fun _ c ⟨hp, hc⟩ => ⟨hp.ge, hp.le, between c hc⟩, ⟨a, rfl, first⟩, ⟨a, rfl, first⟩, ⟨p, rfl, first⟩,
    ⟨p, rfl, last⟩⟩

theorem exists_at_min {S R : Nat → Nat → Prop} {a b : Nat} (ha : ∃ x, S a x) (hb : ∃ x, R b x) :
    ∃ x, S (min a b) x ∨ R (min a b) x := by
  rw [exists_or]
  rcases min_choice a b with h | h
  · exact .inl (h.symm ▸ ha)
  · exact .inr (h.symm ▸ hb)

theorem exists_at_max {S R : Nat → Nat → Prop} {a b : Nat} (ha : ∃ x, S a x) (hb : ∃ x, R b x) :
    ∃ x, S (max a b) x ∨ R (max a b) x := by
  rw [exists_or]
  rcases max_choice a b with h | h
  · exact .inl (h.symm ▸ ha)
  · exact .inr (h.symm ▸ hb)

/-- The box of two sets of cells together is the coordinate-wise least and greatest of their boxes. -/
theorem BoundingBox.union {S R : Nat → Nat → Prop} {c0 c1 p0 p1 d0 d1 q0 q1 : Nat} (hS : BoundingBox S c0 c1 p0 p1)
    (hR : BoundingBox R d0 d1 q0 q1) :
    BoundingBox (fun p c => S p c ∨ R p c) (min c0 d0) (max c1 d1) (min p0 q0) (max p1 q1) := by
  obtain ⟨insideS, topS, bottomS, leftS, rightS⟩ := hS
  obtain ⟨insideR, topR, bottomR, leftR, rightR⟩ := hR
  refine ⟨fun p c hpc => ?inside, ?top, ?bottom, ?left, ?right⟩
  case inside =>
    obtain hpc | hpc := hpc
    · have := insideS p c hpc; omega
    · have := insideR p c hpc; omega
  case top => exact exists_at_min topS topR
  case bottom => exact exists_at_max bottomS bottomR
  case left => exact exists_at_min (S := fun c p => S p c) (R := fun c p => R p c) leftS leftR
  case right => exact exists_at_max (S := fun c p => S p c) (R := fun c p => R p c) rightS rightR

/-! The bounds. -/

/-- The four bounds hold `minP`, `maxP`, `minC`, `maxC`. -/
def State.boundsHeld (s : State) (minP maxP minC maxC : Byte) : Prop :=
  s.minP = .holds minP ∧ s.maxP = .holds maxP ∧ s.minC = .holds minC ∧ s.maxC = .holds maxC

theorem State.boundsHeld.unique {s : State} {a b c d a' b' c' d' : Byte} (h : s.boundsHeld a b c d)
    (h' : s.boundsHeld a' b' c' d') : a = a' ∧ b = b' ∧ c = c' ∧ d = d' := by
  obtain ⟨h1, h2, h3, h4⟩ := h
  obtain ⟨h1', h2', h3', h4'⟩ := h'
  rw [h1] at h1'
  rw [h2] at h2'
  rw [h3] at h3'
  rw [h4] at h4'
  cases h1'; cases h2'; cases h3'; cases h4'
  exact ⟨rfl, rfl, rfl, rfl⟩

theorem State.sentinelHeld.boundsHeld {s : State} (h : s.sentinelHeld) :
    s.boundsHeld 0xFF#8 0x00#8 0xFF#8 0x00#8 := by
  obtain ⟨minC, maxC, minP, maxP⟩ := h
  exact ⟨minP, maxP, minC, maxC⟩

theorem State.windowHeld.boundsHeld {s : State} {c0 c1 p0 p1 : Byte} (h : s.windowHeld c0 c1 p0 p1) :
    s.boundsHeld p0 p1 c0 c1 := by
  obtain ⟨minC, maxC, minP, maxP, -⟩ := h
  exact ⟨minP, maxP, minC, maxC⟩

/-- Under the invariant the bounds at a scan step are those of some set of cells: none at all, or a window. -/
theorem boundsOf_of_scan {s : State} (h : s.Inv) (e : s.seq = .scan) : ∃ S, BoundsOf S s := by
  have regs := h.registersOk
  simp only [State.registersAtSeq, e] at regs
  obtain ⟨-, sentinel | ⟨c0, c1, p0, p1, held⟩⟩ := regs
  · exact ⟨fun _ _ => False, .inl ⟨sentinel, fun _ _ => id⟩⟩
  · have corners := (BoundingBox.row (R := (· = c0.toNat)) p0.toNat rfl rfl fun _ h => ⟨h.ge, h.le⟩).union
      (BoundingBox.row (R := (· = c1.toNat)) p1.toNat rfl rfl fun _ h => ⟨h.ge, h.le⟩)
    obtain ⟨-, -, -, -, columns, -, pages, -⟩ := id held
    have hc : c0.toNat ≤ c1.toNat := columns
    have hp : p0.toNat ≤ p1.toNat := pages
    rw [min_eq_left hc, max_eq_right hc, min_eq_left hp, max_eq_right hp] at corners
    exact ⟨_, .inr ⟨c0, c1, p0, p1, held, corners⟩⟩

/-- The bounds of one set of cells are the same in all states. -/
theorem BoundsOf.boundsHeld {S : Nat → Nat → Prop} {s t : State} {minP maxP minC maxC : Byte} (hs : BoundsOf S s)
    (ht : BoundsOf S t) (held : s.boundsHeld minP maxP minC maxC) : t.boundsHeld minP maxP minC maxC := by
  obtain ⟨sentinel, empty⟩ | ⟨c0, c1, p0, p1, window, box⟩ := hs
  · obtain ⟨sentinel', -⟩ | ⟨_, _, _, _, -, -, ⟨c, top⟩, -⟩ := ht
    · obtain ⟨rfl, rfl, rfl, rfl⟩ := sentinel.boundsHeld.unique held
      exact sentinel'.boundsHeld
    · exact absurd top (empty _ _)
  · obtain ⟨rfl, rfl, rfl, rfl⟩ := window.boundsHeld.unique held
    simpa [State.boundsHeld] using ht.eq_box box

/-- Cells with a box, added to those the bounds hold, make the bounds grow to the least box around both. -/
theorem BoundsOf.grow {S R : Nat → Nat → Prop} {s t : State} {minP maxP minC maxC : Byte} {a b q0 q1 : Nat}
    (hs : BoundsOf S s) (held : s.boundsHeld minP maxP minC maxC) (box : BoundingBox R a b q0 q1)
    (ha : a < 256) (hq : q0 < 256) (ht : BoundsOf (fun p c => S p c ∨ R p c) t) :
    t.boundsHeld (BitVec.ofNat 8 (min minP.toNat q0)) (BitVec.ofNat 8 (max maxP.toNat q1))
      (BitVec.ofNat 8 (min minC.toNat a)) (BitVec.ofNat 8 (max maxC.toNat b)) := by
  obtain ⟨sentinel, empty⟩ | ⟨c0, c1, p0, p1, window, box'⟩ := hs
  · obtain ⟨rfl, rfl, rfl, rfl⟩ := sentinel.boundsHeld.unique held
    have only_R : BoundsOf R t := ht.mono fun p c => by simp [empty p c]
    have least {x : Nat} (hx : x < 256) : min (0xFF#8).toNat x = x := min_eq_right (Nat.le_of_lt_succ hx)
    have greatest (x : Nat) : max (0x00#8).toNat x = x := Nat.zero_max x
    rw [least ha, least hq, greatest, greatest]
    exact only_R.eq_box box
  · obtain ⟨rfl, rfl, rfl, rfl⟩ := window.boundsHeld.unique held
    exact ht.eq_box (box'.union box)

/-! The scan of a page row. -/

/-- The addresses of page row `p` (spec/00_scope.md R11). -/
theorem idx_row_iff {cfg : Config} {p x : Nat} :
    cfg.idx p 0 ≤ x ∧ x < cfg.idx p cfg.w ↔ ∃ c, c < cfg.w ∧ x = cfg.idx p c := by
  constructor
  · rintro ⟨lower, upper⟩
    refine ⟨x - p * cfg.w, ?_, ?_⟩ <;> simp only [Config.idx] at * <;> omega
  · rintro ⟨c, hc, rfl⟩
    simp only [Config.idx]
    omega

/-- Settles O27: `scanRow_spec` from the bounds of the cells found so far; the changed cells of the row have the box
from their first to their last column. -/
theorem scanOfOnePageRow : Obligations.ScanOfOnePageRow := by
  intro s p minP maxP minC maxC h hf hq e hp hminP hmaxP hminC hmaxC
  have hm : s.cfg.mode = .tracked := (owner_mode h).1 (by rw [e]; rfl)
  have held : s.boundsHeld minP maxP minC maxC := ⟨hminP, hmaxP, hminC, hmaxC⟩
  have inside : p.toNat < s.cfg.np := by
    have regs := h.registersOk
    simp only [State.registersAtSeq, e] at regs
    obtain ⟨⟨p', hp', inside⟩, -⟩ := regs
    cases hp.symm.trans hp'
    exact inside
  obtain ⟨-, w256, -, np256, -⟩ := wf_facts h.configOk
  obtain ⟨S, bounds⟩ := boundsOf_of_scan h e
  obtain ⟨t, row, ht, -, -, sh, bounds_t, next⟩ :=
    scanRow_spec s (shape_of_inv h hm) hp inside bounds rfl rfl fun _ _ => rfl
  refine ⟨t, exec_display_ok (m := .tracked) hf hq hm e rfl (by rw [displayStep, e]; exact row),
    fun c hc => ?copied, fun a outside => ?kept, fun a => by rw [ht], by rw [ht], by rw [ht], by rw [ht], by rw [ht],
    fun none_changed => ?bounds_kept, fun a b ha hb changed_a changed_b between => ?bounds_grown, fun more => ?next_row,
    fun last low high hlow hhigh => ?empty_check⟩
  case copied => rw [sh, if_pos (idx_row_iff.2 ⟨c, hc, rfl⟩)]
  case kept =>
    rw [sh, if_neg fun in_row => ?_]
    obtain ⟨c, hc, ha⟩ := idx_row_iff.1 in_row
    exact outside c hc ha
  case bounds_kept =>
    refine bounds.boundsHeld (bounds_t.mono fun p' c => or_iff_left ?_) held
    rintro ⟨rfl, hc, changed⟩
    exact none_changed c hc changed
  case bounds_grown =>
    have box := BoundingBox.row (R := fun c => c < s.cfg.w ∧ s.changed p.toNat c) p.toNat ⟨ha, changed_a⟩
      ⟨hb, changed_b⟩ fun c ⟨hc, changed⟩ => between c hc changed
    refine bounds.grow held box (by omega) (by omega) (bounds_t.mono fun p' c => or_congr_right ?_)
    exact and_congr_right fun hp' => by rw [hp']
  case next_row =>
    obtain ⟨-, seq⟩ | ⟨last, -⟩ | ⟨last, -⟩ := next
    · exact seq
    · omega
    · omega
  case empty_check =>
    obtain ⟨more, -⟩ | ⟨-, seq, sentinel⟩ | ⟨-, seq, c0, c1, p0, p1, window⟩ := next
    · omega
    · obtain ⟨-, -, minP_t, maxP_t⟩ := sentinel
      cases hlow.symm.trans minP_t
      cases hhigh.symm.trans maxP_t
      rw [seq, if_pos (by decide)]
    · obtain ⟨-, -, minP_t, maxP_t, -, -, pages, -⟩ := window
      cases hlow.symm.trans minP_t
      cases hhigh.symm.trans maxP_t
      rw [seq, if_neg (BitVec.not_lt.2 pages)]

/-! What each step leaves alone. -/

/-- `t` differs from `s` at most in the list of spec/42_display_tracked.md R130, the request port, the receiver and
`FAULT`. -/
def TrackedFrame (s t : State) : Prop :=
  t = { s with
    minP := t.minP, maxP := t.maxP, minC := t.minC, maxC := t.maxC, p := t.p, c := t.c, sh := t.sh, csN := t.csN,
    dc := t.dc, busy := t.busy, seq := t.seq, trace := t.trace, opreq := t.opreq, rx := t.rx, fault := t.fault }

/-- From `s` to `t` the shadow buffer is stored to in page row `p` at most. -/
def StoresInRow (p : Nat) (s t : State) : Prop :=
  ∀ a, (∀ c, c < s.cfg.w → a ≠ s.cfg.idx p c) → t.sh.read a = s.sh.read a

/-- Where a step of Mode A's DISPLAY may store in the shadow buffer (spec/42_display_tracked.md R132). -/
inductive ShadowStores (s t : State) : Prop
  | nowhere (h : t.sh = s.sh)
  | firstRow (e : s.seq = .a1) (h : StoresInRow 0 s t)
  | row (e : s.seq = .scan) (h : ∀ p, s.p = .holds p → StoresInRow p.toNat s t)

/-- Each statement of Mode A's DISPLAY, by what the inversion of its operation says. -/
theorem displayStep_tracked_inv {s t : State} (ho : s.seq.owner = some .displayTracked) (h : displayStep s = .ok t) :
    TrackedFrame s t ∧ ShadowStores s t := by
  revert h
  unfold displayStep
  cases e : s.seq with
  | idle | connect k | b4 | b4Yield => rw [e] at ho; cases ho
  | a1 =>
    intro h
    obtain ⟨ht, stores, -⟩ := scanRow_inv h
    exact ⟨by rw [TrackedFrame, ht]; rfl, .firstRow e (stores 0#9 rfl)⟩
  | scan =>
    intro h
    obtain ⟨ht, stores, -⟩ := scanRow_inv h
    exact ⟨by rw [TrackedFrame, ht], .row e stores⟩
  | a4 | finish m =>
    intro h
    cases h
    exact ⟨rfl, .nowhere rfl⟩
  | cmd m slot st =>
    intro h
    obtain ⟨b, -, h⟩ := Res.bind_eq_ok.1 h
    obtain ⟨m', slot', st', -, ht⟩ := sendCommand_inv h
    exact ⟨by rw [TrackedFrame, ht], .nowhere (by rw [ht])⟩
  | a8 =>
    intro h
    obtain ⟨b, -, h⟩ := Res.bind_eq_ok.1 h
    obtain ⟨-, c, q, rfl⟩ | ⟨atB4, -⟩ := sendData_inv h
    · exact ⟨rfl, .nowhere rfl⟩
    · cases e.symm.trans atB4
  | a9 =>
    intro h
    obtain ⟨p, c, q, rfl⟩ := nextPage_inv h
    exact ⟨rfl, .nowhere rfl⟩
  | dopen m st =>
    obtain rfl : m = .tracked := by
      rw [e] at ho
      cases m with
      | tracked => rfl
      | full => cases ho
    intro h
    obtain ⟨⟨ev, ht⟩, -, keeps_i⟩ := dopenStep_inv h
    have hi := keeps_i rfl
    exact ⟨by rw [TrackedFrame, ht, hi], .nowhere (by rw [ht])⟩
  | dclose m st =>
    intro h
    obtain ⟨ev, ht⟩ := dcloseStep_inv h
    exact ⟨by rw [TrackedFrame, ht], .nowhere (by rw [ht])⟩

/-- The row DISPLAY_TRACKED raises, accepts a request, or makes the next statement. -/
theorem execDisplayTracked_inv {s t : State} (h : exec .displayTracked s = .next t) :
    TrackedFrame s t ∧ ShadowStores s t := by
  obtain ⟨-, ok | ⟨r, -, rfl⟩⟩ := settle_eq_next.1 h
  · unfold displayBody at ok
    split at ok
    · split at ok
      · next running =>
        obtain ⟨-, ho⟩ := of_decide_eq_true running
        exact displayStep_tracked_inv ho ok
      · obtain ⟨-, rfl⟩ := accept_eq_ok.1 ok
        exact ⟨rfl, .nowhere rfl⟩
    · cases ok
  · exact ⟨rfl, .nowhere rfl⟩

/-- Settles O31: no statement leaves the list of R130, and only the two labels of the scan store. -/
theorem frameOfDisplayTracked : Obligations.FrameOfDisplayTracked := by
  intro s t h
  obtain ⟨frame, stores⟩ := execDisplayTracked_inv h
  have fb : t.fb = s.fb := by rw [frame]
  refine ⟨fun a => by rw [fb], fun not_a1 not_scan a => ?elsewhere, fun e a outside => ?a1,
    fun p e hp a outside => ?scan, frame⟩
  case elsewhere =>
    cases stores with
    | nowhere sh => rw [sh]
    | firstRow e _ => exact absurd e not_a1
    | row e _ => exact absurd e not_scan
  case a1 =>
    cases stores with
    | nowhere sh => rw [sh]
    | firstRow _ stores => exact stores a outside
    | row e' _ => cases e.symm.trans e'
  case scan =>
    cases stores with
    | nowhere sh => rw [sh]
    | firstRow e' _ => cases e.symm.trans e'
    | row _ stores => exact stores p hp a outside

end Sys2Proof.Machine
end

section
/-! PROOFS. A Mode A DISPLAY as one run (spec/42_display_tracked.md R130 to R145): how it comes to rest, with the
shadow buffer, the bounds, the lines and the trace it leaves; and the run of a second one. -/

namespace Sys2Proof.Machine

/-! How a Mode A DISPLAY comes to rest. -/

/-- A DISPLAY of an unchanged frame has run (spec/42_display_tracked.md R133). -/
structure NothingSent (s t : State) : Prop extends DisplayRun s t (idleTrace s.cfg) where
  bounds : t.sentinelHeld
  csN : t.csN = s.csN
  dc : t.dc = s.dc

/-- A DISPLAY that sends a window has run (spec/42_display_tracked.md R134 to R139). -/
structure WindowSent (s t : State) (c0 c1 p0 p1 : Nat) : Prop
    extends DisplayRun s t (trackedTrace s.cfg s.fb c0 c1 p0 p1) where
  minC : t.minC = .holds (BitVec.ofNat 8 c0)
  maxC : t.maxC = .holds (BitVec.ofNat 8 c1)
  minP : t.minP = .holds (BitVec.ofNat 8 p0)
  maxP : t.maxP = .holds (BitVec.ofNat 8 p1)
  csN : t.csN = .known .high
  dc : t.dc = if s.cfg.dcRestore = true then .known .low else .known .high

/-- The shadow buffer of `t` is the framebuffer of `s` (spec/42_display_tracked.md R140). -/
def ShadowCopied (s t : State) : Prop := ∀ x, x < s.cfg.fbSize → t.sh.read x = s.fb.read x

/-- The two ways a Mode A DISPLAY ends, by whether a cell had changed. -/
inductive TrackedEnd (s t : State) : Prop
  | unchanged (none_changed : s.changedExactly fun _ _ => False) (run : NothingSent s t)
  | sent (c0 c1 p0 p1 : Byte) (box : s.dirtyRect c0.toNat c1.toNat p0.toNat p1.toNat)
      (run : WindowSent s t c0.toNat c1.toNat p0.toNat p1.toNat)

theorem Scanned.shadowCopied {s u : State} (h : Scanned s.displayAccepted u) : ShadowCopied s u := by
  intro x hx
  rw [h.sh, if_pos (by exact hx)]
  rfl

/-- A4 on an unchanged frame completes (spec/42_display_tracked.md R133). -/
theorem nothingSent_of_scanned {s u : State} (h : s.Inv) (hr : s.displayRequested)
    (scanned : Scanned s.displayAccepted u) (atA4 : u.seq = .a4) (sentinel : u.sentinelHeld) :
    NothingSent s (complete .display u) := by
  have done : displayStep u = .ok (complete .display u) := by rw [displayStep, atA4]
  have path := scanned.path.trans (disp_one scanned.path.quiet (by rw [atA4]; exact .inl rfl) done)
  have rest : (complete .display u).atRest := ⟨path.quiet.fault, rfl, rfl, path.quiet.opreq⟩
  have trace : (complete .display u).trace = s.trace ++ idleTrace s.cfg := by
    rw [complete_trace, scanned.trace, idleTrace, ← List.append_assoc]; rfl
  exact ⟨.of_path h hr path rest trace, sentinel, scanned.csN, scanned.dc⟩

/-- A5 to A11 send the window that the bounds hold (spec/42_display_tracked.md R134 to R139). -/
theorem windowSent_of_scanned {s u : State} {c0 c1 p0 p1 : Byte} (h : s.Inv) (hr : s.displayRequested)
    (hm : s.cfg.mode = .tracked) (scanned : Scanned s.displayAccepted u)
    (atA5 : u.seq = .cmd .tracked .colOp .deselect) (held : u.windowHeld c0 c1 p0 p1) :
    ∃ t, WindowSent s t c0.toNat c1.toNat p0.toNat p1.toNat ∧ t.sh = u.sh := by
  have ucfg : u.cfg = s.cfg := scanned.path.same.cfg
  have ufb : u.fb = s.fb := scanned.path.same.fb
  obtain ⟨t, sent, rest, csN, dc⟩ := send_run ⟨scanned.path.quiet, ucfg ▸ hm, held⟩ atA5
  have trace : t.trace = s.trace ++ trackedTrace s.cfg s.fb c0.toNat c1.toNat p0.toNat p1.toNat := by
    rw [sent.trace, scanned.trace, ucfg, ufb]
    simp [trackedTrace, State.displayAccepted]
  obtain ⟨minC, maxC, minP, maxP, -⟩ := held
  refine ⟨t, ⟨.of_path h hr (scanned.path.trans sent.path) rest trace, ?_, ?_, ?_, ?_, csN, ucfg ▸ dc⟩,
    sent.keeps.sh⟩
  · rw [sent.keeps.minC, minC]; simp
  · rw [sent.keeps.maxC, maxC]; simp
  · rw [sent.keeps.minP, minP]; simp
  · rw [sent.keeps.maxP, maxP]; simp

/-- Every Mode A DISPLAY comes to rest, with the shadow buffer a copy of the framebuffer. -/
theorem tracked_display_ends {s : State} (h : s.Inv) (hr : s.displayRequested) (hm : s.cfg.mode = .tracked) :
    ∃ t, TrackedEnd s t ∧ ShadowCopied s t := by
  have first : s.displayAccepted.seq = .a1 := by simp [State.displayAccepted, firstLabel, hm]
  obtain ⟨u, scanned⟩ := scan_run (displayAccepted_cooperates h hr) hm first
  have copied := scanned.shadowCopied
  obtain ⟨atA4, sentinel, unchanged⟩ | ⟨atA5, c0, c1, p0, p1, held, box⟩ := scanned.rect
  · exact ⟨_, .unchanged (fun p c hp hc => iff_false_intro (unchanged p c hp hc))
      (nothingSent_of_scanned h hr scanned atA4 sentinel), copied⟩
  · obtain ⟨t, run, sh⟩ := windowSent_of_scanned h hr hm scanned atA5 held
    exact ⟨t, .sent c0 c1 p0 p1 (dirtyRect_of_boundingBox box) run, fun x hx => by rw [sh]; exact copied x hx⟩

/-- A bounding box has a changed cell at its top. -/
theorem State.dirtyRect.some_changed {s : State} {c0 c1 p0 p1 : Nat} (h : s.dirtyRect c0 c1 p0 p1) :
    ¬ s.changedExactly fun _ _ => False := by
  obtain ⟨-, ⟨c, hc, changed⟩, -, -, -, hp, -⟩ := h
  exact fun none_changed => (none_changed _ _ hp hc).1 changed

theorem unchanged_display_run {s : State} (h : s.Inv) (hr : s.displayRequested) (hm : s.cfg.mode = .tracked)
    (none_changed : s.changedExactly fun _ _ => False) : ∃ t, NothingSent s t := by
  obtain ⟨t, ends, -⟩ := tracked_display_ends h hr hm
  cases ends with
  | unchanged _ run => exact ⟨t, run⟩
  | sent _ _ _ _ box _ => exact absurd none_changed box.some_changed

theorem changed_display_run {s : State} {c0 c1 p0 p1 : Nat} (h : s.Inv) (hr : s.displayRequested)
    (hm : s.cfg.mode = .tracked) (hd : s.dirtyRect c0 c1 p0 p1) : ∃ t, WindowSent s t c0 c1 p0 p1 := by
  obtain ⟨t, ends, -⟩ := tracked_display_ends h hr hm
  cases ends with
  | unchanged none_changed _ => exact absurd none_changed hd.some_changed
  | sent d0 d1 q0 q1 box run =>
    obtain ⟨rfl, rfl, rfl, rfl⟩ := box.boundingBox.unique hd.boundingBox
    exact ⟨t, run⟩

theorem controllerStream_idleTrace {s : State} (h : s.Inv) :
    controllerStream (s.trace ++ idleTrace s.cfg) = controllerStream s.trace := by
  rw [controllerStream_after_events h, idleTrace, stream_replicate]
  simp [streamFrom]

/-- Settles O49: with no changed cell the scan goes to A4, which completes; yields and a completion are no frames. -/
theorem unchangedFrameSendsNothing : Obligations.UnchangedFrameSendsNothing := by
  intro s h hr hm none_changed
  obtain ⟨t, run⟩ := unchanged_display_run h hr hm none_changed
  exact ⟨t, run.reach, run.rest, run.trace, run.csN, run.dc, by rw [run.trace, controllerStream_idleTrace h]⟩

/-- Settles O50: the window that the scan leaves in the bounds is the bounding box, and `send_run` sends it. -/
theorem trackedDisplayTrace : Obligations.TrackedDisplayTrace := by
  intro s c0 c1 p0 p1 h hr hm hd
  obtain ⟨t, run⟩ := changed_display_run h hr hm hd
  obtain ⟨-, -, connected, -⟩ := hr
  exact ⟨t, run.reach, run.rest, run.trace, run.csN, run.dc, run.minC, run.maxC, run.minP, run.maxP,
    run.same.conn.trans connected, run.same.result, run.same.cfg, fun a => by rw [run.same.fb]; rfl⟩

/-- Settles O51: the sentinel is left when no cell had changed, and else the bounding box. -/
theorem boundsAreTheLeastBox : Obligations.BoundsAreTheLeastBox := by
  intro s h hr hm
  obtain ⟨t, ends, -⟩ := tracked_display_ends h hr hm
  cases ends with
  | unchanged none_changed run =>
    obtain ⟨minC, maxC, minP, maxP⟩ := run.bounds
    exact ⟨t, run.reach, run.rest, fun _ => ⟨minP, maxP, minC, maxC⟩, absurd none_changed⟩
  | sent c0 c1 p0 p1 box run =>
    refine ⟨t, run.reach, run.rest, fun none_changed => absurd none_changed box.some_changed,
      fun _ => ⟨c0, c1, p0, p1, ?_, ?_, ?_, ?_, box⟩⟩
    · simpa using run.minC
    · simpa using run.maxC
    · simpa using run.minP
    · simpa using run.maxP

theorem TrackedEnd.run {s t : State} (h : TrackedEnd s t) : ∃ es, DisplayRun s t es := by
  cases h with
  | unchanged _ run => exact ⟨_, run.toDisplayRun⟩
  | sent _ _ _ _ _ run => exact ⟨_, run.toDisplayRun⟩

/-- Settles O52: the scan copies every cell, and neither the window nor the completion writes the shadow buffer. -/
theorem shadowConverges : Obligations.ShadowConverges := by
  intro s h hr hm
  obtain ⟨t, ends, copied⟩ := tracked_display_ends h hr hm
  obtain ⟨es, run⟩ := ends.run
  have fb : t.fb = s.fb := run.same.fb
  exact ⟨t, run.reach, run.rest, fun x hx => ⟨copied x hx, by rw [fb]⟩⟩

/-- Once the shadow buffer is a copy of the framebuffer, no cell is changed. -/
theorem unchanged_of_shadowCopied {s t : State} (hw : s.cfg.WellFormed) (copied : ShadowCopied s t)
    (cfg : t.cfg = s.cfg) (fb : t.fb = s.fb) : t.changedExactly fun _ _ => False := by
  intro p c hp hc
  rw [cfg] at hp hc
  have same := copied _ (idx_lt_fbSize hw hp hc)
  simp [State.changed, cfg, fb, same]

/-- Settles O55: the first DISPLAY leaves no changed cell, so the second is one of an unchanged frame. -/
theorem secondDisplaySendsNothing : Obligations.SecondDisplaySendsNothing := by
  intro s h hr hm
  obtain ⟨t, ends, copied⟩ := tracked_display_ends h hr hm
  obtain ⟨es, first⟩ := ends.run
  have cfg : t.cfg = s.cfg := first.same.cfg
  have none_changed : ({ t with opreq := 0b10#2 } : State).changedExactly fun _ _ => False :=
    unchanged_of_shadowCopied h.configOk copied cfg first.same.fb
  obtain ⟨fault, idle, -⟩ := first.rest
  obtain ⟨-, -, connected, -, host⟩ := hr
  have requested : ({ t with opreq := 0b10#2 } : State).displayRequested :=
    ⟨fault, idle, first.same.conn.trans connected, rfl, first.same.host.trans host⟩
  obtain ⟨u, second⟩ := unchanged_display_run (inv_congr first.inv rfl) requested (by rw [← hm, ← cfg])
    none_changed
  exact ⟨t, u, first.reach, first.rest, second.reach, second.rest, by rw [second.trace, ← cfg]⟩

end Sys2Proof.Machine
end

section
/-! PROOFS. What a DISPLAY sends in special cases, and what it costs (spec/42_display_tracked.md R142, R143, R145,
spec/43_display_full.md R157). -/

namespace Sys2Proof.Machine

/-! One and two changed cells. -/

/-- The box of one cell. -/
theorem BoundingBox.cell (p c : Nat) : BoundingBox (fun p' c' => p' = p ∧ c' = c) c c p p :=
  .row (R := (· = c)) p rfl rfl fun _ h => ⟨h.ge, h.le⟩

/-- The changed cells have the box of the set they are known to be. -/
theorem State.changedExactly.dirtyRect {s : State} {d : Nat → Nat → Prop} {c0 c1 p0 p1 : Nat}
    (h : s.changedExactly d) (inside : ∀ p c, d p c → p < s.cfg.np ∧ c < s.cfg.w)
    (box : BoundingBox d c0 c1 p0 p1) : s.dirtyRect c0 c1 p0 p1 := by
  have same : d = fun p c => p < s.cfg.np ∧ c < s.cfg.w ∧ s.changed p c := by
    funext p c
    refine propext ⟨fun hd => ?_, fun ⟨hp, hc, changed⟩ => (h p c hp hc).1 changed⟩
    obtain ⟨hp, hc⟩ := inside p c hd
    exact ⟨hp, hc, (h p c hp hc).2 hd⟩
  exact dirtyRect_of_boundingBox (same ▸ box)

/-- A Mode A DISPLAY that sends adds the window's six command frames and its bytes to the controller stream. -/
theorem controllerStream_trackedTrace {s : State} (h : s.Inv) (c0 c1 p0 p1 : Nat) :
    controllerStream (s.trace ++ trackedTrace s.cfg s.fb c0 c1 p0 p1) = controllerStream s.trace
      ++ windowFrames s.cfg (BitVec.ofNat 8 c0) (BitVec.ofNat 8 c1) (BitVec.ofNat 8 p0) (BitVec.ofNat 8 p1)
      ++ dataFrames (windowBytes s.cfg s.fb c0 c1 p0 p1) := by
  have bytes : bytesOf (windowRun s.cfg s.fb c0 c1 p0 p1) = windowBytes s.cfg s.fb c0 c1 p0 p1 :=
    bytes_window _ _ _ _ _ _
  have tail := stream_tail s.cfg s.bus (BitVec.ofNat 8 c0) (BitVec.ofNat 8 c1) (BitVec.ofNat 8 p0)
    (BitVec.ofNat 8 p1) _ (quietly_window s.cfg s.fb c0 c1 p0 p1)
  rw [controllerStream_after_events h, trackedTrace]
  simp only [List.append_assoc] at tail ⊢
  rw [stream_replicate, tail, bytes]
  rfl

theorem windowBytes_cell (cfg : Config) (fb : Memory) (c p : Nat) :
    windowBytes cfg fb c c p p = [(fb.read (cfg.idx p c)).getD 0#8] := by
  simp [windowBytes, fromTo]

/-- Settles O53: the box of one cell is that cell, and its window has one byte. -/
theorem oneCellWindow : Obligations.OneCellWindow := by
  intro s p c h hr hm hp hc changed
  obtain ⟨t, run⟩ := changed_display_run h hr hm
    (changed.dirtyRect (fun _ _ ⟨hp', hc'⟩ => ⟨hp' ▸ hp, hc' ▸ hc⟩) (.cell p c))
  obtain ⟨d, hd, -⟩ := fbRead_total h.fbShape (idx_lt_fbSize h.configOk hp hc)
  refine ⟨t, d, run.reach, run.rest, hd, ?stream, run.minP, run.maxP, run.minC, run.maxC⟩
  rw [run.trace, controllerStream_trackedTrace h, windowBytes_cell, hd]
  rfl

/-- Settles O54: the box of two cells is the coordinate-wise least and greatest of them. -/
theorem twoCellsWindow : Obligations.TwoCellsWindow := by
  intro s p1 c1 p2 c2 h hr hm hp1 hc1 hp2 hc2 changed
  have inside : ∀ p c, (p = p1 ∧ c = c1) ∨ (p = p2 ∧ c = c2) → p < s.cfg.np ∧ c < s.cfg.w := by
    rintro p c (⟨rfl, rfl⟩ | ⟨rfl, rfl⟩)
    · exact ⟨hp1, hc1⟩
    · exact ⟨hp2, hc2⟩
  obtain ⟨t, run⟩ := changed_display_run h hr hm
    (changed.dirtyRect inside ((BoundingBox.cell p1 c1).union (.cell p2 c2)))
  exact ⟨t, run.reach, run.rest, run.trace, run.minC, run.maxC, run.minP, run.maxP⟩

/-! The cost of a DISPLAY. -/

@[simp] theorem eventCounts_append (as bs : List Event) :
    eventCounts (as ++ bs) = eventCounts as + eventCounts bs := by
  simp [eventCounts]

@[simp] theorem eventCounts_yields (n : Nat) : eventCounts (List.replicate n .yield) = (0, 0, n) := by
  simp [eventCounts, List.countP_replicate, Event.isXfer, Event.isLvl, Event.isYield]

@[simp] theorem eventCounts_setwindow (cfg : Config) (c0 c1 p0 p1 : Byte) :
    eventCounts (Event.setwindow cfg c0 c1 p0 p1) = (6, 6 * 4, 0) := rfl

@[simp] theorem eventCounts_dopen : eventCounts Event.dopen = (0, 3, 0) := rfl

@[simp] theorem eventCounts_dclose (cfg : Config) :
    eventCounts (Event.dclose cfg) = (0, 1 + cfg.dcRestore.toNat, 0) := by
  unfold Event.dclose
  cases cfg.dcRestore with
  | false => rfl
  | true => rfl

@[simp] theorem eventCounts_done (o : HostOp) : eventCounts [.done o] = (0, 0, 0) := rfl

/-- A row of a Mode A window: its cells and a yield (spec/42_display_tracked.md R137). -/
theorem eventCounts_row (cfg : Config) (fb : Memory) (c0 c1 p : Nat) :
    eventCounts (rowEvents cfg fb c0 c1 p) = (c1 + 1 - c0, 0, 1) := by
  simp [rowEvents, fromTo, eventCounts, List.countP_map, Function.comp_def, xferOf, Event.isXfer, Event.isLvl,
    Event.isYield]

theorem eventCounts_rows (cfg : Config) (fb : Memory) (c0 c1 : Nat) (ps : List Nat) :
    eventCounts (ps.flatMap (rowEvents cfg fb c0 c1)) = ((c1 + 1 - c0) * ps.length, 0, ps.length) := by
  induction ps with
  | nil => rfl
  | cons p ps ih =>
    rw [List.flatMap_cons, eventCounts_append, eventCounts_row, ih, List.length_cons, Nat.mul_succ,
      Nat.add_comm _ (c1 + 1 - c0), Nat.add_comm ps.length]
    rfl

@[simp] theorem eventCounts_windowRun (cfg : Config) (fb : Memory) (c0 c1 p0 p1 : Nat) :
    eventCounts (windowRun cfg fb c0 c1 p0 p1) = ((c1 + 1 - c0) * (p1 + 1 - p0), 0, p1 + 1 - p0) := by
  have rows := eventCounts_rows cfg fb c0 c1 (fromTo p0 p1)
  rw [fromTo, List.length_range'] at rows
  exact rows

/-- The bytes of a Mode B run with their yields (spec/43_display_full.md R153). -/
theorem eventCounts_bytes (cfg : Config) (fb : Memory) (n : Nat) :
    eventCounts ((List.range n).flatMap (byteEvents cfg fb)) = (n, 0, n / cfg.yieldPeriodB) := by
  induction n with
  | zero => simp [eventCounts]
  | succ n ih =>
    have one : eventCounts (byteEvents cfg fb n) = (1, 0, if cfg.yieldPeriodB ∣ n + 1 then 1 else 0) := by
      simp only [byteEvents, Nat.dvd_iff_mod_eq_zero]
      split <;> rfl
    rw [List.range_succ, List.flatMap_append, eventCounts_append, ih, List.flatMap_singleton, one, Nat.succ_div]
    rfl

@[simp] theorem eventCounts_frameRun (cfg : Config) (fb : Memory) :
    eventCounts (frameRun cfg fb) = (cfg.fbSize, 0, cfg.fbSize / cfg.yieldPeriodB) :=
  eventCounts_bytes cfg fb cfg.fbSize

theorem State.dirtyRect.ordered {s : State} {c0 c1 p0 p1 : Nat} (h : s.dirtyRect c0 c1 p0 p1) :
    c0 ≤ c1 ∧ p0 ≤ p1 := by
  obtain ⟨inside, ⟨c, hc, changed⟩, -, -, -, hp, -⟩ := h
  have := inside p0 c hp hc changed
  omega

theorem eventCounts_trackedTrace (cfg : Config) (fb : Memory) {c0 c1 p0 p1 : Nat} (hc : c0 ≤ c1) (hp : p0 ≤ p1) :
    eventCounts (trackedTrace cfg fb c0 c1 p0 p1) = (6 + (c1 - c0 + 1) * (p1 - p0 + 1),
      6 * 4 + 3 + 1 + cfg.dcRestore.toNat, cfg.np + (p1 - p0 + 1)) := by
  simp [trackedTrace, Nat.sub_add_comm hc, Nat.sub_add_comm hp, ← Nat.add_assoc]

theorem eventCounts_idleTrace (cfg : Config) : eventCounts (idleTrace cfg) = (0, 0, cfg.np) := by
  simp [idleTrace]

theorem eventCounts_fullTrace (cfg : Config) (fb : Memory) :
    eventCounts (fullTrace cfg fb) = (6 + cfg.fbSize, 6 * 4 + 3 + 1 + cfg.dcRestore.toNat,
      cfg.fbSize / cfg.yieldPeriodB) := by
  simp [fullTrace, ← Nat.add_assoc]

/-- Settles O57: the counts of the trace of each kind of DISPLAY add up over its parts. -/
theorem displayCost : Obligations.DisplayCost := by
  refine ⟨fun s c0 c1 p0 p1 h hr hm hd => ?window, fun s h hr hm none_changed => ?idle, fun s h hr hm => ?full⟩
  case window =>
    obtain ⟨columns, pages⟩ := hd.ordered
    obtain ⟨t, run⟩ := changed_display_run h hr hm hd
    exact ⟨t, _, run.reach, run.rest, run.trace, eventCounts_trackedTrace _ _ columns pages⟩
  case idle =>
    obtain ⟨t, run⟩ := unchanged_display_run h hr hm none_changed
    exact ⟨t, _, run.reach, run.rest, run.trace, eventCounts_idleTrace _⟩
  case full =>
    obtain ⟨t, run⟩ := full_display_run h hr hm
    exact ⟨t, _, run.reach, run.rest, run.trace, eventCounts_fullTrace _ _⟩

end Sys2Proof.Machine
end

section
/-! PROOFS. A Mode B DISPLAY (spec/43_display_full.md R150 to R157): the lines where its whole trace leaves them, and
what each of its statements leaves alone. -/

namespace Sys2Proof.Machine

/-! The whole trace. -/

/-- Transfers and yields move no line (spec/10_state.md R33). -/
theorem bus_after_dataEvents {es : List Event} (h : DataEvents es) (v : BusView) : es.foldl BusView.after v = v := by
  induction es with
  | nil => rfl
  | cons e es ih =>
    have kept : v.after e = v := by
      cases e with
      | xfer | yield => rfl
      | _ => simpa [Event.isXfer, Event.isYield] using h _ List.mem_cons_self
    rw [List.foldl_cons, kept, ih fun x hx => h x (List.mem_cons_of_mem _ hx)]

/-- A command bracket leaves the controller deselected in command mode (spec/40_bus_primitives.md R102). -/
theorem bus_after_sendcmd (b : Byte) (v : BusView) :
    (Event.sendcmd b).foldl BusView.after v = { v with csN := .known .high, dc := .known .low } := rfl

theorem bus_after_setwindow (cfg : Config) (c0 c1 p0 p1 : Byte) (v : BusView) :
    (Event.setwindow cfg c0 c1 p0 p1).foldl BusView.after v = { v with csN := .known .high, dc := .known .low } := by
  simp only [Event.setwindow, List.foldl_append, bus_after_sendcmd]

/-- Where the closing of the data bracket leaves the lines (spec/40_bus_primitives.md R103). -/
theorem bus_after_dclose (cfg : Config) (v : BusView) : (Event.dclose cfg).foldl BusView.after v
    = { v with csN := .known .high, dc := if cfg.dcRestore = true then .known .low else v.dc } := by
  unfold Event.dclose
  split <;> rfl

/-- `DOPEN` raises `DC`, the data run moves no line, and `DCLOSE` raises `CS_N` (spec/43_display_full.md R155). -/
theorem bus_after_fullTrace (cfg : Config) (fb : Memory) (v : BusView) : (fullTrace cfg fb).foldl BusView.after v
    = { v with csN := .known .high, dc := if cfg.dcRestore = true then .known .low else .known .high } := by
  simp [fullTrace, bus_after_setwindow, bus_after_dataEvents (frameRun_dataEvents cfg fb), bus_after_dclose,
    Event.dopen, BusView.after]

/-- Settles O56: `full_display_run` gives the trace, and at rest the lines are where that trace leaves them. -/
theorem fullDisplayTrace : Obligations.FullDisplayTrace := by
  intro s h hr hm
  obtain ⟨t, run⟩ := full_display_run h hr hm
  obtain ⟨-, -, connected, -⟩ := hr
  have bus := (bus_after_events h run.inv run.trace).trans (bus_after_fullTrace s.cfg s.fb s.bus)
  exact ⟨t, run.reach, run.rest, run.trace, congrArg BusView.csN bus, congrArg BusView.dc bus,
    run.same.conn.trans connected, run.same.result, run.same.cfg, fun a => by rw [run.same.fb]; rfl⟩

/-! What each step leaves alone. -/

/-- `t` differs from `s` at most in the list of spec/43_display_full.md R150, the request port, the receiver and
`FAULT`. -/
def FullFrame (s t : State) : Prop :=
  t = { s with
    i := t.i, csN := t.csN, dc := t.dc, busy := t.busy, seq := t.seq, trace := t.trace, opreq := t.opreq, rx := t.rx,
    fault := t.fault }

/-- Each statement of Mode B's DISPLAY, by what the inversion of its operation says. -/
theorem displayStep_full_frame {s t : State} (ho : s.seq.owner = some .displayFull) (h : displayStep s = .ok t) :
    FullFrame s t := by
  revert h
  unfold displayStep
  cases e : s.seq with
  | idle | connect k | a1 | scan | a4 | a8 | a9 => rw [e] at ho; cases ho
  | finish m =>
    intro h
    cases h
    rfl
  | cmd m slot st =>
    intro h
    obtain ⟨b, -, h⟩ := Res.bind_eq_ok.1 h
    obtain ⟨m', slot', st', -, ht⟩ := sendCommand_inv h
    rw [FullFrame, ht]
  | b4 =>
    intro h
    obtain ⟨b, -, h⟩ := Res.bind_eq_ok.1 h
    obtain ⟨atA8, -⟩ | ⟨-, i, q, rfl⟩ := sendData_inv h
    · cases e.symm.trans atA8
    · rfl
  | b4Yield =>
    intro h
    obtain ⟨i, q, rfl⟩ := nextByte_inv h
    rfl
  | dopen m st =>
    obtain rfl : m = .full := by
      rw [e] at ho
      cases m with
      | tracked => cases ho
      | full => rfl
    intro h
    obtain ⟨⟨ev, ht⟩, keeps_counters, -⟩ := dopenStep_inv h
    obtain ⟨hp, hc⟩ := keeps_counters rfl
    rw [FullFrame, ht, hp, hc]
  | dclose m st =>
    intro h
    obtain ⟨ev, ht⟩ := dcloseStep_inv h
    rw [FullFrame, ht]

/-- The body of a DISPLAY row makes the next statement of its operation, or accepts a request. -/
theorem displayBody_inv {m : Mode} {i : Instr} {first : Seq} {s t : State} (h : displayBody m i first s = .ok t) :
    (s.seq.owner = some i ∧ displayStep s = .ok t) ∨ accept (.op .display) first s = .ok t := by
  unfold displayBody at h
  split at h
  · split at h
    · next running => exact .inl ⟨(of_decide_eq_true running).2, h⟩
    · exact .inr h
  · cases h

/-- The row DISPLAY_FULL makes the next statement, accepts a request, or raises. -/
theorem execDisplayFull_frame {s t : State} (h : exec .displayFull s = .next t) : FullFrame s t := by
  obtain ⟨-, ok | ⟨r, -, rfl⟩⟩ := settle_eq_next.1 h
  · obtain ⟨owner, statement⟩ | accepted := displayBody_inv ok
    · exact displayStep_full_frame owner statement
    · obtain ⟨-, rfl⟩ := accept_eq_ok.1 accepted
      rfl
  · rfl

/-- Settles O32: no statement leaves the list of R150, in which neither memory stands. -/
theorem frameOfDisplayFull : Obligations.FrameOfDisplayFull := by
  intro s t h
  have frame := execDisplayFull_frame h
  exact ⟨fun a => by rw [frame], fun a => by rw [frame], frame⟩

end Sys2Proof.Machine
end

section
/-! PROOFS. Faults (spec/60_exceptions.md R160 to R167): the acceptance step, what a raise changes, that a faulted FBTX
stands still, the reads of unwritten registers, and where under the invariant a fault can come from. -/

namespace Sys2Proof.Machine

/-! The acceptance step. -/

/-- What a code on the port asks for (spec/30_encoding.md R70). -/
def requestOf (code : OpReq) : Request :=
  if code = 0b11#2 then .reserved else if code = 0b01#2 then .op .connect else .op .display

/-- The reserved request has no first label: it is never accepted. -/
theorem accept_reserved_label (q q' : Seq) (s : State) : accept .reserved q s = accept .reserved q' s := by
  cases hb : s.busy <;> simp [accept, acceptFault, hb]

/-- With a request on the port the step is the acceptance of that request (spec/30_encoding.md R71). -/
theorem step_requested {s : State} (hw : s.cfg.WellFormed) (hf : s.fault = none) (hq : s.opreq ≠ 0#2) :
    step s = settle s (accept (requestOf s.opreq) (firstLabel s.cfg.mode s.opreq) s) := by
  have runs (i : Instr) (hd : decodeRequest s.cfg.mode s.opreq = .ok i) : step s = exec i s :=
    (stepRunsTheFetchedInstruction s i hw hf).1 hd
  obtain code | code | code | code := opReq_cases s.opreq
  · exact absurd code hq
  · rw [runs .connect (by rw [code]; rfl), exec_connect_requested hq, code]
    rfl
  · rw [runs _ (by rw [code]; exact decodeRequest_display _), exec_display_requested hq rfl, code]
    rfl
  · rw [runs .reservedOp (by rw [code]; rfl), code]
    exact congrArg (settle s) (accept_reserved_label ..)

/-- Settles O6: the step is the acceptance of the request; `BUSY` is checked first, then what the code asks for. -/
theorem acceptanceStep : Obligations.AcceptanceStep := by
  intro s hw hf hq
  have raised {r : Fault} {first : Seq} (h : acceptFault s (requestOf s.opreq) = some r) :
      settle s (accept (requestOf s.opreq) first s) = .next (s.raise r) := by
    rw [accept_raises h, settle_raises hf]
  rw [step_requested hw hf hq]
  split_ifs with busy reserved reconnect unconnected
  · exact raised (acceptFault_busy busy)
  · exact raised (by simp [acceptFault, busy, requestOf, reserved])
  · obtain ⟨code, conn⟩ := reconnect
    exact raised (by simp [acceptFault, busy, requestOf, code, conn])
  · obtain ⟨code, conn⟩ := unconnected
    exact raised (by simp [acceptFault, busy, requestOf, code, conn])
  · have free : s.busy = false := by simpa using busy
    obtain code | code | code | code := opReq_cases s.opreq
    · exact absurd code hq
    · have conn : s.connected = false := by simpa [code] using reconnect
      rw [code]
      exact settle_accepts (o := .connect) hf free (by simp [conn])
    · have conn : s.connected = true := by simpa [code] using unconnected
      rw [code]
      exact settle_accepts (o := .display) hf free (by simp [conn])
    · exact absurd code reserved

/-! A faulted FBTX stands still. -/

/-- Every row runs its body under `settle`, which answers a standing fault. -/
theorem exec_faulted {s : State} {f : FaultRecord} (hf : s.fault = some f) (i : Instr) :
    exec i s = .fault f.reason := by
  cases i <;> exact settle_faulted hf

/-- Settles O10: neither `step` nor any row gets past a standing fault. -/
theorem faultedTakesNoStep : Obligations.FaultedTakesNoStep :=
  fun _ _ hf => ⟨fun hw => step_faulted hw hf, exec_faulted hf⟩

/-! What a raise changes. -/

theorem fault_none_of_exec {s t : State} {i : Instr} (h : exec i s = .next t) : s.fault = none := by
  cases hf : s.fault with
  | none => rfl
  | some f => rw [exec_faulted hf] at h; cases h

/-- `FAULT` is written by a raise, which writes nothing else, or not at all (spec/60_exceptions.md R160). -/
def FaultOnlyRaised (s t : State) : Prop := (∃ r, t = s.raise r) ∨ t.fault = s.fault

/-- From a state without a fault to one with a fault, a raise is all that happened. -/
theorem FaultOnlyRaised.raised {s t : State} {f : FaultRecord} (h : FaultOnlyRaised s t) (hs : s.fault = none)
    (ht : t.fault = some f) : f.label = s.seq ∧ t = { s with fault := some f } := by
  obtain ⟨r, rfl⟩ | kept := h
  · cases ht
    exact ⟨rfl, rfl⟩
  · cases ht.symm.trans (kept.trans hs)

theorem displayStep_fault {s t : State} (h : displayStep s = .ok t) : FaultOnlyRaised s t := by
  cases displayStep_effect h with
  | raised r ht => exact .inl ⟨r, ht⟩
  | connects k hk => rw [displayStep, hk] at h; cases h
  | host ht => exact .inr (by rw [ht])
  | accepted first _ ht => exact .inr (by rw [ht])
  | displays e _ _ ht => exact .inr (by rw [ht])
  | completes ht => exact .inr (by rw [ht, complete_fault])

theorem FbtxDoes.fault {s t : State} (h : FbtxDoes s t) : FaultOnlyRaised s t := by
  cases h with
  | waits ht => exact .inr (by rw [ht])
  | raises r ht => exact .inl ⟨r, ht⟩
  | accepts q first h =>
    obtain ⟨-, ht⟩ := accept_eq_ok.1 h
    exact .inr (by rw [ht])
  | connects k h =>
    obtain ⟨ev, ht⟩ := connectStep_inv h
    exact .inr (by rw [ht])
  | displays h => exact displayStep_fault h
  | command b h =>
    obtain ⟨m, slot, st, -, ht⟩ := sendCommand_inv h
    exact .inr (by rw [ht])
  | data d h =>
    obtain ⟨-, c, q, ht⟩ | ⟨-, i, q, ht⟩ := sendData_inv h <;> exact .inr (by rw [ht, State.sent_fault])

theorem hostMove_fault {m : HostMove} {s t : State} (h : hostMove m s = .hostActs (.ok t)) : t.fault = s.fault := by
  rw [(hostMove_inv h rfl).1]

/-- Settles O9: a step of FBTX touches `FAULT` only by raising, and a host move that completes does not touch it. -/
theorem raisingChangesOnlyFault : Obligations.RaisingChangesOnlyFault := by
  refine ⟨fun s t f h ht => ?step, fun s t i f h ht => ?exec, fun s f => runOver_of_faulted⟩
  case step =>
    obtain ⟨-, hf⟩ := step_next h
    obtain ⟨moves, work⟩ := step_does h
    have raised : FaultOnlyRaised { s with host := moves } t := by
      obtain fbtx | ⟨m, hacts⟩ := work
      · exact fbtx.fault
      · exact .inr (hostMove_fault hacts)
    obtain ⟨label, rfl⟩ := raised.raised hf ht
    exact ⟨hf, label, rfl⟩
  case exec =>
    have hf := fault_none_of_exec h
    exact ⟨hf, (exec_does h).fault.raised hf ht⟩

/-! Reads of unwritten registers. -/

/-- Where the byte of the statement in progress cannot be read, the step raises. -/
theorem step_of_frame_raises {s : State} {r : Fault} (hw : s.cfg.WellFormed) (hf : s.fault = none)
    (hq : s.opreq = 0#2) (hh : s.host = []) (h : frameInProgress s = .error (.raises r)) :
    step s = .next (s.raise r) := by
  have fetched : fetch s = .error (.raises r) := by simp [fetch, hq, h]
  rw [step_of_noMoves hw hf hq hh, fbtxStep, fetched]
  exact settle_raises hf

theorem frameInProgress_cmd_raises {s : State} {m : Mode} {slot : CmdSlot} {st : BracketStep} {r : Fault}
    (e : s.seq = .cmd m slot st) (h : slotByte m slot s = .error (.raises r)) :
    frameInProgress s = .error (.raises r) := by
  simp [frameInProgress, e, h]

/-- Settles O11: each statement reads its byte before anything else, and the read raises. -/
theorem unwrittenRegisterFaults : Obligations.UnwrittenRegisterFaults := by
  intro s hw hf hq hh
  have raises := step_of_frame_raises (r := .unwrittenReg) hw hf hq hh
  refine ⟨fun st e hr => ?minC, fun st e hr => ?maxC, fun st e hr => ?minP, fun st e hr => ?maxP,
    fun e hr => ?p, fun p e hp hr => ?c, fun e hr => ?i⟩
  case minC | maxC | minP | maxP => exact raises (frameInProgress_cmd_raises e (by simp [slotByte, hr]))
  case p => exact raises (by simp [frameInProgress, e, windowByte, hr])
  case c => exact raises (by simp [frameInProgress, e, windowByte, hp, hr])
  case i => exact raises (by simp [frameInProgress, e, frameByte, hr])

/-! Where a fault comes from. -/

theorem Reg.get_eq_raises {n : Nat} {reg : Reg n} {r : Fault} :
    reg.get = .error (.raises r) ↔ r = .unwrittenReg ∧ reg = .unwritten := by
  cases reg with
  | unwritten => simp [eq_comm]
  | holds v => simp

/-- A full framebuffer fails to read only outside its range. -/
theorem fbRead_raises {s : State} {x : Nat} {r : Fault} (hfb : s.fb.addresses = List.range s.cfg.fbSize)
    (h : fbRead s x = .error (.raises r)) : r = .fbRange ∧ s.cfg.fbSize ≤ x := by
  by_cases inside : x < s.cfg.fbSize
  · obtain ⟨v, -, reads⟩ := fbRead_total hfb inside
    rw [reads] at h
    cases h
  · rw [fbRead, if_neg inside] at h
    cases h
    exact ⟨rfl, Nat.le_of_not_lt inside⟩

theorem fbWrite_raises {s : State} {x : Nat} {v : Byte} {r : Fault} (h : fbWrite s x v = .error (.raises r)) :
    (r = .fbWriteBusy ∧ s.busy = true) ∨ (r = .fbRange ∧ s.busy = false ∧ s.cfg.fbSize ≤ x) := by
  unfold fbWrite at h
  split at h
  · next busy => cases h; exact .inl ⟨rfl, busy⟩
  · next free =>
    split at h
    · cases h
    · next outside => cases h; exact .inr ⟨rfl, by simpa using free, Nat.le_of_not_lt outside⟩

/-- A host move that raises: a write of the framebuffer while `BUSY = 1` or out of range, or a read of `RESULT` before
it is written (spec/20_memory.md R51, R57; notes/assumptions/17.md, 18.md). -/
theorem hostMove_raises {m : HostMove} {s : State} {r : Fault} (hfb : s.fb.addresses = List.range s.cfg.fbSize)
    (h : hostMove m s = .hostActs (.error (.raises r))) :
    (r = .fbWriteBusy ∧ s.busy = true ∧ ((∃ i v, m = .fbw i v) ∨ ∃ x y v, m = .pix x y v))
      ∨ (r = .fbRange ∧ s.busy = false
          ∧ ((∃ i v, m = .fbw i v ∧ s.cfg.fbSize ≤ i)
            ∨ ∃ x y v, m = .pix x y v ∧ s.cfg.fbSize ≤ s.cfg.pixelIndex x y))
      ∨ (r = .unwrittenReg ∧ m = .readResult ∧ s.result = .unwritten) := by
  cases m with
  | fbw i v =>
    obtain ⟨hr, busy⟩ | ⟨hr, free, outside⟩ := fbWrite_raises (MoveEffect.hostActs.inj h)
    · exact .inl ⟨hr, busy, .inl ⟨i, v, rfl⟩⟩
    · exact .inr (.inl ⟨hr, free, .inl ⟨i, v, rfl, outside⟩⟩)
  | pix x y v =>
    have body := MoveEffect.hostActs.inj h
    split at body
    · next busy => cases body; exact .inl ⟨rfl, busy, .inr ⟨x, y, v, rfl⟩⟩
    · next free =>
      have free : s.busy = false := by simpa using free
      have range : r = .fbRange ∧ s.cfg.fbSize ≤ s.cfg.pixelIndex x y := by
        obtain unread | ⟨u, -, unwritten⟩ := Res.bind_eq_error.1 body
        · exact fbRead_raises hfb unread
        · obtain ⟨-, busy⟩ | ⟨hr, -, outside⟩ := fbWrite_raises unwritten
          · rw [free] at busy; cases busy
          · exact ⟨hr, outside⟩
      exact .inr (.inl ⟨range.1, free, .inr ⟨x, y, v, rfl, range.2⟩⟩)
  | readResult =>
    obtain unread | ⟨u, -, done⟩ := Res.bind_eq_error.1 (MoveEffect.hostActs.inj h)
    · obtain ⟨hr, unwritten⟩ := Reg.get_eq_raises.1 unread
      exact .inr (.inr ⟨hr, rfl, unwritten⟩)
    · cases done
  | present code | hold | resume => cases h
  | wait | never w => rw [hostMove] at h; split at h <;> cases h

/-- A request raises one of the four faults of acceptance (spec/60_exceptions.md R162). -/
theorem request_fault {s t : State} {f : FaultRecord} (hq : s.opreq ≠ 0#2) (h : step s = .next t)
    (ht : t.fault = some f) :
    f.reason = .busy ∨ f.reason = .reservedOp ∨ f.reason = .notConnected ∨ f.reason = .reconnect := by
  obtain ⟨hw, hf⟩ := step_next h
  obtain rfl := Host.Outcome.next.inj ((acceptanceStep s hw hf hq).symm.trans h)
  split_ifs at ht
  · cases ht; exact .inl rfl
  · cases ht; exact .inr (.inl rfl)
  · cases ht; exact .inr (.inr (.inr rfl))
  · cases ht; exact .inr (.inr (.inl rfl))
  · cases hf.symm.trans ht

/-- With no request on the port, FBTX itself raises nothing. -/
theorem fbtxStep_fault_none {s t : State} (h : s.Inv) (hf : s.fault = none) (hq : s.opreq = 0#2)
    (ht : fbtxStep s = .next t) : t.fault = none := by
  obtain ⟨u, hu, -, uf, -⟩ := fbtx_progress h hf hq
  rw [hu] at ht
  cases ht
  exact uf

/-- Settles O43: a request is accepted or raises one of its own faults; without one FBTX raises nothing
(`fbtx_progress`), which leaves the host's move. -/
theorem faultsComeFromTheHost : Obligations.FaultsComeFromTheHost := by
  intro s t f inv hf h ht
  by_cases hq : s.opreq = 0#2
  case neg => exact .inl ⟨hq, request_fault hq h ht⟩
  case pos =>
    cases hh : s.host with
    | nil =>
      rw [step_of_noMoves inv.configOk hf hq hh] at h
      cases ht.symm.trans (fbtxStep_fault_none inv hf hq h)
    | cons m rest =>
      refine .inr ⟨hq, m, rest, rfl, ?_⟩
      rw [step_afterMove inv.configOk hf hq hh] at h
      have inv' : ({ s with host := movesAfter s m rest } : State).Inv := inv_congr inv rfl
      cases acts : hostMove m { s with host := movesAfter s m rest } with
      | hostActs body =>
        rw [acts] at h
        obtain ⟨-, rfl | ⟨r, rfl, rfl⟩⟩ := settle_eq_next.1 h
        · cases ht.symm.trans ((hostMove_fault acts).trans hf)
        · cases ht
          exact hostMove_raises (s := { s with host := movesAfter s m rest }) inv.fbShape acts
      | fbtxRuns =>
        rw [acts] at h
        cases ht.symm.trans (fbtxStep_fault_none inv' hf hq h)

end Sys2Proof.Machine
end

section
/-! PROOFS. An operation in progress comes to its end (spec/70_reset_and_hazards.md R191): every step of FBTX off `IDLE`
brings its rank down. The rank counts, in this order, the labels of the operation still ahead, the rounds left of the
loop in progress, and the turns left of the round. -/

namespace Sys2Proof.Machine

/-! The rank. -/

/-- The brackets of a window that follow (spec/30_encoding.md R79). -/
def CmdSlot.after : CmdSlot → Nat
  | .colOp => 5
  | .colFirst => 4
  | .colLast => 3
  | .pageOp => 2
  | .pageFirst => 1
  | .pageLast => 0

/-- The statements left of a bracket, this one among them (spec/40_bus_primitives.md R102). -/
def BracketStep.left : BracketStep → Nat
  | .deselect => 5
  | .command => 4
  | .select => 3
  | .transfer => 2
  | .release => 1

/-- How far a position is from `IDLE`, the labels of one data run counted as one. -/
def Seq.stage : Seq → Nat
  | .idle => 0
  | .connect k => 12 - k.number
  | .a4 | .finish _ => 1
  | .dclose _ .dcLow => 2
  | .dclose _ .deselect => 3
  | .a8 | .a9 | .b4 | .b4Yield => 4
  | .dopen _ .select => 5
  | .dopen _ .dataMode => 6
  | .dopen _ .deselect => 7
  | .cmd _ slot st => 7 + 5 * slot.after + st.left
  | .scan => 38
  | .a1 => 39

/-- What a counter holds, 0 when it is unwritten. -/
def Reg.value {n : Nat} : Reg n → Nat
  | .unwritten => 0
  | .holds v => v.toNat

/-- The rounds left of the loop in progress: page rows in Mode A, bytes in Mode B. -/
def State.roundsLeft (s : State) : Nat :=
  match s.seq with
  | .scan | .a8 | .a9 => s.cfg.np - s.p.value
  | .b4 | .b4Yield => s.cfg.fbSize - s.i.value
  | _ => 0

/-- The turns left of the round in progress before its yield. -/
def State.turnsLeft (s : State) : Nat :=
  match s.seq with
  | .a8 => s.cfg.w - s.c.value
  | .b4 => 1
  | _ => 0

/-- What is left of the operation in progress, the coarsest count first. -/
def State.rank (s : State) : Nat ×ₗ Nat ×ₗ Nat := toLex (s.seq.stage, toLex (s.roundsLeft, s.turnsLeft))

theorem rank_lt_of_stage {s t : State} (stage : t.seq.stage < s.seq.stage) : t.rank < s.rank :=
  Prod.Lex.toLex_lt_toLex.2 (.inl stage)

theorem rank_lt_of_rounds {s t : State} (stage : t.seq.stage ≤ s.seq.stage) (rounds : t.roundsLeft < s.roundsLeft) :
    t.rank < s.rank :=
  Prod.Lex.toLex_lt_toLex'.2 ⟨stage, fun _ => Prod.Lex.toLex_lt_toLex.2 (.inl rounds)⟩

theorem rank_lt_of_turns {s t : State} (stage : t.seq.stage ≤ s.seq.stage) (rounds : t.roundsLeft ≤ s.roundsLeft)
    (turns : t.turnsLeft < s.turnsLeft) : t.rank < s.rank :=
  Prod.Lex.toLex_lt_toLex'.2 ⟨stage, fun _ => Prod.Lex.toLex_lt_toLex'.2 ⟨rounds, fun _ => turns⟩⟩

/-! The labels of one loop or of none. -/

theorem connectStep_stage {k : ConnectStep} {s t : State} (h : connectStep k s = .ok t) :
    t.seq.stage < (Seq.connect k).stage := by
  cases k with
  | k6 | k8 | k10 =>
    obtain ⟨u, -, h⟩ := Res.bind_eq_ok.1 h
    cases h
    simp [Seq.stage, ConnectStep.number]
  | _ => cases h; simp [Seq.stage, ConnectStep.number]

theorem afterStatement_stage (m : Mode) (slot : CmdSlot) (st : BracketStep) :
    (Seq.afterStatement m slot st).stage < (Seq.cmd m slot st).stage := by
  cases st with
  | release => cases slot <;> simp [Seq.afterStatement, Seq.afterBracket, CmdSlot.next, Seq.stage, CmdSlot.after,
      BracketStep.left]
  | _ => simp [Seq.afterStatement, Seq.stage, BracketStep.left]

theorem dopenStep_stage {m : Mode} {st : OpenStep} {s t : State} (h : s.Inv) (e : s.seq = .dopen m st)
    (ht : dopenStep m st s = .ok t) : t.seq.stage < (Seq.dopen m st).stage := by
  cases st with
  | deselect | dataMode =>
    obtain ⟨u, -, ht⟩ := Res.bind_eq_ok.1 ht
    cases ht
    simp [Seq.stage]
  | select =>
    obtain ⟨u, hu, ht⟩ := Res.bind_eq_ok.1 ht
    obtain ⟨-, rfl⟩ := line_eq_ok.1 hu
    cases m with
    | tracked =>
      have regs := h.registersOk
      simp only [State.registersAtSeq, e] at regs
      obtain ⟨c0, c1, p0, p1, window⟩ := regs
      cases ht.symm.trans (enterTrackedRun_window (s := (s.setLvl .cs .low).emit (.lvl .cs .low)) window)
      simp [Seq.stage]
    | full =>
      cases ht
      simp only [State.goto_seq]
      split <;> simp [Seq.stage]

theorem dcloseStep_stage {m : Mode} {st : CloseStep} {s t : State} (h : dcloseStep m st s = .ok t) :
    t.seq.stage < (Seq.dclose m st).stage := by
  cases st with
  | deselect =>
    obtain ⟨u, -, h⟩ := Res.bind_eq_ok.1 h
    cases h
    simp only [State.goto_seq]
    split <;> simp [Seq.stage]
  | dcLow =>
    obtain ⟨u, -, h⟩ := Res.bind_eq_ok.1 h
    cases h
    simp [Seq.stage]

/-! The loops. -/

/-- After the scan of page row `P` comes the next row, or a later label (spec/42_display_tracked.md R132, R133). -/
theorem scanRow_next {s t : State} {p : BitVec 9} (hp : s.p = .holds p) (h : scanRow s = .ok t) :
    (t.seq = .scan ∧ t.cfg = s.cfg ∧ t.p = .holds (p + 1#9) ∧ (p + 1#9).toNat < s.cfg.np)
      ∨ t.seq.stage < Seq.scan.stage := by
  obtain ⟨u, hu, h⟩ := Res.bind_eq_ok.1 h
  obtain ⟨scanned, -⟩ := scanCells_inv hu
  have ucfg : u.cfg = s.cfg := by rw [scanned]
  have up : u.p = .holds p := by rw [scanned]; exact hp
  obtain ⟨v, yielded, h⟩ := Res.bind_eq_ok.1 h
  cases yielded
  obtain ⟨p', read, h⟩ := Res.bind_eq_ok.1 h
  cases up.symm.trans (Reg.get_eq_ok.1 read)
  simp only at h
  split at h
  · next more =>
    cases h
    exact .inl ⟨rfl, ucfg, rfl, ucfg ▸ more⟩
  · obtain ⟨empty, -, h⟩ := Res.bind_eq_ok.1 h
    cases h
    right
    cases empty <;> simp [Seq.stage, CmdSlot.after, BracketStep.left]

theorem scan_descends {s t : State} (h : s.Inv) (e : s.seq = .scan) (ht : scanRow s = .ok t) : t.rank < s.rank := by
  have regs := h.registersOk
  simp only [State.registersAtSeq, e] at regs
  obtain ⟨⟨p, hp, inside⟩, -⟩ := regs
  obtain ⟨next, cfg, hp', more⟩ | later := scanRow_next hp ht
  · refine rank_lt_of_rounds (by rw [next, e]) ?_
    obtain ⟨-, -, -, np256, -⟩ := wf_facts h.configOk
    have step : (p + 1#9).toNat = p.toNat + 1 := bv9_succ inside np256
    simp only [State.roundsLeft, next, e, cfg, hp, hp', Reg.value]
    omega
  · exact rank_lt_of_stage (by rw [e]; exact later)

/-- A transfer of the Mode A run goes to the next column or to the row's yield (spec/42_display_tracked.md R137). -/
theorem a8_descends {s t : State} {d : Byte} (h : s.Inv) (e : s.seq = .a8) (ht : sendData d s = .ok t) :
    t.rank < s.rank := by
  have regs := h.registersOk
  simp only [State.registersAtSeq, e] at regs
  obtain ⟨c0, c1, p0, p1, window, p, c, hp, hc, -, -, -, inside⟩ := regs
  obtain ⟨-, hmaxC, -, -, -, width, -⟩ := window
  have step : (c + 1#9).toNat = c.toNat + 1 := bv9_succ (n := c1.toNat + 1) (by omega) (by omega)
  rw [sendData_tracked d e] at ht
  obtain ⟨u, hu, ht⟩ := Res.bind_eq_ok.1 ht
  obtain ⟨-, rfl⟩ := xfer_eq_ok.1 hu
  have made := Except.ok.inj (ht.symm.trans (nextColumn_eq (s := s.sent d) hc hmaxC))
  by_cases more : (c + 1#9).toNat ≤ c1.toNat
  · rw [if_pos more] at made
    refine rank_lt_of_turns (by simp [made, e]) (by simp [made, State.roundsLeft, e]) ?_
    simp only [made, State.turnsLeft, e, hc, Reg.value, State.sent_cfg]
    omega
  · rw [if_neg more] at made
    refine rank_lt_of_turns (by simp [made, e, Seq.stage]) (by simp [made, State.roundsLeft, e]) ?_
    simp only [made, State.turnsLeft, e, hc, Reg.value]
    omega

/-- The yield of a row of the Mode A run goes to the next row or closes the data bracket (R137, R138). -/
theorem a9_descends {s t : State} (h : s.Inv) (e : s.seq = .a9) (ht : nextPage (s.emit .yield) = .ok t) :
    t.rank < s.rank := by
  have regs := h.registersOk
  simp only [State.registersAtSeq, e] at regs
  obtain ⟨c0, c1, p0, p1, window, p, hp, -, inside⟩ := regs
  obtain ⟨-, -, -, -, -, -, -, height⟩ := id window
  have step : (p + 1#9).toNat = p.toNat + 1 := bv9_succ (n := p1.toNat + 1) (by omega) (by omega)
  have made := Except.ok.inj (ht.symm.trans (nextPage_eq (s := s.emit .yield) hp window))
  split at made
  · refine rank_lt_of_rounds (by simp [made, e, Seq.stage]) ?_
    simp only [made, State.roundsLeft, e, hp, Reg.value, State.emit_cfg]
    omega
  · exact rank_lt_of_stage (by simp [made, e, Seq.stage])

/-- The next byte of the Mode B run is a round less, and there may be none (spec/43_display_full.md R153, R154). -/
theorem nextByte_next {s t : State} {i : BitVec 17} (hi : s.i = .holds i) (inside : i.toNat < s.cfg.fbSize)
    (small : s.cfg.fbSize ≤ 65536) (ht : nextByte s = .ok t) :
    t.seq.stage ≤ Seq.b4.stage ∧ t.roundsLeft < s.cfg.fbSize - i.toNat := by
  have step : (i + 1#17).toNat = i.toNat + 1 := BitVec.toNat_add_of_lt (by simp only [BitVec.toNat_ofNat]; omega)
  cases ht.symm.trans (nextByte_eq hi)
  by_cases more : (i + 1#17).toNat < s.cfg.fbSize
  · simp only [if_pos more, State.roundsLeft, Reg.value]
    exact ⟨Nat.le_refl _, by omega⟩
  · simp only [if_neg more, State.roundsLeft]
    exact ⟨by decide, by omega⟩

/-- A transfer of the Mode B run goes to its yield or to the next byte. -/
theorem b4_descends {s t : State} {d : Byte} (h : s.Inv) (e : s.seq = .b4) (ht : sendData d s = .ok t) :
    t.rank < s.rank := by
  have regs := h.registersOk
  simp only [State.registersAtSeq, e] at regs
  obtain ⟨i, hi, inside⟩ := regs
  have small := fbsize_le h
  rw [sendData_full d e] at ht
  obtain ⟨u, hu, ht⟩ := Res.bind_eq_ok.1 ht
  obtain ⟨-, rfl⟩ := xfer_eq_ok.1 hu
  obtain ⟨_, -, ht⟩ := Res.bind_eq_ok.1 ht
  split at ht
  · cases ht
    refine rank_lt_of_turns ?_ ?_ ?_
    · simp [e, Seq.stage]
    · simp [State.roundsLeft, e]
    · simp [State.turnsLeft, e]
  · obtain ⟨stage, rounds⟩ := nextByte_next (s := s.sent d) hi inside small ht
    refine rank_lt_of_rounds (by rw [e]; exact stage) ?_
    rw [State.roundsLeft.eq_def s, e, hi]
    exact rounds

/-- The yield of the Mode B run goes to the next byte. -/
theorem b4Yield_descends {s t : State} (h : s.Inv) (e : s.seq = .b4Yield) (ht : nextByte (s.emit .yield) = .ok t) :
    t.rank < s.rank := by
  have regs := h.registersOk
  simp only [State.registersAtSeq, e] at regs
  obtain ⟨i, hi, inside⟩ := regs
  have small := fbsize_le h
  obtain ⟨stage, rounds⟩ := nextByte_next (s := s.emit .yield) hi inside small ht
  refine rank_lt_of_rounds (by rw [e]; exact stage) ?_
  rw [State.roundsLeft.eq_def s, e, hi]
  exact rounds

/-! A step of the operation in progress. -/

/-- The statement of a DISPLAY at each of its positions brings the rank down. -/
theorem displayStep_descends {s t : State} (h : s.Inv) (ht : displayStep s = .ok t) : t.rank < s.rank := by
  have label := ht
  rw [displayStep] at label
  cases e : s.seq with
  | idle | connect k => rw [e] at label; cases label
  | a1 =>
    rw [e] at label
    refine rank_lt_of_stage ?_
    obtain ⟨next, -⟩ | later := scanRow_next (p := 0#9) rfl label
    · rw [next, e]; decide
    · rw [e]; exact later.trans (by decide)
  | scan => exact scan_descends h e (by rwa [e] at label)
  | a4 | finish m =>
    rw [e] at label
    cases label
    exact rank_lt_of_stage (by rw [e]; exact Nat.one_pos)
  | cmd m slot st =>
    refine rank_lt_of_stage ?_
    rw [displayStep_bracket e ht, e]
    exact afterStatement_stage m slot st
  | dopen m st =>
    refine rank_lt_of_stage ?_
    rw [displayStep_dopen e] at ht
    rw [e]
    exact dopenStep_stage h e ht
  | dclose m st =>
    refine rank_lt_of_stage ?_
    rw [displayStep_dclose e] at ht
    rw [e]
    exact dcloseStep_stage ht
  | a8 =>
    rw [e] at label
    obtain ⟨d, -, sent⟩ := Res.bind_eq_ok.1 label
    exact a8_descends h e sent
  | b4 =>
    rw [e] at label
    obtain ⟨d, -, sent⟩ := Res.bind_eq_ok.1 label
    exact b4_descends h e sent
  | a9 => exact a9_descends h e (by rwa [e] at label)
  | b4Yield => exact b4Yield_descends h e (by rwa [e] at label)

/-- Off `IDLE`, `seq` stands in CONNECT or in a DISPLAY (spec/10_state.md R27). -/
theorem operation_of_ne_idle {q : Seq} (h : q ≠ .idle) :
    (∃ k, q = .connect k) ∨ q.owner = some .displayTracked ∨ q.owner = some .displayFull := by
  cases q with
  | idle => exact absurd rfl h
  | connect k => exact .inl ⟨k, rfl⟩
  | a1 | scan | a4 | a8 | a9 => exact .inr (.inl rfl)
  | b4 | b4Yield => exact .inr (.inr rfl)
  | cmd m slot st => exact .inr (owner_cmd m slot st)
  | dopen m st => exact .inr ((owner_m m).1 st)
  | dclose m st => exact .inr ((owner_m m).2.1 st)
  | finish m => exact .inr (owner_m m).2.2

/-- A step of the operation in progress brings the rank down; and FBTX is connected where it ends the operation
(spec/41_connect.md R122, spec/60_exceptions.md R162). -/
theorem fbtxStep_descends {s t : State} (h : s.Inv) (hf : s.fault = none) (hq : s.opreq = 0#2) (hs : s.seq ≠ .idle)
    (ht : fbtxStep s = .next t) : t.rank < s.rank ∧ (t.busy = true ∨ t.connected = true) := by
  obtain ⟨k, e⟩ | ho := operation_of_ne_idle hs
  · obtain ⟨u, hu, -⟩ := connect_progress h e
    rw [fbtx_connect hq e, hu, settle_ok hf] at ht
    cases ht
    refine ⟨rank_lt_of_stage (by rw [e]; exact connectStep_stage hu), ?_⟩
    have writes := connectStep_writes hu
    by_cases last : k = .k11
    · exact .inr (by rw [writes.connected, if_pos last])
    · exact .inl (by rw [writes.busy, if_neg last]; exact h.busyIff.2 hs)
  · obtain ⟨u, hu, -, same⟩ := display_progress h ho
    rw [fbtx_display h hf hq ho, hu, settle_ok hf] at ht
    cases ht
    refine ⟨displayStep_descends h hu, .inr ?_⟩
    rw [same.conn]
    rcases ho with ho | ho <;> exact ownerConn h ho (by simp)

/-! The run. -/

/-- By induction on the rank: the machine steps until `seq` is `IDLE`, and it is connected then if an operation was in
progress, or if it was connected before. -/
theorem comes_to_rest {s : State} (h : s.Inv) (hf : s.fault = none) (hq : s.opreq = 0#2) (hh : s.host = []) :
    ∃ t, Reaches s t ∧ t.atRest ∧ t.host = [] ∧ (s.busy = true ∨ s.connected = true → t.connected = true) := by
  induction r : s.rank using WellFoundedLT.induction generalizing s with
  | ind _ ih =>
    subst r
    by_cases hs : s.seq = .idle
    · have free : s.busy = false := by simpa [hs] using h.busyIff
      exact ⟨s, reaches_refl s, ⟨hf, hs, free, hq⟩, hh, fun before => before.resolve_left (by simp [free])⟩
    · obtain ⟨u, hu, inv_u, uf, uq, uh, -⟩ := fbtx_progress h hf hq
      obtain ⟨lower, connects⟩ := fbtxStep_descends h hf hq hs hu
      obtain ⟨t, reach, rest, ht, connected⟩ := ih _ lower inv_u uf uq (uh.trans hh) rfl
      have made : step s = .next u := (step_of_noMoves h.configOk hf hq hh).trans hu
      exact ⟨t, reaches_trans (reaches_one made) reach, rest, ht, fun _ => connected connects⟩

/-- Settles O44: the run of `comes_to_rest`. -/
theorem operationsTerminate : Obligations.OperationsTerminate := by
  intro s h hf hq hh
  obtain ⟨t, reach, rest, ht, connected⟩ := comes_to_rest h hf hq hh
  exact ⟨t, reach, rest, ht, fun busy => connected (.inl busy)⟩

end Sys2Proof.Machine
end
